-- ==== Sys2Proof/Word.lean ====
section
/-! DEFINITION. The word types of the block: command words, bytes and pixels (spec/00_scope.md R9, R10). -/

namespace Sys2Proof

/-- A command word, 32 bits (30_encoding.md R70). -/
abbrev Word := BitVec 32

/-- A byte: a payload byte, a mask or one colour channel; bit 0 is the least significant (R9). -/
abbrev Byte := BitVec 8

/-- A pixel: red in bits 23:16, green in 15:8, blue in 7:0 (20_memory.md R51). -/
abbrev Pixel := BitVec 24

end Sys2Proof
end

