-- ==== Sys2Proof/Config.lean ====
section
/-! DEFINITION. The parameters of this hardware, each at the value it takes (spec/00_scope.md R6), and the two values
the spec leaves to the model: what an image byte nothing has written reads as, and what a port answers when the
environment has scheduled nothing. No value of the spec is free, so this file holds no opaque constant. -/

namespace Sys2Proof.Config

/-- Width of IMGW, IMGH, CURX, CURY (R6). -/
def coordW : Nat := 16

/-- Width of SIZEV, RCNT, IDX and of the source's lengths (R6). -/
def sizeW : Nat := 32

/-- Width of CAPR, derived from COORD_W (R6). -/
def capW : Nat := 2 * coordW + 2

/-- Width of FLEN, derived from SIZE_W (R6). -/
def flenW : Nat := sizeW + 2

/-- Capacity of the embed-side queue BQ (R6). -/
def bqCap : Nat := 8

/-- Capacity of the retrieve-side queue AQ (R6). -/
def aqCap : Nat := 31

/-- DESIGN CHOICE (unsafe; log entry 2): an image byte that nothing has written reads as this. -/
def unlistedByte : Byte := 0x00#8

end Sys2Proof.Config
end

