-- ==== Sys2Proof/Syntax.lean ====
section
/-! DEFINITION. The 22 commands of spec/30_encoding.md R74, one constructor per row of spec/opcode_table.json, with the
operand of formats B and P (R71, R72). -/

namespace Sys2Proof

/-- A command of the block, in the order of the opcode table. -/
inductive Instr where
  /-- 0x01, format B: load the Bit Enablement Mask (R201). -/
  | setmask (imm8 : Byte)
  /-- 0x02, format B: read a state register (R202). -/
  | rdreg (imm8 : Byte)
  /-- 0x03, format Z: software reset (R203). -/
  | srst
  /-- 0x10, format P: load the pixel holding register (R93). -/
  | ldpx (imm24 : Pixel)
  /-- 0x11, format P: load the channel-vector register (R94). -/
  | ldch (imm24 : Pixel)
  /-- 0x12, format Z: channel decode (R95). -/
  | cdec
  /-- 0x13, format Z: channel encode (R96). -/
  | cenc
  /-- 0x20, format B: load the byte register (R102). -/
  | ldbyte (imm8 : Byte)
  /-- 0x21, format Z: expand the byte register into the bit queue (R101). -/
  | expb
  /-- 0x22, format B: load the bit budget (R103). -/
  | ldrem (imm8 : Byte)
  /-- 0x23, format Z: embed queued bits into the current pixel (R107). -/
  | pemb
  /-- 0x28, format Z: extract the current pixel's enabled bits (R122). -/
  | pext
  /-- 0x29, format Z: pop eight bits and form a byte (R123). -/
  | packb
  /-- 0x30, format Z: create the cursor and empty the bit path (R131). -/
  | cinit
  /-- 0x31, format Z: write-cursor advance (R134). -/
  | wadv
  /-- 0x32, format Z: read-cursor advance (R135). -/
  | radv
  /-- 0x40, format Z: put the framer in its start state (R150). -/
  | finit
  /-- 0x41, format Z: produce the next byte of the framed payload (R156). -/
  | fnext
  /-- 0x42, format Z: feed the byte register to the deserializer (R160). -/
  | fput
  /-- 0x50, format Z: compute the capacity (R172). -/
  | cap
  /-- 0x60, format Z: hide the secret in the image (R190). -/
  | embed
  /-- 0x61, format Z: recover a secret from the image (R195). -/
  | retrieve
deriving DecidableEq, Repr

end Sys2Proof
end

