-- ==== Sys2Proof/WellFormed.lean ====
section
/-! DEFINITION. Operand legality (spec/30_encoding.md R72, R76). Every operand of every constructor is encodable, so
the one thing a command can be ill-formed in is an operand value outside the range R72 calls legal: LDREM above 24
and RDREG above 22. Such a word still decodes, and its command answers ILLEGAL_OPERAND (R76, R218). -/

namespace Sys2Proof

/-- The largest legal operand of LDREM: 24 slots (R72, R103). -/
def maxBudget : Nat := 24

/-- The largest register number (R72; 10_state.md R41). -/
def maxRegister : Nat := 22

/-- The operand lies in the range R72 calls legal. -/
def Instr.wellFormed : Instr → Bool
  | .ldrem imm8 => imm8.toNat ≤ maxBudget
  | .rdreg imm8 => imm8.toNat ≤ maxRegister
  | .setmask _ | .srst | .ldpx _ | .ldch _ | .cdec | .cenc | .ldbyte _ | .expb | .pemb | .pext | .packb
  | .cinit | .wadv | .radv | .finit | .fnext | .fput | .cap | .embed | .retrieve => true

end Sys2Proof
end

