-- ==== Sys2Proof/Decode.lean ====
section
/-! DEFINITION. Decoding and encoding of command words (spec/30_encoding.md R70 to R78). Decoding is total: a word is
one of the 22 commands or is rejected by name (R75, R77). -/

namespace Sys2Proof

/-- Why a word is no command (R75). -/
inductive DecodeReject where
  /-- Bits 31:24 are not one of the 22 opcodes of R74. -/
  | unknownOpcode
  /-- The opcode is in the table and a must-be-zero bit of its format is 1. -/
  | operandBitsNotZero
deriving DecidableEq, Repr

/-- OP = c[31:24] (R70). -/
def opcodeField (c : Word) : Byte := c.extractLsb' 24 8

/-- imm24 = c[23:0], as it stands (R72). -/
def imm24Field (c : Word) : Pixel := c.extractLsb' 0 24

/-- imm8 = c[7:0], as it stands (R72). -/
def imm8Field (c : Word) : Byte := c.extractLsb' 0 8

/-- Format Z: all 24 argument bits must be 0 (R71). -/
def decodeZ (c : Word) (i : Instr) : Except DecodeReject Instr :=
  if c.extractLsb' 0 24 = 0#24 then .ok i else .error .operandBitsNotZero

/-- Format B: bits 23:8 must be 0, bits 7:0 are the operand (R71). -/
def decodeB (c : Word) (f : Byte → Instr) : Except DecodeReject Instr :=
  if c.extractLsb' 8 16 = 0#16 then .ok (f (imm8Field c)) else .error .operandBitsNotZero

/-- Format P: bits 23:0 are the operand (R71). -/
def decodeP (c : Word) (f : Pixel → Instr) : Except DecodeReject Instr := .ok (f (imm24Field c))

/-- The command a word stands for, or why it is illegal (R74, R75). -/
def decode (c : Word) : Except DecodeReject Instr :=
  match (opcodeField c).toNat with
  | 0x01 => decodeB c .setmask
  | 0x02 => decodeB c .rdreg
  | 0x03 => decodeZ c .srst
  | 0x10 => decodeP c .ldpx
  | 0x11 => decodeP c .ldch
  | 0x12 => decodeZ c .cdec
  | 0x13 => decodeZ c .cenc
  | 0x20 => decodeB c .ldbyte
  | 0x21 => decodeZ c .expb
  | 0x22 => decodeB c .ldrem
  | 0x23 => decodeZ c .pemb
  | 0x28 => decodeZ c .pext
  | 0x29 => decodeZ c .packb
  | 0x30 => decodeZ c .cinit
  | 0x31 => decodeZ c .wadv
  | 0x32 => decodeZ c .radv
  | 0x40 => decodeZ c .finit
  | 0x41 => decodeZ c .fnext
  | 0x42 => decodeZ c .fput
  | 0x50 => decodeZ c .cap
  | 0x60 => decodeZ c .embed
  | 0x61 => decodeZ c .retrieve
  | _ => .error .unknownOpcode

/-- A format Z word (R71). -/
def encodeZ (op : Byte) : Word := op ++ 0#24

/-- A format B word (R71). -/
def encodeB (op imm8 : Byte) : Word := op ++ (0#16 ++ imm8)

/-- A format P word (R71). -/
def encodeP (op : Byte) (imm24 : Pixel) : Word := op ++ imm24

/-- The word of a command (R74). -/
def encode : Instr → Word
  | .setmask imm8 => encodeB 0x01#8 imm8
  | .rdreg imm8 => encodeB 0x02#8 imm8
  | .srst => encodeZ 0x03#8
  | .ldpx imm24 => encodeP 0x10#8 imm24
  | .ldch imm24 => encodeP 0x11#8 imm24
  | .cdec => encodeZ 0x12#8
  | .cenc => encodeZ 0x13#8
  | .ldbyte imm8 => encodeB 0x20#8 imm8
  | .expb => encodeZ 0x21#8
  | .ldrem imm8 => encodeB 0x22#8 imm8
  | .pemb => encodeZ 0x23#8
  | .pext => encodeZ 0x28#8
  | .packb => encodeZ 0x29#8
  | .cinit => encodeZ 0x30#8
  | .wadv => encodeZ 0x31#8
  | .radv => encodeZ 0x32#8
  | .finit => encodeZ 0x40#8
  | .fnext => encodeZ 0x41#8
  | .fput => encodeZ 0x42#8
  | .cap => encodeZ 0x50#8
  | .embed => encodeZ 0x60#8
  | .retrieve => encodeZ 0x61#8

/-- The "match" and "mask" columns of the opcode table of R74, in its order. -/
def opcodeRows : List (Word × Word) :=
  [(0x01000000#32, 0xFFFFFF00#32), (0x02000000#32, 0xFFFFFF00#32), (0x03000000#32, 0xFFFFFFFF#32),
   (0x10000000#32, 0xFF000000#32), (0x11000000#32, 0xFF000000#32), (0x12000000#32, 0xFFFFFFFF#32),
   (0x13000000#32, 0xFFFFFFFF#32), (0x20000000#32, 0xFFFFFF00#32), (0x21000000#32, 0xFFFFFFFF#32),
   (0x22000000#32, 0xFFFFFF00#32), (0x23000000#32, 0xFFFFFFFF#32), (0x28000000#32, 0xFFFFFFFF#32),
   (0x29000000#32, 0xFFFFFFFF#32), (0x30000000#32, 0xFFFFFFFF#32), (0x31000000#32, 0xFFFFFFFF#32),
   (0x32000000#32, 0xFFFFFFFF#32), (0x40000000#32, 0xFFFFFFFF#32), (0x41000000#32, 0xFFFFFFFF#32),
   (0x42000000#32, 0xFFFFFFFF#32), (0x50000000#32, 0xFFFFFFFF#32), (0x60000000#32, 0xFFFFFFFF#32),
   (0x61000000#32, 0xFFFFFFFF#32)]

/-- A word matches a row when `c & mask = match` (R71). -/
def matchesRow (c : Word) (row : Word × Word) : Bool := c &&& row.2 = row.1

/-- A command word crosses the command port as one 32-bit unit (R70), so it has no byte order: the table's bit k is
the word's bit k, and every bit above `nbits` is 0. -/
def tableWord (nbits w : Nat) : Word := BitVec.ofNat 32 (w % 2 ^ nbits)

/-- The instruction the decoder reads from a table row's word. -/
def decodeTableWord (nbits w : Nat) : Option Instr :=
  match decode (tableWord nbits w) with
  | .ok i => some i
  | .error _ => none

end Sys2Proof
end

