-- ==== Sys2Proof/Machine/State.lean ====
section
/-! DEFINITION. The state of the block and of what is attached to it (spec/10_state.md; spec/20_memory.md), as plain
data, and the state after reset (spec/70_reset_and_hazards.md R240). Quantities that the rules count with are exact
naturals (spec/00_scope.md R7); registers the rules treat as bits are bit vectors. -/

namespace Sys2Proof.Machine

/-- The carrier image as a list of (address, byte) pairs (20_memory.md R50). The three channel bytes of the pixel with
row-major index j stand at addresses 3j (red), 3j + 1 (green), 3j + 2 (blue): DESIGN CHOICE (log entry 1). -/
abbrev Memory := List Host.Cell

/-- The canonical form of a memory from address `lo` on: addresses strictly rising, and no entry equal to what an
unlisted address reads as. -/
def Memory.wfFrom : Nat → Memory → Bool
  | _, [] => true
  | lo, (a, b) :: rest => decide (lo ≤ a) && decide (b ≠ Config.unlistedByte) && Memory.wfFrom (a + 1) rest

/-- The memory is in its canonical form. -/
def Memory.wf (m : Memory) : Bool := Memory.wfFrom 0 m

/-- The Payload Component, register COMP (10_state.md R33; 93_implementation_defined.md U14: three values). -/
inductive Component where
  | fileName
  | fileSize
  | rawData
deriving DecidableEq, Repr

/-- The response codes of 60_exceptions.md R210. -/
inductive Code where
  | ok
  | capacityExceeded
  | noSecretFound
  | truncatedSecret
  | ioFailure
  | exhausted
  | endOfStream
  | queueShort
  | queueFull
  | done
  | illegalCommand
  | illegalOperand
deriving DecidableEq, Repr

/-- The four values of STATUS.PORT (10_state.md R40). -/
inductive Port where
  | imgGet
  | imgSet
  | srcRead
  | sink
deriving DecidableEq, Repr

/-- A response returned to the host (60_exceptions.md R211). -/
structure Response where
  code : Code
  value : Nat
deriving DecidableEq, Repr

/-- What a port answers to a fallible access (20_memory.md R59): `ok`, `fail`, or nothing at all, ever
(70_reset_and_hazards.md R255; 93_implementation_defined.md U9). -/
inductive PortAnswer where
  | ok
  | fail
  | never
deriving DecidableEq, Repr

/-- One use of a port, with the answer of a fallible one (20_memory.md R52 to R58). -/
inductive PortUse where
  | imgGet (x y : Nat) (answer : PortAnswer)
  | imgSet (x y : Nat) (p : Pixel) (answer : PortAnswer)
  | srcRead (i : Nat) (answer : PortAnswer)
  | sinkOpen (name : List Byte) (answer : PortAnswer)
  | sinkWrite (b : Byte) (answer : PortAnswer)
  | sinkClose
  | sinkDiscard
  | srcClose
deriving DecidableEq, Repr

/-- The events of the trace of 20_memory.md R58. -/
inductive Event where
  | sinkOpen (name : List Byte)
  | sinkWrite (b : Byte)
  | sinkClose
  | sinkDiscard
  | srcClose
deriving DecidableEq, Repr

/-- What the host, or the environment it represents, can do to the block between commands (00_scope.md R14;
70_reset_and_hazards.md R240, R243, R247). -/
inductive HostMove where
  /-- Send a command word (R14). -/
  | command (w : Word)
  /-- Assert and release the reset input (R240). -/
  | resetInput
  /-- Attach an image of the given width and height, its pixels in row-major order (R243). -/
  | attachImage (w h : Nat) (pixels : List Pixel)
  /-- Write one pixel of the attached image (R247). -/
  | writePixel (x y : Nat) (p : Pixel)
  /-- Attach a secret source (R243, R247). -/
  | attachSource (name data : List Byte)
  /-- Settle what the ports will answer to later accesses (20_memory.md R59). -/
  | settleAnswers (answers : List PortAnswer)
deriving DecidableEq, Repr

/-- The whole machine: the registers of 10_state.md R41, what is attached to the block (R20), and what passes between
block and host. -/
structure State where
  /-- Register 0, MASK (R22). -/
  mask : Byte
  /-- Register 1, IMGW, the attached image's width (R23). -/
  imgw : Nat
  /-- Register 2, IMGH, the attached image's height (R23). -/
  imgh : Nat
  /-- Register 3, CURX (R24). -/
  curx : Nat
  /-- Register 4, CURY (R24). -/
  cury : Nat
  /-- Register 5, CURF, bit 0: a pixel has been issued (R25). -/
  issued : Bool
  /-- Register 5, CURF, bit 1: the cursor is exhausted (R25). -/
  exh : Bool
  /-- Register 6, PXR, the pixel holding register (R26). -/
  pxr : Pixel
  /-- Register 7, CHR, the three channel bit vectors (R28). -/
  chr : Pixel
  /-- Register 8, BYTER, the byte register (R29). -/
  byter : Byte
  /-- Register 9, BQ, the embed-side bit queue, head first (R30). -/
  bq : List Bool
  /-- Register 10, AQ, the retrieve-side bit queue, head first (R30). -/
  aq : List Bool
  /-- Register 11, BREM, the slots of the current pixel not yet filled (R31). -/
  brem : Nat
  /-- Register 12, CNT, the bits the last PEMB consumed (R32). -/
  cnt : Nat
  /-- Register 13, COMP (R33). -/
  comp : Component
  /-- Register 14, IDX (R34). -/
  idx : Nat
  /-- Register 15, RCNT (R35). -/
  rcnt : Nat
  /-- Register 16, SIZEV (R36). -/
  sizev : Nat
  /-- Register 17, FFLAGS, bit 0 (R37). -/
  sinkopen : Bool
  /-- Register 17, FFLAGS, bit 1 (R37). -/
  done : Bool
  /-- Register 17, FFLAGS, bit 2 (R37). -/
  failed : Bool
  /-- Register 17, FFLAGS, bit 3 (R37). -/
  send : Bool
  /-- NAMEBUF; its length is register 18, NAMELEN (R38). -/
  namebuf : List Byte
  /-- SIZEBUF; its length is register 19, SIZELEN (R38). -/
  sizebuf : List Byte
  /-- Register 20, CAPR (R39). -/
  capr : Nat
  /-- Register 21, FLEN (R39). -/
  flen : Nat
  /-- Register 22, STATUS: CODE 7:0, PORT 9:8, ZCAP 10 (R40). -/
  status : BitVec 11
  /-- The attached carrier image (20_memory.md R50). -/
  image : Memory
  /-- The attached source's name (20_memory.md R55). -/
  srcName : List Byte
  /-- The attached source's data; its length is LEN (20_memory.md R55). -/
  srcData : List Byte
  /-- The model's own: what the ports answer to the fallible accesses to come (20_memory.md R59; log entry 5). -/
  answers : List PortAnswer
  /-- The model's own: every use of a port so far, in order (log entry 15). -/
  ports : List PortUse
  /-- The model's own: the host's moves still to come (log entry 6). -/
  inbox : List HostMove
  /-- The model's own: the responses returned so far, in order (00_scope.md R14; log entry 15). -/
  responses : List Response
  /-- The model's own: a port access of the running command is not answered (70_reset_and_hazards.md R255; log
  entry 8). -/
  hung : Bool
deriving DecidableEq, Repr

/-- How a step can stop with a fault. No failure of the spec is one: those are responses (60_exceptions.md R220). -/
inductive Fault where
  /-- Raised by ImgGet, ImgSet and the host's pixel write for a coordinate outside the attached image, which 20_memory.md
  R54 says no rule produces while the host keeps its duties (70_reset_and_hazards.md R247). Safe: the model stops. -/
  | imageAddress
  /-- Raised by the loops of EMBED and RETRIEVE if they passed the bounds of 00_scope.md R15; they never do. Safe: the
  model stops. -/
  | loopBound
deriving DecidableEq, Repr

/-- How a step can be refused. -/
inductive Refusal where
  /-- Raised by an arm of exec whose instruction has no meaning yet. Safe: the model stops. -/
  | notModelled (mnemonic : String)
  /-- Raised when the host attaches something that is no image of this parameter set: a dimension of 2^COORD_W or more,
  or a number of pixels other than width times height (93_implementation_defined.md U16). Safe: the model stops. -/
  | imageOutsideParameters
  /-- Raised when the host attaches a source whose name or data has 2^SIZE_W bytes or more
  (93_implementation_defined.md U16). Safe: the model stops. -/
  | sourceOutsideParameters
deriving DecidableEq, Repr

/-- The machine right after reset (70_reset_and_hazards.md R240). DESIGN CHOICE (unsafe; log entries 3 to 6): an image
without pixels and an empty source are attached, the environment has scheduled no answer and the host has no move
waiting. -/
def State.reset : State where
  mask := 0x00#8
  imgw := 0
  imgh := 0
  curx := 0
  cury := 0
  issued := false
  exh := false
  pxr := 0x000000#24
  chr := 0x000000#24
  byter := 0x00#8
  bq := []
  aq := []
  brem := 0
  cnt := 0
  comp := .fileName
  idx := 0
  rcnt := 0
  sizev := 0
  sinkopen := false
  done := false
  failed := false
  send := false
  namebuf := []
  sizebuf := []
  capr := 0
  flen := 0
  status := 0#11
  image := []
  srcName := []
  srcData := []
  answers := []
  ports := []
  inbox := []
  responses := []
  hung := false

end Sys2Proof.Machine
end

