-- ==== Sys2Proof/Machine/Pure.lean ====
section
/-! DEFINITION. The pure functions of spec/00_scope.md R12, with popcount (R8) and num (R10). They read no state and
write none, and are total. -/

namespace Sys2Proof.Machine

/-! ### Bits and queues -/

/-- The bit indices 7 down to 0, the order in which a channel is scanned (20_memory.md R60). -/
def indicesDown : List Nat := [7, 6, 5, 4, 3, 2, 1, 0]

/-- The number of 1 bits; of MASK, the number `n` of enabled bits (00_scope.md R8, R9). -/
def popcount (v : Byte) : Nat := indicesDown.countP (fun i => v.getLsbD i)

/-- The number whose binary numeral, most significant bit first, is the queue (00_scope.md R10). -/
def num (q : List Bool) : Nat := q.foldl (fun acc b => 2 * acc + b.toNat) 0

/-- The byte as a queue, most significant bit first (20_memory.md R61). -/
def expand (b : Byte) : List Bool := indicesDown.map (fun i => b.getLsbD i)

/-- The byte whose bit 7 is the head of the queue of 8 bits (20_memory.md R62). -/
def pack (q : List Bool) : Byte := BitVec.ofNat 8 (num q)

/-- The byte with bit `i` set to `b`. -/
def setBitTo (v : Byte) (i : Nat) (b : Bool) : Byte :=
  if b then v ||| BitVec.twoPow 8 i else v &&& ~~~(BitVec.twoPow 8 i)

/-! ### Channel codec -/

/-- The three channels of a pixel (00_scope.md glossary). -/
inductive Channel where
  | red
  | green
  | blue
deriving DecidableEq, Repr

/-- The three channel bit vectors (10_state.md R28). -/
structure Channels where
  red : Byte
  green : Byte
  blue : Byte
deriving DecidableEq, Repr

/-- decode (40_channel_codec.md R90). -/
def decodePixel (p : Pixel) : Channels where
  red := p.extractLsb' 16 8
  green := p.extractLsb' 8 8
  blue := p.extractLsb' 0 8

/-- encode (40_channel_codec.md R91). -/
def encodePixel (c : Channels) : Pixel := c.red ++ (c.green ++ c.blue)

/-- The vector of one channel. -/
def Channels.get (c : Channels) : Channel → Byte
  | .red => c.red
  | .green => c.green
  | .blue => c.blue

/-- The channels with one vector replaced. -/
def Channels.put (c : Channels) (ch : Channel) (v : Byte) : Channels :=
  match ch with
  | .red => { c with red := v }
  | .green => { c with green := v }
  | .blue => { c with blue := v }

/-! ### Slots, embedding, extraction -/

/-- A slot: a channel and a bit index (20_memory.md R60). -/
abbrev Slot := Channel × Nat

/-- The enabled indices, from 7 down (20_memory.md R60). -/
def enabledIndices (mask : Byte) : List Nat := indicesDown.filter (fun i => mask.getLsbD i)

/-- slots (20_memory.md R60): Red, Green, Blue, and in each channel the enabled indices from 7 down. -/
def slots (mask : Byte) : List Slot :=
  [Channel.red, Channel.green, Channel.blue].flatMap
    (fun ch => (enabledIndices mask).map (fun i => (ch, i)))

/-- The number of enabled slots of a pixel, `3·n` (00_scope.md R8). -/
def slotCount (mask : Byte) : Nat := 3 * popcount mask

/-- Bit `i` of channel `ch` of the pixel (42_bit_extractor.md R121). -/
def slotBit (p : Pixel) (s : Slot) : Bool := ((decodePixel p).get s.1).getLsbD s.2

/-- Set the slot to the NOT of the payload bit (41_bit_embedder.md R106). -/
def fillSlot (c : Channels) (target : Slot × Bool) : Channels :=
  c.put target.1.1 (setBitTo (c.get target.1.1) target.1.2 (!target.2))

/-- What embed_px returns: the updated pixel, bitsConsumed, and what stays in the queue. -/
structure Embedded where
  pixel : Pixel
  consumed : Nat
  rest : List Bool
deriving DecidableEq, Repr

/-- embed_px (41_bit_embedder.md R106), for a budget `r ≤ 3·n`. -/
def embedPx (p : Pixel) (q : List Bool) (mask : Byte) (r : Nat) : Embedded :=
  let off := slotCount mask - r
  let c := min q.length r
  { pixel := encodePixel ((((slots mask).drop off).zip (q.take c)).foldl fillSlot (decodePixel p))
    consumed := c
    rest := q.drop c }

/-- extract (42_bit_extractor.md R121): the NOT of every enabled slot, in slot order. -/
def extract (p : Pixel) (mask : Byte) : List Bool := (slots mask).map (fun s => !slotBit p s)

/-! ### Capacity and framing -/

/-- capacity (45_capacity.md R170). -/
def capacity (w h n : Nat) : Nat := w * h * 3 * n / 8

/-- The byte of a decimal digit, 0x30 + d (44_payload_framer.md R152). The spec takes the character codes from general
knowledge (93_implementation_defined.md G1; log entry 14). -/
def digitByte (d : Nat) : Byte := BitVec.ofNat 8 (0x30 + d)

/-- The decimal digits of `v`, most significant first; `k` is more than the number of digits. -/
def decUpTo : Nat → Nat → List Byte
  | 0, _ => []
  | k + 1, v => if v < 10 then [digitByte v] else decUpTo k (v / 10) ++ [digitByte (v % 10)]

/-- dec (44_payload_framer.md R152): the shortest decimal numeral, most significant digit first. -/
def dec (v : Nat) : List Byte := decUpTo (v + 1) v

/-- frame (44_payload_framer.md R153). -/
def frame (name data : List Byte) : List Byte := name ++ [0x00#8] ++ dec data.length ++ [0x00#8] ++ data

/-- flen (44_payload_framer.md R154). -/
def framedLength (name data : List Byte) : Nat := name.length + 1 + (dec data.length).length + 1 + data.length

/-- The byte is a decimal digit, 0x30 to 0x39 (44_payload_framer.md R161). -/
def isDigit (b : Byte) : Bool := decide (0x30 ≤ b.toNat) && decide (b.toNat ≤ 0x39)

/-- The value of a digit string read as a decimal numeral, most significant digit first (R161). -/
def decimalValue (s : List Byte) : Nat := s.foldl (fun acc b => 10 * acc + (b.toNat - 0x30)) 0

/-- parse_size (44_payload_framer.md R161). -/
def parseSize (s : List Byte) : Option Nat :=
  let v := decimalValue s
  if s ≠ [] ∧ s.all isDigit = true ∧ 1 ≤ v ∧ v ≤ 2 ^ Config.sizeW - 1 then some v else none

end Sys2Proof.Machine
end

