-- ==== Sys2Proof/Machine/Flags.lean ====
section
/-! DEFINITION. The flag registers and the encodings they are read back in: CURF (spec/10_state.md R25), COMP (R33),
FFLAGS (R37), STATUS (R40) with the response codes of spec/60_exceptions.md R210. -/

namespace Sys2Proof.Machine

/-- The 8-bit value of a response code (60_exceptions.md R210). -/
def Code.byte : Code → Byte
  | .ok => 0x00#8
  | .capacityExceeded => 0x01#8
  | .noSecretFound => 0x02#8
  | .truncatedSecret => 0x03#8
  | .ioFailure => 0x04#8
  | .exhausted => 0x10#8
  | .endOfStream => 0x11#8
  | .queueShort => 0x12#8
  | .queueFull => 0x13#8
  | .done => 0x14#8
  | .illegalCommand => 0x20#8
  | .illegalOperand => 0x21#8

/-- The value of STATUS.PORT (10_state.md R40). -/
def Port.bits : Port → BitVec 2
  | .imgGet => 0#2
  | .imgSet => 1#2
  | .srcRead => 2#2
  | .sink => 3#2

/-- STATUS.PORT: the port of the failing access, 0 when there is none (60_exceptions.md R212). -/
def portBits : Option Port → BitVec 2
  | some p => p.bits
  | none => 0#2

/-- STATUS = {ZCAP, PORT, CODE} (10_state.md R40). -/
def statusWord (code : Code) (port : Option Port) (zcap : Bool) : BitVec 11 :=
  BitVec.ofBool zcap ++ (portBits port ++ code.byte)

/-- CURF = {EXH, ISSUED} as a number (10_state.md R25). -/
def curfValue (s : State) : Nat := 2 * s.exh.toNat + s.issued.toNat

/-- COMP as a number (10_state.md R33). -/
def Component.number : Component → Nat
  | .fileName => 0
  | .fileSize => 1
  | .rawData => 2

/-- FFLAGS = {SEND, FAILED, DONE, SINKOPEN} as a number (10_state.md R37). -/
def fflagsValue (s : State) : Nat := 8 * s.send.toNat + 4 * s.failed.toNat + 2 * s.done.toNat + s.sinkopen.toNat

end Sys2Proof.Machine
end

