-- ==== Sys2Proof/Machine/Operands.lean ====
section
/-! DEFINITION. The operand forms: the immediates of formats B and P (spec/30_encoding.md R72) and the register numbers
RDREG reads (spec/10_state.md R41, with the packings of R22 to R40). -/

namespace Sys2Proof.Machine

/-- imm8 as a number: unsigned, as it stands (R72). -/
def byteOperand (imm8 : Byte) : Nat := imm8.toNat

/-- imm24 as a number: unsigned, as it stands (R72). -/
def pixelOperand (imm24 : Pixel) : Nat := imm24.toNat

/-- BQ reads as |BQ|·2^8 + num(BQ) (10_state.md R30). -/
def bqValue (q : List Bool) : Nat := q.length * 2 ^ Config.bqCap + num q

/-- AQ reads as |AQ|·2^31 + num(AQ) (10_state.md R30). -/
def aqValue (q : List Bool) : Nat := q.length * 2 ^ Config.aqCap + num q

/-- The value of the register with a number of 10_state.md R41; none above 22. -/
def readRegister (s : State) : Nat → Option Nat
  | 0 => some s.mask.toNat
  | 1 => some s.imgw
  | 2 => some s.imgh
  | 3 => some s.curx
  | 4 => some s.cury
  | 5 => some (curfValue s)
  | 6 => some s.pxr.toNat
  | 7 => some s.chr.toNat
  | 8 => some s.byter.toNat
  | 9 => some (bqValue s.bq)
  | 10 => some (aqValue s.aq)
  | 11 => some s.brem
  | 12 => some s.cnt
  | 13 => some s.comp.number
  | 14 => some s.idx
  | 15 => some s.rcnt
  | 16 => some s.sizev
  | 17 => some (fflagsValue s)
  | 18 => some s.namebuf.length
  | 19 => some s.sizebuf.length
  | 20 => some s.capr
  | 21 => some s.flen
  | 22 => some s.status.toNat
  | _ => none

end Sys2Proof.Machine
end

