-- ==== Sys2Proof/Machine/Ops.lean ====
section
/-! DEFINITION. The named operations over memory, ports and registers: byte and pixel access to the carrier image
(spec/20_memory.md R50 to R54), the ports and their answers (R55 to R59), ending a command with a response
(spec/60_exceptions.md R211, R212), reset (spec/70_reset_and_hazards.md R240, R241), and the illegal word (R217 of
spec/60_exceptions.md). A failure has no trap entry and no return (R220 to R222): it ends the command by the same
`finish` as a success, after the release steps its rule names. -/

namespace Sys2Proof.Machine

/-! ### Bytes of the carrier image -/

/-- The byte at an address. -/
def Memory.read : Memory → Nat → Byte
  | [], _ => Config.unlistedByte
  | (k, v) :: rest, a => if k = a then v else Memory.read rest a

/-- The memory with one byte written, in canonical form. -/
def Memory.write : Memory → Nat → Byte → Memory
  | [], a, b => if b = Config.unlistedByte then [] else [(a, b)]
  | (k, v) :: rest, a, b =>
    if a < k then (if b = Config.unlistedByte then (k, v) :: rest else (a, b) :: (k, v) :: rest)
    else if a = k then (if b = Config.unlistedByte then rest else (a, b) :: rest)
    else (k, v) :: Memory.write rest a b

/-- The address of a pixel's red byte; green and blue follow. The row-major index is y·IMGW + x (20_memory.md R50). -/
def pixelAddress (w x y : Nat) : Nat := 3 * (y * w + x)

/-- The whole pixel whose red byte stands at an address. -/
def Memory.readPixel (m : Memory) (a : Nat) : Pixel :=
  encodePixel { red := m.read a, green := m.read (a + 1), blue := m.read (a + 2) }

/-- The memory with the whole pixel at an address written. -/
def Memory.writePixel (m : Memory) (a : Nat) (p : Pixel) : Memory :=
  let c := decodePixel p
  ((m.write a c.red).write (a + 1) c.green).write (a + 2) c.blue

/-- The image that holds a list of pixels in row-major order from address `a` on, over `m`. -/
def Memory.layPixels : Memory → Nat → List Pixel → Memory
  | m, _, [] => m
  | m, a, p :: rest => Memory.layPixels (m.writePixel a p) (a + 3) rest

/-- The coordinate names a pixel of the attached image (20_memory.md R50). -/
def State.inImage (s : State) (x y : Nat) : Bool := decide (x < s.imgw) && decide (y < s.imgh)

/-- The pixel now stored at (x, y) (20_memory.md R52). -/
def State.pixelAt (s : State) (x y : Nat) : Pixel := s.image.readPixel (pixelAddress s.imgw x y)

/-- The state with a pixel of the image replaced (20_memory.md R53). -/
def State.setPixel (s : State) (x y : Nat) (p : Pixel) : State :=
  { s with image := s.image.writePixel (pixelAddress s.imgw x y) p }

/-! ### What a part of a command leaves behind -/

/-- The result of a part of a command: a value and a state, a port access that is never answered
(70_reset_and_hazards.md R255), or a fault of the model. -/
inductive Res (α : Type) where
  | done (a : α) (s : State)
  | hang (s : State)
  | fault (f : Fault)
deriving DecidableEq, Repr

/-- Go on with a value and a state. -/
def Res.bind {α β : Type} (r : Res α) (f : α → State → Res β) : Res β :=
  match r with
  | .done a s => f a s
  | .hang s => .hang s
  | .fault e => .fault e

/-- What `respond` is given: code and value of the response, the port of a failing access, and ZCAP, which only EMBED
sets (60_exceptions.md R212). -/
structure Answer where
  code : Code
  value : Nat
  port : Option Port := none
  zcap : Bool := false
deriving DecidableEq, Repr

/-! ### Ports -/

/-- Record a use of a port. -/
def State.logUse (s : State) (u : PortUse) : State := { s with ports := s.ports ++ [u] }

/-- Make one fallible access (20_memory.md R59): the environment's next answer, `ok` when it has scheduled none (log
entry 5). The value is whether the access succeeded. -/
def request (use : PortAnswer → PortUse) (s : State) : Res Bool :=
  match s.answers with
  | [] => .done true (s.logUse (use .ok))
  | .ok :: rest => .done true { s.logUse (use .ok) with answers := rest }
  | .fail :: rest => .done false { s.logUse (use .fail) with answers := rest }
  | .never :: rest => .hang { s.logUse (use .never) with answers := rest }

/-- ImgGet (20_memory.md R52): the pixel, or none when the access fails. -/
def imgGet (x y : Nat) (s : State) : Res (Option Pixel) :=
  if s.inImage x y then
    (request (.imgGet x y) s).bind fun ok s₁ => .done (if ok then some (s₁.pixelAt x y) else none) s₁
  else .fault .imageAddress

/-- ImgSet (20_memory.md R53): on `fail` the image is unchanged. -/
def imgSet (x y : Nat) (p : Pixel) (s : State) : Res Bool :=
  if s.inImage x y then
    (request (.imgSet x y p) s).bind fun ok s₁ => .done ok (if ok then s₁.setPixel x y p else s₁)
  else .fault .imageAddress

/-- What SrcRead answers (20_memory.md R56). -/
inductive SourceByte where
  | byte (b : Byte)
  | streamEnd
  | failed
deriving DecidableEq, Repr

/-- SrcRead(i) (20_memory.md R56); `end` exactly for i ≥ LEN (92_eei_decisions.md D14; log entry 12). -/
def srcRead (i : Nat) (s : State) : Res SourceByte :=
  (request (.srcRead i) s).bind fun ok s₁ =>
    .done (if ok then (match s₁.srcData[i]? with | some b => .byte b | none => .streamEnd) else .failed) s₁

/-- SinkOpen(name) (20_memory.md R57). -/
def sinkOpen (name : List Byte) (s : State) : Res Bool := request (.sinkOpen name) s

/-- SinkWrite(b) (20_memory.md R57). -/
def sinkWrite (b : Byte) (s : State) : Res Bool := request (.sinkWrite b) s

/-- SinkClose(), which cannot fail (20_memory.md R57). -/
def State.sinkClose (s : State) : State := s.logUse .sinkClose

/-- SinkDiscard(), which cannot fail (20_memory.md R57). -/
def State.sinkDiscard (s : State) : State := s.logUse .sinkDiscard

/-- SrcClose(), which cannot fail (20_memory.md R56). -/
def State.srcClose (s : State) : State := s.logUse .srcClose

/-- `if SINKOPEN = 1: SinkClose() ; SINKOPEN <- 0` (46_orchestrators.md R195; 44_payload_framer.md R150). -/
def State.releaseSink (s : State) : State :=
  if s.sinkopen then { s.sinkClose with sinkopen := false } else s

/-- The event a use of a port leaves in the trace: those that answered ok or cannot fail (20_memory.md R58). -/
def PortUse.event : PortUse → Option Event
  | .sinkOpen name .ok => some (.sinkOpen name)
  | .sinkWrite b .ok => some (.sinkWrite b)
  | .sinkClose => some .sinkClose
  | .sinkDiscard => some .sinkDiscard
  | .srcClose => some .srcClose
  | .imgGet _ _ _ | .imgSet _ _ _ _ | .srcRead _ _ | .sinkOpen _ _ | .sinkWrite _ _ => none

/-- The event trace (20_memory.md R58). -/
def State.trace (s : State) : List Event := s.ports.filterMap PortUse.event

/-! ### Ending a command -/

/-- `respond(CODE, v)` with its write of STATUS (60_exceptions.md R211, R212). -/
def State.respond (s : State) (a : Answer) : State :=
  { s with
    status := statusWord a.code a.port a.zcap
    responses := s.responses ++ [{ code := a.code, value := a.value }] }

/-- The response of RDREG on its OK path, which does not write STATUS (47_system.md R202). -/
def State.respondQuietly (s : State) (v : Nat) : State :=
  { s with responses := s.responses ++ [{ code := .ok, value := v }] }

/-- The end of a command: its response, or a block that waits for a port that never answers. -/
def finish (r : Res Answer) : Host.Outcome State Fault Refusal :=
  match r with
  | .done a s => .next (s.respond a)
  | .hang s => .next { s with hung := true }
  | .fault f => .fault f

/-- The answer OK with a value. -/
def okWith (v : Nat) : Answer := { code := .ok, value := v }

/-- The answer IO_FAILURE of an access to a port (60_exceptions.md R216). -/
def ioFailure (port : Port) (v : Nat) : Answer := { code := .ioFailure, value := v, port := some port }

/-- ILLEGAL_COMMAND (60_exceptions.md R217): the value is the low 24 bits of the word. -/
def illegalCommand (w : Word) (s : State) : State :=
  s.respond { code := .illegalCommand, value := (imm24Field w).toNat }

/-! ### Reset -/

/-- Every register of 10_state.md R41 at its reset value, both buffers empty; what is outside the block, IMGW and IMGH
among it, as it was (70_reset_and_hazards.md R240, R241). -/
def State.resetRegisters (s : State) : State :=
  { State.reset with
    imgw := s.imgw, imgh := s.imgh, image := s.image
    srcName := s.srcName, srcData := s.srcData
    answers := s.answers, ports := s.ports
    inbox := s.inbox, responses := s.responses, hung := s.hung }

/-- The reset input (70_reset_and_hazards.md R240, R241): no port access, no event, and the one way out of a command
that hangs (R255). -/
def State.hardReset (s : State) : State := { s.resetRegisters with hung := false }

end Sys2Proof.Machine
end

