-- ==== Sys2Proof/Machine/Codec.lean ====
section
/-! DEFINITION. The channel codec commands LDPX, LDCH, CDEC, CENC (spec/40_channel_codec.md R93 to R96). A definition
`<command>Step` is the command's pseudocode up to its `respond`, the `step(CMD)` of spec/46_orchestrators.md; the
meaning `exec<Command>` ends it with the response. -/

namespace Sys2Proof.Machine

/-- R93. -/
def ldpxStep (imm24 : Pixel) (s : State) : Res Answer :=
  .done (okWith (pixelOperand imm24)) { s with pxr := imm24 }

/-- LDPX (R93). -/
def execLdpx (imm24 : Pixel) (s : State) : Host.Outcome State Fault Refusal := finish (ldpxStep imm24 s)

/-- R94. -/
def ldchStep (imm24 : Pixel) (s : State) : Res Answer :=
  .done (okWith (pixelOperand imm24)) { s with chr := imm24 }

/-- LDCH (R94). -/
def execLdch (imm24 : Pixel) (s : State) : Host.Outcome State Fault Refusal := finish (ldchStep imm24 s)

/-- R95: CHR holds the three vectors of decode(PXR) in the packing of 10_state.md R28. -/
def cdecStep (s : State) : Res Answer :=
  let c := decodePixel s.pxr
  let v : Pixel := c.red ++ (c.green ++ c.blue)
  .done (okWith v.toNat) { s with chr := v }

/-- CDEC (R95). -/
def execCdec (s : State) : Host.Outcome State Fault Refusal := finish (cdecStep s)

/-- The vectors RBITS, GBITS, BBITS of CHR (10_state.md R28). -/
def chrVectors (v : Pixel) : Channels where
  red := v.extractLsb' 16 8
  green := v.extractLsb' 8 8
  blue := v.extractLsb' 0 8

/-- R96. -/
def cencStep (s : State) : Res Answer :=
  let p := encodePixel (chrVectors s.chr)
  .done (okWith p.toNat) { s with pxr := p }

/-- CENC (R96). -/
def execCenc (s : State) : Host.Outcome State Fault Refusal := finish (cencStep s)

end Sys2Proof.Machine
end

