-- ==== Sys2Proof/Machine/Capacity.lean ====
section
/-! DEFINITION. The capacity calculator command CAP (spec/45_capacity.md R172). -/

namespace Sys2Proof.Machine

/-- The capacity of the attached image under the current mask (45_capacity.md R170, R172). -/
def imageCapacity (s : State) : Nat := capacity s.imgw s.imgh (popcount s.mask)

/-- R172: no port is accessed. -/
def capStep (s : State) : Res Answer := .done (okWith (imageCapacity s)) { s with capr := imageCapacity s }

/-- CAP (R172). -/
def execCap (s : State) : Host.Outcome State Fault Refusal := finish (capStep s)

end Sys2Proof.Machine
end

