-- ==== Sys2Proof/Machine/Cursor.lean ====
section
/-! DEFINITION. The pixel cursor commands CINIT, WADV, RADV (spec/43_pixel_cursor.md R130 to R137). -/

namespace Sys2Proof.Machine

/-- R131. PXR keeps its value and nothing is committed. -/
def cinitStep (s : State) : Res Answer :=
  .done (okWith 0)
    { s with curx := 0, cury := 0, issued := false, exh := false, brem := 0, cnt := 0, bq := [], aq := [] }

/-- CINIT (R131). -/
def execCinit (s : State) : Host.Outcome State Fault Refusal := finish (cinitStep s)

/-- The answer EXHAUSTED (R130). -/
def exhaustedAnswer : Answer := { code := .exhausted, value := 0 }

/-- The position after (CURX, CURY) in row-major order (R132). -/
def nextPosition (s : State) : Nat × Nat :=
  if s.curx + 1 = s.imgw then (0, s.cury + 1) else (s.curx + 1, s.cury)

/-- The budget of a newly yielded pixel: WADV reloads BREM with 3·n, RADV leaves it alone (R134 (a), R135). -/
def yieldBudget (reload : Bool) (s : State) : Nat := if reload then slotCount s.mask else s.brem

/-- The budget at exhaustion: a WADV that reports it clears BREM, RADV leaves it alone (10_state.md R31). -/
def exhaustedBudget (reload : Bool) (s : State) : Nat := if reload then 0 else s.brem

/-- The first advance after CINIT (R133): the pixel at (0, 0), or exhaustion at once when the image is empty. That WADV
clears BREM there too is 10_state.md R31; the pseudocode of R134 shows no write of BREM on that path: DEDUCED (unsafe;
log entry 18). -/
def firstAdvance (reload : Bool) (s : State) : Res Answer :=
  if s.imgw = 0 ∨ s.imgh = 0 then
    .done exhaustedAnswer { s with exh := true, brem := exhaustedBudget reload s }
  else
    (imgGet 0 0 s).bind fun r s₁ =>
      match r with
      | none => .done (ioFailure .imgGet 0) s₁
      | some p =>
        .done (okWith p.toNat) { s₁ with pxr := p, issued := true, brem := yieldBudget reload s₁ }

/-- The move to the next pixel and its read, or exhaustion exactly when the new row is IMGH or beyond (R134, R135,
R137). On exhaustion WADV clears BREM and RADV leaves it alone. -/
def moveAndRead (reload : Bool) (s : State) : Res Answer :=
  let (nx, ny) := nextPosition s
  if s.imgh ≤ ny then
    .done exhaustedAnswer { s with curx := nx, cury := ny, exh := true, brem := exhaustedBudget reload s }
  else
    (imgGet nx ny s).bind fun r s₁ =>
      match r with
      | none => .done (ioFailure .imgGet 0) s₁
      | some p =>
        .done (okWith p.toNat) { s₁ with curx := nx, cury := ny, pxr := p, brem := yieldBudget reload s₁ }

/-- R134: an issued pixel is committed first, also on the advance that reports exhaustion; after exhaustion nothing
happens (R136). -/
def wadvStep (s : State) : Res Answer :=
  if s.exh then .done exhaustedAnswer s
  else if s.issued then
    (imgSet s.curx s.cury s.pxr s).bind fun ok s₁ =>
      if ok then moveAndRead true s₁ else .done (ioFailure .imgSet 0) s₁
  else firstAdvance true s

/-- WADV (R134). -/
def execWadv (s : State) : Host.Outcome State Fault Refusal := finish (wadvStep s)

/-- R135: the traversal of WADV without the commit and without the writes of BREM. -/
def radvStep (s : State) : Res Answer :=
  if s.exh then .done exhaustedAnswer s
  else if s.issued then moveAndRead false s
  else firstAdvance false s

/-- RADV (R135). -/
def execRadv (s : State) : Host.Outcome State Fault Refusal := finish (radvStep s)

end Sys2Proof.Machine
end

