-- ==== Sys2Proof/Machine/Embedder.lean ====
section
/-! DEFINITION. The bit embedder commands LDBYTE, EXPB, LDREM, PEMB (spec/41_bit_embedder.md R101 to R107). -/

namespace Sys2Proof.Machine

/-- R102. -/
def ldbyteStep (imm8 : Byte) (s : State) : Res Answer :=
  .done (okWith (byteOperand imm8)) { s with byter := imm8 }

/-- LDBYTE (R102). -/
def execLdbyte (imm8 : Byte) (s : State) : Host.Outcome State Fault Refusal := finish (ldbyteStep imm8 s)

/-- R101: a fresh queue; what BQ held is discarded. -/
def expbStep (s : State) : Res Answer :=
  .done (okWith s.byter.toNat) { s with bq := expand s.byter }

/-- EXPB (R101). -/
def execExpb (s : State) : Host.Outcome State Fault Refusal := finish (expbStep s)

/-- R103: a budget above 24 is an illegal operand. -/
def ldremStep (imm8 : Byte) (s : State) : Res Answer :=
  if maxBudget < byteOperand imm8 then .done { code := .illegalOperand, value := byteOperand imm8 } s
  else .done (okWith (byteOperand imm8)) { s with brem := byteOperand imm8 }

/-- LDREM (R103). -/
def execLdrem (imm8 : Byte) (s : State) : Host.Outcome State Fault Refusal := finish (ldremStep imm8 s)

/-- R107: a budget above 3·n, a negative offset, is an illegal operand. -/
def pembStep (s : State) : Res Answer :=
  if slotCount s.mask < s.brem then .done { code := .illegalOperand, value := s.brem } s
  else
    let e := embedPx s.pxr s.bq s.mask s.brem
    .done (okWith e.consumed)
      { s with pxr := e.pixel, bq := e.rest, brem := s.brem - e.consumed, cnt := e.consumed }

/-- PEMB (R107). -/
def execPemb (s : State) : Host.Outcome State Fault Refusal := finish (pembStep s)

end Sys2Proof.Machine
end

