-- ==== Sys2Proof/Machine/Extractor.lean ====
section
/-! DEFINITION. The bit extractor commands PEXT and PACKB (spec/42_bit_extractor.md R122, R123). -/

namespace Sys2Proof.Machine

/-- R122: nothing is extracted when the new bits do not fit AQ. -/
def pextStep (s : State) : Res Answer :=
  if Config.aqCap < s.aq.length + slotCount s.mask then
    .done { code := .queueFull, value := s.aq.length } s
  else
    let q := s.aq ++ extract s.pxr s.mask
    .done (okWith q.length) { s with aq := q }

/-- PEXT (R122). -/
def execPext (s : State) : Host.Outcome State Fault Refusal := finish (pextStep s)

/-- R123: nothing is popped when fewer than 8 bits are queued. -/
def packbStep (s : State) : Res Answer :=
  if s.aq.length < 8 then .done { code := .queueShort, value := s.aq.length } s
  else
    let b := pack (s.aq.take 8)
    .done (okWith b.toNat) { s with byter := b, aq := s.aq.drop 8 }

/-- PACKB (R123). -/
def execPackb (s : State) : Host.Outcome State Fault Refusal := finish (packbStep s)

end Sys2Proof.Machine
end

