-- ==== Sys2Proof/Machine/Framer.lean ====
section
/-! DEFINITION. The payload framer commands FINIT, FNEXT, FPUT (spec/44_payload_framer.md R150, R156, R160). -/

namespace Sys2Proof.Machine

/-- R150: a sink left open is closed, then the framer is in its start state. -/
def finitStep (s : State) : Res Answer :=
  .done (okWith 0)
    { s.releaseSink with
      comp := .fileName, idx := 0, rcnt := 0, sizev := 0
      sinkopen := false, done := false, failed := false, send := false
      namebuf := [], sizebuf := [] }

/-- FINIT (R150). -/
def execFinit (s : State) : Host.Outcome State Fault Refusal := finish (finitStep s)

/-- FNEXT emits a byte: BYTER and the response (R156). -/
def emitByte (b : Byte) (s : State) : Res Answer := .done (okWith b.toNat) { s with byter := b }

/-- FNEXT inside a string component: the next character, or the NUL that ends it and the next component (R156). -/
def emitFrom (text : List Byte) (next : Component) (s : State) : Res Answer :=
  match text[s.idx]? with
  | some b => emitByte b { s with idx := s.idx + 1 }
  | none => emitByte 0x00#8 { s with comp := next, idx := 0 }

/-- The answer END_OF_STREAM with the number of raw bytes emitted (R156, R157). -/
def endOfStreamAnswer (s : State) : Answer := { code := .endOfStream, value := s.rcnt }

/-- R156. -/
def fnextStep (s : State) : Res Answer :=
  if s.send then .done (endOfStreamAnswer s) s
  else
    match s.comp with
    | .fileName => emitFrom s.srcName .fileSize s
    | .fileSize => emitFrom (dec s.srcData.length) .rawData s
    | .rawData =>
      (srcRead s.rcnt s).bind fun a s₁ =>
        match a with
        | .failed => .done (ioFailure .srcRead s₁.rcnt) s₁
        | .streamEnd => .done (endOfStreamAnswer s₁) { s₁ with send := true }
        | .byte b => emitByte b { s₁ with rcnt := s₁.rcnt + 1 }

/-- FNEXT (R156). -/
def execFnext (s : State) : Host.Outcome State Fault Refusal := finish (fnextStep s)

/-- The answer NO_SECRET_FOUND (R160; 60_exceptions.md R214). -/
def noSecretAnswer : Answer := { code := .noSecretFound, value := 0 }

/-- FPUT in FileName: a character, or the NUL that opens the sink (R160). -/
def fputName (s : State) : Res Answer :=
  if s.byter ≠ 0x00#8 then .done (okWith s.byter.toNat) { s with namebuf := s.namebuf ++ [s.byter] }
  else
    (sinkOpen s.namebuf s).bind fun ok s₁ =>
      if ok then .done (okWith 0) { s₁ with sinkopen := true, comp := .fileSize }
      else .done (ioFailure .sink 0) s₁

/-- FPUT in FileSize: a character, or the NUL that ends the size string, which is then parsed; a sink is discarded
when it does not parse (R160, R162; 60_exceptions.md R214). -/
def fputSize (s : State) : Res Answer :=
  if s.byter ≠ 0x00#8 then .done (okWith s.byter.toNat) { s with sizebuf := s.sizebuf ++ [s.byter] }
  else
    match parseSize s.sizebuf with
    | none =>
      if s.sinkopen then .done noSecretAnswer { s.sinkDiscard with sinkopen := false, failed := true }
      else .done noSecretAnswer { s with failed := true }
    | some v => .done (okWith 0) { s with sizev := v, comp := .rawData }

/-- FPUT in RawData: the byte goes to the sink, and the last one closes it (R160). -/
def fputRaw (s : State) : Res Answer :=
  (sinkWrite s.byter s).bind fun ok s₁ =>
    if ok then
      if s₁.rcnt + 1 = s₁.sizev then
        .done { code := .done, value := s₁.rcnt + 1 }
          { s₁.sinkClose with rcnt := s₁.rcnt + 1, sinkopen := false, done := true }
      else .done (okWith s₁.byter.toNat) { s₁ with rcnt := s₁.rcnt + 1 }
    else .done (ioFailure .sink s₁.rcnt) s₁

/-- R160, with R163: after DONE or FAILED nothing changes. -/
def fputStep (s : State) : Res Answer :=
  if s.done then .done { code := .done, value := s.rcnt } s
  else if s.failed then .done noSecretAnswer s
  else
    match s.comp with
    | .fileName => fputName s
    | .fileSize => fputSize s
    | .rawData => fputRaw s

/-- FPUT (R160). -/
def execFput (s : State) : Host.Outcome State Fault Refusal := finish (fputStep s)

end Sys2Proof.Machine
end

