-- ==== Sys2Proof/Machine/Orchestrators.lean ====
section
/-! DEFINITION. The two public operations EMBED and RETRIEVE (spec/46_orchestrators.md R189 to R196), built from the
steps of the primitive commands. The first argument of each loop bounds its iterations (spec/00_scope.md R15); the
bound given is never passed. -/

namespace Sys2Proof.Machine

/-- The step failed with one of the two answers of WADV and RADV that end a loop. -/
def Answer.stops (a : Answer) : Bool := a.code = .exhausted ∨ a.code = .ioFailure

/-- R193: a pixel is requested only when bits are waiting and the budget is 0. -/
def requestPixel (s : State) : Res Answer := if s.brem = 0 then wadvStep s else .done (okWith 0) s

/-- `while |BQ| > 0` of R190: none when the queue has drained, or the answer of the WADV that failed. -/
def drainQueue : Nat → State → Res (Option Answer)
  | 0, _ => .fault .loopBound
  | k + 1, s =>
    if s.bq = [] then .done none s
    else
      (requestPixel s).bind fun a s₁ =>
        if a.stops then .done (some a) s₁
        else (pembStep s₁).bind fun _ s₂ => drainQueue k s₂

/-- `loop` of R190, one iteration per framed byte: none at the end of the stream, or the answer of the step that
failed. Each round of the inner loop takes at least one bit of the queue. -/
def embedLoop : Nat → State → Res (Option Answer)
  | 0, _ => .fault .loopBound
  | k + 1, s =>
    (fnextStep s).bind fun r s₁ =>
      if r.code = .endOfStream then .done none s₁
      else if r.code = .ioFailure then .done (some r) s₁
      else
        (expbStep s₁).bind fun _ s₂ =>
          (drainQueue (s₂.bq.length + 1) s₂).bind fun e s₃ =>
            match e with
            | some a => .done (some a) s₃
            | none => embedLoop k s₃

/-- The end of EMBED after a step that failed (R190, R191, R194): the source is closed; exhaustion in flight is
CAPACITY_EXCEEDED, a port failure is IO_FAILURE with the port of the failing step. -/
def embedFailed (zcap : Bool) (a : Answer) (s : State) : Res Answer :=
  if a.code = .ioFailure then
    .done { code := .ioFailure, value := s.rcnt, port := a.port, zcap := zcap } s.srcClose
  else .done { code := .capacityExceeded, value := s.capr, zcap := zcap } s.srcClose

/-- The final flush and the end of EMBED (R190, R192): the flush's result is ignored unless it is a port failure. -/
def embedFlush (zcap : Bool) (s : State) : Res Answer :=
  (wadvStep s).bind fun a s₁ =>
    if a.code = .ioFailure then embedFailed zcap a s₁
    else .done { code := .ok, value := s₁.flen, zcap := zcap } s₁.srcClose

/-- The start of both operations: fresh cursor, queues and framer (10_state.md R42). -/
def freshOperation (s : State) : Res Answer := (cinitStep s).bind fun _ s₁ => finitStep s₁

/-- The pre-check's registers (R189): CAPR and FLEN. -/
def loadEmbedSizes (s : State) : State :=
  { s with capr := imageCapacity s, flen := framedLength s.srcName s.srcData }

/-- R190. -/
def embedStep (s : State) : Res Answer :=
  (freshOperation s).bind fun _ s₁ =>
    let zcap := decide (popcount s₁.mask = 0)
    let s₂ := loadEmbedSizes s₁
    if s₂.capr < s₂.flen then
      .done { code := .capacityExceeded, value := s₂.capr, zcap := zcap } s₂.srcClose
    else
      (embedLoop (s₂.flen + 1) s₂).bind fun e s₃ =>
        match e with
        | some a => embedFailed zcap a s₃
        | none => embedFlush zcap s₃

/-- EMBED (R190). -/
def execEmbed (s : State) : Host.Outcome State Fault Refusal := finish (embedStep s)

/-- `while |AQ| >= 8` of R195: none when fewer than 8 bits are left, or the answer of FPUT that ends the retrieval. -/
def feedBytes : Nat → State → Res (Option Answer)
  | 0, _ => .fault .loopBound
  | k + 1, s =>
    if s.aq.length < 8 then .done none s
    else
      (packbStep s).bind fun _ s₁ =>
        (fputStep s₁).bind fun r s₂ =>
          if r.code = .ok then feedBytes k s₂ else .done (some r) s₂

/-- `loop` of R195, one iteration per pixel: the answer of the step that ends it, EXHAUSTED and IO_FAILURE of RADV or
DONE, NO_SECRET_FOUND and IO_FAILURE of FPUT. -/
def retrieveLoop : Nat → State → Res Answer
  | 0, _ => .fault .loopBound
  | k + 1, s =>
    (radvStep s).bind fun a s₁ =>
      if a.stops then .done a s₁
      else
        (pextStep s₁).bind fun _ s₂ =>
          (feedBytes (s₂.aq.length / 8 + 1) s₂).bind fun e s₃ =>
            match e with
            | some r => .done r s₃
            | none => retrieveLoop k s₃

/-- The end of RETRIEVE (R195, R196; 60_exceptions.md R214 to R216): on truncation and on a port failure an open sink
is closed, not discarded. -/
def retrieveEnd (a : Answer) (s : State) : Res Answer :=
  match a.code with
  | .done => .done (okWith s.rcnt) s
  | .noSecretFound => .done noSecretAnswer s
  | .ioFailure => .done { code := .ioFailure, value := s.rcnt, port := a.port } s.releaseSink
  | .ok | .capacityExceeded | .truncatedSecret | .exhausted | .endOfStream | .queueShort | .queueFull
  | .illegalCommand | .illegalOperand =>
    .done { code := .truncatedSecret, value := s.rcnt } s.releaseSink

/-- R195. -/
def retrieveStep (s : State) : Res Answer :=
  (freshOperation s).bind fun _ s₁ =>
    (retrieveLoop (s₁.imgw * s₁.imgh + 1) s₁).bind fun a s₂ => retrieveEnd a s₂

/-- RETRIEVE (R195). -/
def execRetrieve (s : State) : Host.Outcome State Fault Refusal := finish (retrieveStep s)

end Sys2Proof.Machine
end

