-- ==== Sys2Proof/Machine/System.lean ====
section
/-! DEFINITION. The system commands SETMASK, RDREG, SRST (spec/47_system.md R201 to R203). -/

namespace Sys2Proof.Machine

/-- R201: the response's value is the new number of enabled bits. -/
def setmaskStep (imm8 : Byte) (s : State) : Res Answer :=
  .done (okWith (popcount imm8)) { s with mask := imm8 }

/-- SETMASK (R201). -/
def execSetmask (imm8 : Byte) (s : State) : Host.Outcome State Fault Refusal := finish (setmaskStep imm8 s)

/-- RDREG (R202): the one command that does not write STATUS on its OK path; a number above 22 is an illegal operand
and does. -/
def execRdreg (imm8 : Byte) (s : State) : Host.Outcome State Fault Refusal :=
  match readRegister s (byteOperand imm8) with
  | some v => .next (s.respondQuietly v)
  | none => finish (.done { code := .illegalOperand, value := byteOperand imm8 } s)

/-- R203: a sink left open is closed, then every register is at its reset value. -/
def srstStep (s : State) : Res Answer := .done (okWith 0) s.releaseSink.resetRegisters

/-- SRST (R203). -/
def execSrst (s : State) : Host.Outcome State Fault Refusal := finish (srstStep s)

end Sys2Proof.Machine
end

