-- ==== Sys2Proof/Machine/Dispatch.lean ====
section
/-! DEFINITION. exec: one arm per command of spec/30_encoding.md R74. -/

namespace Sys2Proof.Machine

def exec (i : Instr) (s : State) : Host.Outcome State Fault Refusal :=
  match i with
  | .setmask imm8 => Sys2Proof.Machine.execSetmask imm8 s
  | .rdreg imm8 => Sys2Proof.Machine.execRdreg imm8 s
  | .srst => Sys2Proof.Machine.execSrst s
  | .ldpx imm24 => Sys2Proof.Machine.execLdpx imm24 s
  | .ldch imm24 => Sys2Proof.Machine.execLdch imm24 s
  | .cdec => Sys2Proof.Machine.execCdec s
  | .cenc => Sys2Proof.Machine.execCenc s
  | .ldbyte imm8 => Sys2Proof.Machine.execLdbyte imm8 s
  | .expb => Sys2Proof.Machine.execExpb s
  | .ldrem imm8 => Sys2Proof.Machine.execLdrem imm8 s
  | .pemb => Sys2Proof.Machine.execPemb s
  | .pext => Sys2Proof.Machine.execPext s
  | .packb => Sys2Proof.Machine.execPackb s
  | .cinit => Sys2Proof.Machine.execCinit s
  | .wadv => Sys2Proof.Machine.execWadv s
  | .radv => Sys2Proof.Machine.execRadv s
  | .finit => Sys2Proof.Machine.execFinit s
  | .fnext => Sys2Proof.Machine.execFnext s
  | .fput => Sys2Proof.Machine.execFput s
  | .cap => Sys2Proof.Machine.execCap s
  | .embed => Sys2Proof.Machine.execEmbed s
  | .retrieve => Sys2Proof.Machine.execRetrieve s

end Sys2Proof.Machine
end

