-- ==== Sys2Proof/Machine/HostSide.lean ====
section
/-! DEFINITION. The host's side of the block: taking the next move of the host (spec/00_scope.md R14), and the moves
that are no command: the reset input (spec/70_reset_and_hazards.md R240), attaching an image or a source and writing a
pixel between commands (R243, R247), and what the ports will answer (spec/20_memory.md R59). -/

namespace Sys2Proof.Machine

/-- What the host's next move comes to. -/
inductive Taken where
  /-- A command is delivered: it runs from this state. -/
  | command (i : Instr) (s : State)
  /-- The move is settled without a command. -/
  | settled (o : Host.Outcome State Fault Refusal)

/-- A command word: the command it stands for, or the response of an illegal word (30_encoding.md R75). -/
def takeWord (w : Word) (s : State) : Taken :=
  match decode w with
  | .ok i => .command i s
  | .error _ => .settled (.next (illegalCommand w s))

/-- The image is one of this parameter set (00_scope.md R6; 93_implementation_defined.md U16). -/
def imageFits (w h : Nat) (pixels : List Pixel) : Bool :=
  decide (w < 2 ^ Config.coordW) && decide (h < 2 ^ Config.coordW) && decide (pixels.length = w * h)

/-- The source is one of this parameter set (20_memory.md R55; 93_implementation_defined.md U16). -/
def sourceFits (name data : List Byte) : Bool :=
  decide (name.length < 2 ^ Config.sizeW) && decide (data.length < 2 ^ Config.sizeW)

/-- Attach an image (70_reset_and_hazards.md R243): IMGW and IMGH mirror it (10_state.md R23). -/
def attachImage (w h : Nat) (pixels : List Pixel) (s : State) : Host.Outcome State Fault Refusal :=
  if imageFits w h pixels then
    .next { s with imgw := w, imgh := h, image := Memory.layPixels [] 0 pixels }
  else .refused .imageOutsideParameters

/-- Attach a source (70_reset_and_hazards.md R243). -/
def attachSource (name data : List Byte) (s : State) : Host.Outcome State Fault Refusal :=
  if sourceFits name data then .next { s with srcName := name, srcData := data }
  else .refused .sourceOutsideParameters

/-- The host writes a pixel between commands (70_reset_and_hazards.md R247). -/
def hostWritePixel (x y : Nat) (p : Pixel) (s : State) : Host.Outcome State Fault Refusal :=
  if s.inImage x y then .next (s.setPixel x y p) else .fault .imageAddress

/-- One move of the host, already taken out of the inbox. -/
def hostMove (m : HostMove) (s : State) : Taken :=
  match m with
  | .command w => takeWord w s
  | .resetInput => .settled (.next s.hardReset)
  | .attachImage w h pixels => .settled (attachImage w h pixels s)
  | .writePixel x y p => .settled (hostWritePixel x y p s)
  | .attachSource name data => .settled (attachSource name data s)
  | .settleAnswers answers => .settled (.next { s with answers := s.answers ++ answers })

/-- The host's next move. With none waiting the block is idle and keeps all state (60_exceptions.md R231). While an
access is unanswered the block takes nothing but the reset input (70_reset_and_hazards.md R255; log entry 8). -/
def takeMove (s : State) : Taken :=
  match s.inbox with
  | [] => .settled (.next s)
  | m :: rest =>
    if s.hung = true ∧ m ≠ .resetInput then .settled (.next s)
    else hostMove m { s with inbox := rest }

/-- The state in which a command word is the host's very next move (log entry 6). -/
def State.putCommand (s : State) (w : Word) : State :=
  { s with inbox := .command w :: s.inbox, hung := false }

end Sys2Proof.Machine
end

