-- ==== Sys2Proof/Machine/Step.lean ====
section
/-! DEFINITION. One step: the host's next move (spec/00_scope.md R14). The block fetches nothing from a memory
(spec/10_state.md R21): a command is delivered by the host. -/

namespace Sys2Proof.Machine

/-- One step of the machine. -/
def step (s : State) : Host.Outcome State Fault Refusal :=
  match takeMove s with
  | .command i s₁ => exec i s₁
  | .settled o => o

/-- The state whose very next step takes the word from the command port (log entry 6). -/
def State.withFetchWord (s : State) (nbits w : Nat) : State := s.putCommand (tableWord nbits w)

end Sys2Proof.Machine
end

