-- ==== Sys2Proof/Safety.lean ====
section
/-! DEFINITION. What counts as a legal state of the block and a dutiful host, in the terms the statements use: the
invariants of spec/10_state.md R43, the widths of spec/00_scope.md R6, and the duties of
spec/70_reset_and_hazards.md R247. -/

namespace Sys2Proof.Machine

/-- R43 (a): the bounds of the bit path. -/
def State.bitPathBounded (s : State) : Prop :=
  s.bq.length ≤ 8 ∧ s.aq.length ≤ 31 ∧ s.brem ≤ 24 ∧ s.cnt ≤ 8

/-- R43 (b): while a traversal is under way the cursor names a pixel of the image. -/
def State.cursorInside (s : State) : Prop :=
  s.issued = true → s.exh = false → s.curx < s.imgw ∧ s.cury < s.imgh

/-- R43 (c): before the first pixel the cursor stands at (0, 0). -/
def State.cursorAtStart (s : State) : Prop := s.issued = false → s.curx = 0 ∧ s.cury = 0

/-- R43 (e): the framer's flags exclude each other. -/
def State.framerFlagsApart (s : State) : Prop :=
  ¬(s.done = true ∧ s.failed = true) ∧ (s.sinkopen = true → s.done = false ∧ s.failed = false)

/-- The invariants of R43 that every step keeps, whatever the host does. -/
def State.registersLegal (s : State) : Prop :=
  s.bitPathBounded ∧ s.cursorAtStart ∧ s.framerFlagsApart

/-- The image is in canonical form and lists no byte outside the attached image (20_memory.md R50). -/
def State.imageLegal (s : State) : Prop :=
  s.image.wf = true ∧ ∀ c ∈ s.image, c.1 < 3 * (s.imgw * s.imgh)

/-- Every register whose bound R6 and R171 state fits its width: IMGW, IMGH, CURX, CURY in COORD_W bits, IDX, SIZEV and
the source's two lengths in SIZE_W bits, CAPR and FLEN in the derived widths. RCNT and the two buffers, which no rule
keeps below 2^SIZE_W, are not among them (log entry 10). -/
def State.widthsHold (s : State) : Prop :=
  (s.imgw < 2 ^ Config.coordW ∧ s.imgh < 2 ^ Config.coordW) ∧
  (s.curx < 2 ^ Config.coordW ∧ s.cury < 2 ^ Config.coordW) ∧
  (s.idx < 2 ^ Config.sizeW ∧ s.sizev < 2 ^ Config.sizeW) ∧
  (s.srcName.length < 2 ^ Config.sizeW ∧ s.srcData.length < 2 ^ Config.sizeW) ∧
  (s.capr < 2 ^ Config.capW ∧ s.flen < 2 ^ Config.flenW)

/-- The host's next move does not replace the image while a traversal is under way (70_reset_and_hazards.md R247). -/
def State.hostKeepsImage (s : State) : Prop :=
  ∀ w h pixels, s.inbox.head? = some (.attachImage w h pixels) → s.issued = false ∨ s.exh = true

/-- No port will answer fail or stay silent: the failure-free model (20_memory.md R59). -/
def State.portsAnswerOk (s : State) : Prop := ∀ a ∈ s.answers, a = .ok

/-- The next fallible access succeeds (20_memory.md R59). -/
def State.nextAccessOk (s : State) : Prop := s.answers.headD .ok = .ok

/-- The next two fallible accesses succeed (20_memory.md R59). -/
def State.nextTwoAccessesOk (s : State) : Prop := s.nextAccessOk ∧ s.answers.tail.headD .ok = .ok

/-- The use is an access that was never answered (70_reset_and_hazards.md R255). -/
def PortUse.unanswered : PortUse → Bool
  | .imgGet _ _ .never | .imgSet _ _ _ .never | .srcRead _ .never | .sinkOpen _ .never | .sinkWrite _ .never => true
  | .imgGet _ _ _ | .imgSet _ _ _ _ | .srcRead _ _ | .sinkOpen _ _ | .sinkWrite _ _
  | .sinkClose | .sinkDiscard | .srcClose => false

/-- The port of an access that answered fail, as STATUS.PORT names it (60_exceptions.md R212, R216). -/
def PortUse.failedPort : PortUse → Option Port
  | .imgGet _ _ .fail => some .imgGet
  | .imgSet _ _ _ .fail => some .imgSet
  | .srcRead _ .fail => some .srcRead
  | .sinkOpen _ .fail | .sinkWrite _ .fail => some .sink
  | .imgGet _ _ _ | .imgSet _ _ _ _ | .srcRead _ _ | .sinkOpen _ _ | .sinkWrite _ _
  | .sinkClose | .sinkDiscard | .srcClose => none

/-- A list of commands run one after another, stopping at the first that gives no next state (00_scope.md R14). -/
def runCommands : List Instr → State → Host.Outcome State Fault Refusal
  | [], s => .next s
  | i :: rest, s =>
    match exec i s with
    | .next t => runCommands rest t
    | .fault f => .fault f
    | .refused r => .refused r

/-- The trace of a state after `FINIT` or an operation's start: a sink left open has been closed
(44_payload_framer.md R150). -/
def State.traceReleased (s : State) : List Event := s.trace ++ (if s.sinkopen then [.sinkClose] else [])

/-- The bits a retrieval reads from the image: the extraction of every pixel in row-major order (42_bit_extractor.md
R121, 20_memory.md R63). -/
def State.storedBits (s : State) : List Bool :=
  (List.range (s.imgw * s.imgh)).flatMap (fun j => extract (s.pixelAt (j % s.imgw) (j / s.imgw)) s.mask)

/-- The payload bits of a byte string: each byte expanded, most significant bit first (20_memory.md R61). -/
def payloadBits (bytes : List Byte) : List Bool := bytes.flatMap expand

end Sys2Proof.Machine
end

