-- ==== Sys2Proof/Certificates/Slice0/Obligations.lean ====
section
/-! DEFINITION. The statements for the provers. Each docstring names the rules of spec/ it formalises. A result stated
as one equation for the next state is also the instruction's frame: every field the equation does not name is as
before, the image among them. -/

open Sys2Proof Sys2Proof.Machine

/-! ### Encoding and delivery -/

/-- R70 to R72, R74, R75: decoding inverts encoding for every command and operand, and encoding inverts decoding for
every legal word. -/
def Obligations.DecodeInvertsEncode : Prop :=
  (∀ i : Instr, decode (encode i) = .ok i) ∧ ∀ (w : Word) (i : Instr), decode w = .ok i → encode i = w

/-- R75: every word either matches exactly one row of R74, and decodes, or matches none, and is illegal. -/
def Obligations.DecodeAcceptsExactlyTheRows : Prop :=
  ∀ w : Word,
    ((∃ i, decode w = .ok i) ∧ (opcodeRows.filter (matchesRow w)).length = 1) ∨
    ((∃ r, decode w = .error r) ∧ opcodeRows.filter (matchesRow w) = [])

/-- R74, R79: words of every family, written out, decode to the commands they stand for, and illegal words do not. -/
def Obligations.SampleWordsDecode : Prop :=
  decode 0x01000081#32 = .ok (.setmask 0x81#8) ∧ decode 0x0200000B#32 = .ok (.rdreg 11#8) ∧
  decode 0x10112233#32 = .ok (.ldpx 0x112233#24) ∧ decode 0x2000005A#32 = .ok (.ldbyte 0x5A#8) ∧
  decode 0x23000000#32 = .ok .pemb ∧ decode 0x29000000#32 = .ok .packb ∧ decode 0x31000000#32 = .ok .wadv ∧
  decode 0x42000000#32 = .ok .fput ∧ decode 0x50000000#32 = .ok .cap ∧ decode 0x61000000#32 = .ok .retrieve ∧
  decode 0x00000000#32 = .error .unknownOpcode ∧ decode 0xFFFFFFFF#32 = .error .unknownOpcode ∧
  decode 0x30000001#32 = .error .operandBitsNotZero ∧ decode 0x01000100#32 = .error .operandBitsNotZero

/-- R14: when the host's next move is a word that decodes, the step is exec of that command, with the word taken out
of the inbox; in particular for a word put there by withFetchWord. -/
def Obligations.StepRunsTheDecodedCommand : Prop :=
  (∀ (s : State) (w : Word) (rest : List HostMove) (i : Instr),
    s.inbox = .command w :: rest → s.hung = false → decode w = .ok i → step s = exec i { s with inbox := rest }) ∧
  (∀ (s : State) (w : Word) (i : Instr),
    decode w = .ok i → step (s.withFetchWord 32 w.toNat) = exec i { s with hung := false })

/-- R75, R217: a word that matches no row changes STATUS, answers (ILLEGAL_COMMAND, its low 24 bits) and has no other
effect. -/
def Obligations.IllegalWordOnlyAnswers : Prop :=
  ∀ (s : State) (w : Word) (rest : List HostMove),
    s.inbox = .command w :: rest → s.hung = false → (∀ row ∈ opcodeRows, matchesRow w row = false) →
    step s = .next
      { s with
        inbox := rest, status := 0x020#11
        responses := s.responses ++ [⟨.illegalCommand, w.toNat % 2 ^ 24⟩] }

/-! ### Reset, idling and hanging -/

/-- R240: the registers after reset, and the reset input of a running machine: every register at its reset value, with
the image, the source, the ports and the record of the run as they were (R241). -/
def Obligations.ResetRestoresEveryRegister : Prop :=
  (State.reset.mask = 0x00#8 ∧ State.reset.curx = 0 ∧ State.reset.cury = 0 ∧ State.reset.issued = false ∧
    State.reset.exh = false ∧ State.reset.pxr = 0x000000#24 ∧ State.reset.chr = 0x000000#24 ∧
    State.reset.byter = 0x00#8 ∧ State.reset.bq = [] ∧ State.reset.aq = [] ∧ State.reset.brem = 0 ∧
    State.reset.cnt = 0 ∧ State.reset.comp = .fileName ∧ State.reset.idx = 0 ∧ State.reset.rcnt = 0 ∧
    State.reset.sizev = 0 ∧ State.reset.sinkopen = false ∧ State.reset.done = false ∧
    State.reset.failed = false ∧ State.reset.send = false ∧ State.reset.namebuf = [] ∧
    State.reset.sizebuf = [] ∧ State.reset.capr = 0 ∧ State.reset.flen = 0 ∧ State.reset.status = 0#11) ∧
  ∀ (s : State) (rest : List HostMove), s.inbox = .resetInput :: rest →
    step s = .next
      { State.reset with
        imgw := s.imgw, imgh := s.imgh, image := s.image, srcName := s.srcName, srcData := s.srcData
        answers := s.answers, ports := s.ports, responses := s.responses, inbox := rest }

/-- R231, R255, with the model's reading of a block that hangs (log entry 8): without a move of the host the block
keeps all state; a hung block is left as it is by every move but the reset input; an access of FNEXT, FPUT, WADV or
RADV that is never answered leaves the command where it was, with no response; and every command, EMBED and RETRIEVE
among them, hangs exactly when one of its accesses is not answered, and then returns no response and leaves STATUS. -/
def Obligations.UnansweredAccessHangs : Prop :=
  (∀ s : State, s.inbox = [] → step s = .next s) ∧
  (∀ (s : State) (m : HostMove) (rest : List HostMove),
    s.hung = true → s.inbox = m :: rest → m ≠ .resetInput → step s = .next s) ∧
  (∀ (s : State) (rest : List PortAnswer), s.answers = .never :: rest →
    (s.send = false → s.comp = .rawData →
      exec .fnext s = .next
        { s with answers := rest, ports := s.ports ++ [.srcRead s.rcnt .never], hung := true }) ∧
    (s.done = false → s.failed = false → s.comp = .fileName → s.byter = 0x00#8 →
      exec .fput s = .next
        { s with answers := rest, ports := s.ports ++ [.sinkOpen s.namebuf .never], hung := true }) ∧
    (s.done = false → s.failed = false → s.comp = .rawData →
      exec .fput s = .next
        { s with answers := rest, ports := s.ports ++ [.sinkWrite s.byter .never], hung := true }) ∧
    (s.exh = false → s.issued = false → 0 < s.imgw → 0 < s.imgh → ∀ i ∈ [Instr.wadv, .radv],
      exec i s = .next
        { s with answers := rest, ports := s.ports ++ [.imgGet 0 0 .never], hung := true }) ∧
    (s.exh = false → s.issued = true → s.curx < s.imgw → s.cury < s.imgh →
      exec .wadv s = .next
        { s with answers := rest, ports := s.ports ++ [.imgSet s.curx s.cury s.pxr .never], hung := true }) ∧
    (∀ nx ny, s.exh = false → s.issued = true → s.curx < s.imgw → s.cury < s.imgh →
      (nx, ny) = (if s.curx + 1 = s.imgw then (0, s.cury + 1) else (s.curx + 1, s.cury)) → ny < s.imgh →
      exec .radv s = .next
        { s with answers := rest, ports := s.ports ++ [.imgGet nx ny .never], hung := true })) ∧
  (∀ (s : State) (rest : List PortAnswer) (nx ny : Nat), s.answers = .ok :: .never :: rest →
    s.exh = false → s.issued = true → s.curx < s.imgw → s.cury < s.imgh →
    (nx, ny) = (if s.curx + 1 = s.imgw then (0, s.cury + 1) else (s.curx + 1, s.cury)) → ny < s.imgh →
    exec .wadv s = .next
      { s with
        image := (s.setPixel s.curx s.cury s.pxr).image
        answers := rest
        ports := s.ports ++ [.imgSet s.curx s.cury s.pxr .ok, .imgGet nx ny .never]
        hung := true }) ∧
  (∀ (i : Instr) (s t : State), exec i s = .next t → s.hung = false →
    (t.hung = true ↔ ∃ u ∈ t.ports.drop s.ports.length, u.unanswered = true) ∧
    (t.hung = true → t.status = s.status ∧ t.responses = s.responses))

/-- R23, R50, R243, with the model's attaching move (log entries 1 and 7): attaching an image of w by h pixels makes
IMGW and IMGH show its dimensions and every pixel read as attached, in row-major order. -/
def Obligations.AttachedImageIsRead : Prop :=
  ∀ (s : State) (w h : Nat) (pixels : List Pixel) (rest : List HostMove),
    s.inbox = .attachImage w h pixels :: rest → s.hung = false →
    w < 2 ^ 16 → h < 2 ^ 16 → pixels.length = w * h →
    ∃ m : Memory, step s = .next { s with inbox := rest, imgw := w, imgh := h, image := m } ∧
      ∀ x y p, x < w → y < h → pixels[y * w + x]? = some p →
        ({ s with inbox := rest, imgw := w, imgh := h, image := m } : State).pixelAt x y = p

/-! ### System commands -/

/-- R201: SETMASK. -/
def Obligations.SetmaskLoadsTheMask : Prop :=
  ∀ (imm8 : Byte) (s : State),
    decode (0x01#8 ++ (0#16 ++ imm8)) = .ok (.setmask imm8) ∧
    exec (.setmask imm8) s = .next
      { s with
        mask := imm8, status := 0#11
        responses := s.responses ++ [⟨.ok, ((List.range 8).filter (fun i => imm8.getLsbD i)).length⟩] }

/-- R202, R41, R30: RDREG of every register number, and of a number that is no register. -/
def Obligations.RdregReadsEveryRegister : Prop :=
  ∀ (imm8 : Byte) (s : State),
    decode (0x02#8 ++ (0#16 ++ imm8)) = .ok (.rdreg imm8) ∧
    (∀ v, [s.mask.toNat, s.imgw, s.imgh, s.curx, s.cury, 2 * s.exh.toNat + s.issued.toNat, s.pxr.toNat,
        s.chr.toNat, s.byter.toNat, s.bq.length * 2 ^ 8 + num s.bq, s.aq.length * 2 ^ 31 + num s.aq, s.brem,
        s.cnt, (match s.comp with | .fileName => 0 | .fileSize => 1 | .rawData => 2), s.idx, s.rcnt, s.sizev,
        8 * s.send.toNat + 4 * s.failed.toNat + 2 * s.done.toNat + s.sinkopen.toNat, s.namebuf.length,
        s.sizebuf.length, s.capr, s.flen, s.status.toNat][imm8.toNat]? = some v →
      exec (.rdreg imm8) s = .next { s with responses := s.responses ++ [⟨.ok, v⟩] }) ∧
    (22 < imm8.toNat →
      exec (.rdreg imm8) s = .next
        { s with status := 0x021#11, responses := s.responses ++ [⟨.illegalOperand, imm8.toNat⟩] })

/-- R203: SRST. -/
def Obligations.SrstRestoresEveryRegister : Prop :=
  ∀ s : State,
    decode 0x03000000#32 = .ok .srst ∧
    exec .srst s = .next
      { State.reset with
        imgw := s.imgw, imgh := s.imgh, image := s.image, srcName := s.srcName, srcData := s.srcData
        answers := s.answers, inbox := s.inbox, hung := s.hung
        ports := s.ports ++ (if s.sinkopen then [.sinkClose] else [])
        responses := s.responses ++ [⟨.ok, 0⟩] }

/-! ### Channel codec -/

/-- R93, R94, R102: LDPX, LDCH, LDBYTE. -/
def Obligations.LoadsReplaceOneRegister : Prop :=
  (∀ (imm24 : Pixel) (s : State),
    decode (0x10#8 ++ imm24) = .ok (.ldpx imm24) ∧
    exec (.ldpx imm24) s = .next
      { s with pxr := imm24, status := 0#11, responses := s.responses ++ [⟨.ok, imm24.toNat⟩] }) ∧
  (∀ (imm24 : Pixel) (s : State),
    decode (0x11#8 ++ imm24) = .ok (.ldch imm24) ∧
    exec (.ldch imm24) s = .next
      { s with chr := imm24, status := 0#11, responses := s.responses ++ [⟨.ok, imm24.toNat⟩] }) ∧
  (∀ (imm8 : Byte) (s : State),
    decode (0x20#8 ++ (0#16 ++ imm8)) = .ok (.ldbyte imm8) ∧
    exec (.ldbyte imm8) s = .next
      { s with byter := imm8, status := 0#11, responses := s.responses ++ [⟨.ok, imm8.toNat⟩] })

/-- R95, R96: CDEC and CENC. With the packings of R51 and R28 the decoded vectors are the pixel's own 24 bits, and the
encoded pixel the vectors'. -/
def Obligations.CodecCommandsCopy : Prop :=
  (∀ s : State,
    decode 0x12000000#32 = .ok .cdec ∧
    exec .cdec s = .next
      { s with chr := s.pxr, status := 0#11, responses := s.responses ++ [⟨.ok, s.pxr.toNat⟩] }) ∧
  (∀ s : State,
    decode 0x13000000#32 = .ok .cenc ∧
    exec .cenc s = .next
      { s with pxr := s.chr, status := 0#11, responses := s.responses ++ [⟨.ok, s.chr.toNat⟩] })

/-! ### Slots and the bit embedder -/

/-- R60: `slots` has 3n elements; slot k is channel k / n, Red, Green, Blue, and the (k mod n)-th enabled index from 7
down. -/
def Obligations.SlotScanOrder : Prop :=
  ∀ mask : Byte,
    (slots mask).length = 3 * popcount mask ∧
    ∀ k, k < 3 * popcount mask →
      ∃ ch i, [Channel.red, .green, .blue][k / popcount mask]? = some ch ∧
        ([7, 6, 5, 4, 3, 2, 1, 0].filter (fun i => mask.getLsbD i))[k % popcount mask]? = some i ∧
        (slots mask)[k]? = some (ch, i)

/-- R101: EXPB. -/
def Obligations.ExpbMakesAFreshQueue : Prop :=
  ∀ s : State,
    decode 0x21000000#32 = .ok .expb ∧
    exec .expb s = .next
      { s with
        bq := [s.byter.getLsbD 7, s.byter.getLsbD 6, s.byter.getLsbD 5, s.byter.getLsbD 4,
               s.byter.getLsbD 3, s.byter.getLsbD 2, s.byter.getLsbD 1, s.byter.getLsbD 0]
        status := 0#11, responses := s.responses ++ [⟨.ok, s.byter.toNat⟩] }

/-- R103: LDREM, in its legal range 0 to 24 and above it. -/
def Obligations.LdremLoadsTheBudget : Prop :=
  ∀ (imm8 : Byte) (s : State),
    decode (0x22#8 ++ (0#16 ++ imm8)) = .ok (.ldrem imm8) ∧
    (imm8.toNat ≤ 24 →
      exec (.ldrem imm8) s = .next
        { s with brem := imm8.toNat, status := 0#11, responses := s.responses ++ [⟨.ok, imm8.toNat⟩] }) ∧
    (24 < imm8.toNat →
      exec (.ldrem imm8) s = .next
        { s with status := 0x021#11, responses := s.responses ++ [⟨.illegalOperand, imm8.toNat⟩] })

/-- R106, R107: PEMB with a budget of at most 3n fills the next c = min(|BQ|, BREM) slots from slot 3n - BREM on with
the NOT of the queue's bits, leaves every other bit of the pixel, and moves the queue and the budget by c; a budget
above 3n is an illegal operand. -/
def Obligations.PembFillsTheNextSlots : Prop :=
  ∀ s : State,
    decode 0x23000000#32 = .ok .pemb ∧
    (s.brem ≤ 3 * popcount s.mask →
      ∃ p' : Pixel,
        exec .pemb s = .next
          { s with
            pxr := p'
            bq := s.bq.drop (min s.bq.length s.brem)
            brem := s.brem - min s.bq.length s.brem
            cnt := min s.bq.length s.brem
            status := 0#11
            responses := s.responses ++ [⟨.ok, min s.bq.length s.brem⟩] } ∧
        (∀ k sl, (slots s.mask)[k]? = some sl →
          slotBit p' sl =
            if k < 3 * popcount s.mask - s.brem then slotBit s.pxr sl
            else if k < 3 * popcount s.mask - s.brem + min s.bq.length s.brem then
              !(s.bq.getD (k - (3 * popcount s.mask - s.brem)) false)
            else slotBit s.pxr sl) ∧
        (∀ ch i, s.mask.getLsbD i = false → slotBit p' (ch, i) = slotBit s.pxr (ch, i))) ∧
    (3 * popcount s.mask < s.brem →
      exec .pemb s = .next
        { s with status := 0x021#11, responses := s.responses ++ [⟨.illegalOperand, s.brem⟩] })

/-- The laws R108, R109, which the spec infers from R106 and R121: embedded bits are extracted again, every other
extracted bit is as before, and embedding the extracted bits back into the same slots leaves the pixel unchanged. -/
def Obligations.BitInverseLaw : Prop :=
  ∀ (p : Pixel) (q : List Bool) (mask : Byte) (r : Nat), r ≤ 3 * popcount mask →
    (∀ j, j < min q.length r →
      (extract (embedPx p q mask r).pixel mask)[3 * popcount mask - r + j]? = q[j]?) ∧
    (∀ k, k < 3 * popcount mask - r ∨ 3 * popcount mask - r + min q.length r ≤ k →
      (extract (embedPx p q mask r).pixel mask)[k]? = (extract p mask)[k]?) ∧
    (embedPx p ((extract p mask).drop (3 * popcount mask - r)) mask r).pixel = p

/-- The law R110, which the spec infers from R106: embedding a queue in two calls gives the same pixel and the same
number of bits as in one. -/
def Obligations.ResumptionLaw : Prop :=
  ∀ (p : Pixel) (q1 q2 : List Bool) (mask : Byte) (r : Nat),
    q1.length ≤ r → r ≤ 3 * popcount mask →
    (embedPx (embedPx p q1 mask r).pixel q2 mask (r - q1.length)).pixel = (embedPx p (q1 ++ q2) mask r).pixel ∧
    (embedPx p q1 mask r).consumed + (embedPx (embedPx p q1 mask r).pixel q2 mask (r - q1.length)).consumed =
      (embedPx p (q1 ++ q2) mask r).consumed

/-! ### Bit extractor -/

/-- R121, R122: PEXT appends the NOT of every enabled slot in slot order when the bits fit in 31, and answers
QUEUE_FULL when they do not. -/
def Obligations.PextAppendsTheSlots : Prop :=
  ∀ s : State,
    decode 0x28000000#32 = .ok .pext ∧
    (s.aq.length + 3 * popcount s.mask ≤ 31 →
      exec .pext s = .next
        { s with
          aq := s.aq ++ (slots s.mask).map (fun sl => !slotBit s.pxr sl)
          status := 0#11
          responses := s.responses ++ [⟨.ok, s.aq.length + 3 * popcount s.mask⟩] }) ∧
    (31 < s.aq.length + 3 * popcount s.mask →
      exec .pext s = .next
        { s with status := 0x013#11, responses := s.responses ++ [⟨.queueFull, s.aq.length⟩] })

/-- R123: PACKB forms a byte from the first eight bits of AQ, the first popped as bit 7, or answers QUEUE_SHORT. -/
def Obligations.PackbFormsAByte : Prop :=
  ∀ s : State,
    decode 0x29000000#32 = .ok .packb ∧
    (8 ≤ s.aq.length →
      ∃ b : Byte, (∀ i, i < 8 → s.aq[i]? = some (b.getLsbD (7 - i))) ∧
        exec .packb s = .next
          { s with
            byter := b, aq := s.aq.drop 8, status := 0#11
            responses := s.responses ++ [⟨.ok, b.toNat⟩] }) ∧
    (s.aq.length < 8 →
      exec .packb s = .next
        { s with status := 0x012#11, responses := s.responses ++ [⟨.queueShort, s.aq.length⟩] })

/-- The spec's own inferences in R62 and R92: pack inverts expand on every byte and expand inverts pack on every queue
of 8 bits; channel encode and channel decode invert each other. -/
def Obligations.PackAndCodecAreInverses : Prop :=
  (∀ b : Byte, pack (expand b) = b) ∧ (∀ q : List Bool, q.length = 8 → expand (pack q) = q) ∧
  (∀ p : Pixel, encodePixel (decodePixel p) = p) ∧ ∀ c : Channels, decodePixel (encodePixel c) = c

/-! ### The image and the cursor -/

/-- R50, R52, R53, R67, over the model's byte layout and canonical form (log entry 1, its choice): a pixel of a
canonical image reads as last written, every other pixel as before, and every byte outside the three the layout gives
the written pixel as before. -/
def Obligations.PixelReadsAsLastWritten : Prop :=
  (∀ (s : State) (x y x' y' : Nat) (p : Pixel), s.image.wf = true → x < s.imgw → x' < s.imgw →
    (s.setPixel x y p).pixelAt x' y' = if x' = x ∧ y' = y then p else s.pixelAt x' y') ∧
  (∀ (s : State) (x y a : Nat) (p : Pixel), s.image.wf = true →
    (a < 3 * (y * s.imgw + x) ∨ 3 * (y * s.imgw + x) + 3 ≤ a) →
    (s.setPixel x y p).image.read a = s.image.read a)

/-- R131: CINIT. -/
def Obligations.CinitCreatesTheCursor : Prop :=
  ∀ s : State,
    decode 0x30000000#32 = .ok .cinit ∧
    exec .cinit s = .next
      { s with
        curx := 0, cury := 0, issued := false, exh := false, brem := 0, cnt := 0, bq := [], aq := []
        status := 0#11, responses := s.responses ++ [⟨.ok, 0⟩] }

/-- R133, R134, R135, R31: the first advance of either cursor yields the pixel at (0, 0) and commits nothing; WADV
loads the budget and RADV leaves it. On an empty image it reports exhaustion without an access; WADV then clears the
budget, as R31 says and the pseudocode of R134 does not show (log entry 18), and RADV leaves it. -/
def Obligations.FirstAdvanceYieldsTheOrigin : Prop :=
  ∀ s : State, s.exh = false → s.issued = false →
    (0 < s.imgw → 0 < s.imgh → s.nextAccessOk →
      exec .wadv s = .next
        { s with
          pxr := s.pixelAt 0 0, issued := true, brem := 3 * popcount s.mask
          answers := s.answers.tail, ports := s.ports ++ [.imgGet 0 0 .ok]
          status := 0#11, responses := s.responses ++ [⟨.ok, (s.pixelAt 0 0).toNat⟩] } ∧
      exec .radv s = .next
        { s with
          pxr := s.pixelAt 0 0, issued := true
          answers := s.answers.tail, ports := s.ports ++ [.imgGet 0 0 .ok]
          status := 0#11, responses := s.responses ++ [⟨.ok, (s.pixelAt 0 0).toNat⟩] }) ∧
    (s.imgw = 0 ∨ s.imgh = 0 →
      exec .wadv s = .next
        { s with exh := true, brem := 0, status := 0x010#11, responses := s.responses ++ [⟨.exhausted, 0⟩] } ∧
      exec .radv s = .next
        { s with exh := true, status := 0x010#11, responses := s.responses ++ [⟨.exhausted, 0⟩] })

/-- R132, R134: an advance of the write cursor that is not the last commits PXR at (CURX, CURY), then yields the next
pixel in row-major order as the image held it, with a fresh budget. -/
def Obligations.WadvCommitsThenYields : Prop :=
  ∀ (s : State) (nx ny : Nat), s.exh = false → s.issued = true → s.image.wf = true →
    s.curx < s.imgw → s.cury < s.imgh →
    (nx, ny) = (if s.curx + 1 = s.imgw then (0, s.cury + 1) else (s.curx + 1, s.cury)) → ny < s.imgh →
    s.nextTwoAccessesOk →
    exec .wadv s = .next
      { s with
        image := (s.setPixel s.curx s.cury s.pxr).image
        curx := nx, cury := ny, pxr := s.pixelAt nx ny, brem := 3 * popcount s.mask
        answers := s.answers.tail.tail
        ports := s.ports ++ [.imgSet s.curx s.cury s.pxr .ok, .imgGet nx ny .ok]
        status := 0#11, responses := s.responses ++ [⟨.ok, (s.pixelAt nx ny).toNat⟩] }

/-- R132, R135: an advance of the read cursor that is not the last yields the next pixel in row-major order and writes
neither the image nor BREM. -/
def Obligations.RadvYieldsTheNextPixel : Prop :=
  ∀ (s : State) (nx ny : Nat), s.exh = false → s.issued = true → s.curx < s.imgw → s.cury < s.imgh →
    (nx, ny) = (if s.curx + 1 = s.imgw then (0, s.cury + 1) else (s.curx + 1, s.cury)) → ny < s.imgh →
    s.nextAccessOk →
    exec .radv s = .next
      { s with
        curx := nx, cury := ny, pxr := s.pixelAt nx ny
        answers := s.answers.tail, ports := s.ports ++ [.imgGet nx ny .ok]
        status := 0#11, responses := s.responses ++ [⟨.ok, (s.pixelAt nx ny).toNat⟩] }

/-- R134, R135, R137: the advance past the last pixel reports exhaustion with the cursor at (0, IMGH); WADV commits
the last pixel first and clears the budget. -/
def Obligations.LastAdvanceExhausts : Prop :=
  ∀ s : State, s.exh = false → s.issued = true → s.curx + 1 = s.imgw → s.cury + 1 = s.imgh →
    (s.nextAccessOk →
      exec .wadv s = .next
        { s with
          image := (s.setPixel s.curx s.cury s.pxr).image
          curx := 0, cury := s.imgh, exh := true, brem := 0
          answers := s.answers.tail, ports := s.ports ++ [.imgSet s.curx s.cury s.pxr .ok]
          status := 0x010#11, responses := s.responses ++ [⟨.exhausted, 0⟩] }) ∧
    exec .radv s = .next
      { s with
        curx := 0, cury := s.imgh, exh := true
        status := 0x010#11, responses := s.responses ++ [⟨.exhausted, 0⟩] }

/-- R134, R135, R216: a failing read of the first advance, of either cursor, and a failing commit change nothing but
STATUS; a failing read of a later advance leaves the cursor where it was, after WADV with the commit done. -/
def Obligations.FailedAccessLeavesTheCursor : Prop :=
  ∀ (s : State) (rest : List PortAnswer), s.exh = false →
    (s.issued = false → 0 < s.imgw → 0 < s.imgh → s.answers = .fail :: rest → ∀ i ∈ [Instr.wadv, .radv],
      exec i s = .next
        { s with
          answers := rest, ports := s.ports ++ [.imgGet 0 0 .fail]
          status := 0x004#11, responses := s.responses ++ [⟨.ioFailure, 0⟩] }) ∧
    (s.issued = true → s.curx < s.imgw → s.cury < s.imgh →
      (s.answers = .fail :: rest →
        exec .wadv s = .next
          { s with
            answers := rest, ports := s.ports ++ [.imgSet s.curx s.cury s.pxr .fail]
            status := 0x104#11, responses := s.responses ++ [⟨.ioFailure, 0⟩] }) ∧
      (∀ nx ny, (nx, ny) = (if s.curx + 1 = s.imgw then (0, s.cury + 1) else (s.curx + 1, s.cury)) → ny < s.imgh →
        (s.answers = .ok :: .fail :: rest →
          exec .wadv s = .next
            { s with
              image := (s.setPixel s.curx s.cury s.pxr).image
              answers := rest
              ports := s.ports ++ [.imgSet s.curx s.cury s.pxr .ok, .imgGet nx ny .fail]
              status := 0x004#11, responses := s.responses ++ [⟨.ioFailure, 0⟩] }) ∧
        (s.answers = .fail :: rest →
          exec .radv s = .next
            { s with
              answers := rest, ports := s.ports ++ [.imgGet nx ny .fail]
              status := 0x004#11, responses := s.responses ++ [⟨.ioFailure, 0⟩] })))

/-- R132, R134, R135, and the spec's own inference in R137: after CINIT, advance number j + 1 of either cursor yields
pixel (j mod IMGW, j / IMGW), for each of the IMGW·IMGH pixels, and the advance after them reports exhaustion; the
image is as before. -/
def Obligations.TraversalVisitsEveryPixel : Prop :=
  ∀ (s : State) (i : Instr), i ∈ [Instr.wadv, .radv] → s.portsAnswerOk → s.image.wf = true →
    (∀ j, j < s.imgw * s.imgh →
      ∃ t, runCommands (.cinit :: List.replicate (j + 1) i) s = .next t ∧
        t.curx = j % s.imgw ∧ t.cury = j / s.imgw ∧ t.issued = true ∧ t.exh = false ∧
        t.pxr = s.pixelAt (j % s.imgw) (j / s.imgw) ∧ t.image = s.image ∧
        t.responses.getLast? = some ⟨.ok, (s.pixelAt (j % s.imgw) (j / s.imgw)).toNat⟩) ∧
    ∃ t, runCommands (.cinit :: List.replicate (s.imgw * s.imgh + 1) i) s = .next t ∧
      t.exh = true ∧ t.image = s.image ∧ t.responses.getLast? = some ⟨.exhausted, 0⟩

/-- R136, R157, R163: an advance after exhaustion, FNEXT after the end of the stream and FPUT after DONE or FAILED
repeat their answer and change nothing else. -/
def Obligations.EndsAreSticky : Prop :=
  (∀ s : State, s.exh = true → ∀ i ∈ [Instr.wadv, .radv],
    exec i s = .next { s with status := 0x010#11, responses := s.responses ++ [⟨.exhausted, 0⟩] }) ∧
  (∀ s : State, s.send = true →
    exec .fnext s = .next { s with status := 0x011#11, responses := s.responses ++ [⟨.endOfStream, s.rcnt⟩] }) ∧
  (∀ s : State, s.done = true →
    exec .fput s = .next { s with status := 0x014#11, responses := s.responses ++ [⟨.done, s.rcnt⟩] }) ∧
  (∀ s : State, s.done = false → s.failed = true →
    exec .fput s = .next { s with status := 0x002#11, responses := s.responses ++ [⟨.noSecretFound, 0⟩] })

/-! ### Payload framer -/

/-- R150: FINIT. -/
def Obligations.FinitStartsTheFramer : Prop :=
  ∀ s : State,
    decode 0x40000000#32 = .ok .finit ∧
    exec .finit s = .next
      { s with
        comp := .fileName, idx := 0, rcnt := 0, sizev := 0
        sinkopen := false, done := false, failed := false, send := false, namebuf := [], sizebuf := []
        ports := s.ports ++ (if s.sinkopen then [.sinkClose] else [])
        status := 0#11, responses := s.responses ++ [⟨.ok, 0⟩] }

/-- R156, on the domain of SrcRead (R56): FNEXT after the end of the stream, and in each component the next character or
the NUL that ends it, the next raw byte, the end of the stream, and a read that fails. -/
def Obligations.FnextEmitsTheNextByte : Prop :=
  ∀ s : State,
    decode 0x41000000#32 = .ok .fnext ∧
    (s.send = true →
      exec .fnext s = .next { s with status := 0x011#11, responses := s.responses ++ [⟨.endOfStream, s.rcnt⟩] }) ∧
    (∀ (text : List Byte) (next : Component), s.send = false →
      (s.comp = .fileName ∧ text = s.srcName ∧ next = .fileSize) ∨
        (s.comp = .fileSize ∧ text = dec s.srcData.length ∧ next = .rawData) →
      (∀ b, text[s.idx]? = some b →
        exec .fnext s = .next
          { s with
            byter := b, idx := s.idx + 1, status := 0#11, responses := s.responses ++ [⟨.ok, b.toNat⟩] }) ∧
      (text.length ≤ s.idx →
        exec .fnext s = .next
          { s with
            byter := 0x00#8, comp := next, idx := 0, status := 0#11, responses := s.responses ++ [⟨.ok, 0⟩] })) ∧
    (s.send = false → s.comp = .rawData → s.nextAccessOk →
      (∀ b, s.srcData[s.rcnt]? = some b →
        exec .fnext s = .next
          { s with
            byter := b, rcnt := s.rcnt + 1
            answers := s.answers.tail, ports := s.ports ++ [.srcRead s.rcnt .ok]
            status := 0#11, responses := s.responses ++ [⟨.ok, b.toNat⟩] }) ∧
      (s.rcnt = s.srcData.length →
        exec .fnext s = .next
          { s with
            send := true
            answers := s.answers.tail, ports := s.ports ++ [.srcRead s.rcnt .ok]
            status := 0x011#11, responses := s.responses ++ [⟨.endOfStream, s.rcnt⟩] })) ∧
    (∀ rest, s.send = false → s.comp = .rawData → s.answers = .fail :: rest →
      exec .fnext s = .next
        { s with
          answers := rest, ports := s.ports ++ [.srcRead s.rcnt .fail]
          status := 0x204#11, responses := s.responses ++ [⟨.ioFailure, s.rcnt⟩] })

/-- R155, its last sentence the spec's own inference from R153 and R156: the bytes successive FNEXT emit after FINIT
are frame(name, data), in order, and the next FNEXT answers END_OF_STREAM with the number of raw bytes. -/
def Obligations.FnextStreamIsTheFrame : Prop :=
  ∀ s : State, s.portsAnswerOk →
    (∀ k, k ≤ (frame s.srcName s.srcData).length →
      ∃ t, runCommands (.finit :: List.replicate k .fnext) s = .next t ∧
        t.responses = s.responses ++ [⟨.ok, 0⟩] ++
          ((frame s.srcName s.srcData).take k).map (fun b => ⟨.ok, b.toNat⟩)) ∧
    ∃ t, runCommands (.finit :: List.replicate ((frame s.srcName s.srcData).length + 1) .fnext) s = .next t ∧
      t.responses = s.responses ++ [⟨.ok, 0⟩] ++ (frame s.srcName s.srcData).map (fun b => ⟨.ok, b.toNat⟩) ++
        [⟨.endOfStream, s.srcData.length⟩] ∧
      t.send = true ∧ t.comp = .rawData ∧ t.rcnt = s.srcData.length

/-- R160, FileName: a character is collected; the NUL opens the sink named by what was collected, or answers
IO_FAILURE when the sink does. -/
def Obligations.FputCollectsTheName : Prop :=
  ∀ s : State, s.done = false → s.failed = false → s.comp = .fileName →
    (s.byter ≠ 0x00#8 →
      exec .fput s = .next
        { s with
          namebuf := s.namebuf ++ [s.byter]
          status := 0#11, responses := s.responses ++ [⟨.ok, s.byter.toNat⟩] }) ∧
    (s.byter = 0x00#8 → s.nextAccessOk →
      exec .fput s = .next
        { s with
          sinkopen := true, comp := .fileSize
          answers := s.answers.tail, ports := s.ports ++ [.sinkOpen s.namebuf .ok]
          status := 0#11, responses := s.responses ++ [⟨.ok, 0⟩] }) ∧
    (∀ rest, s.byter = 0x00#8 → s.answers = .fail :: rest →
      exec .fput s = .next
        { s with
          answers := rest, ports := s.ports ++ [.sinkOpen s.namebuf .fail]
          status := 0x304#11, responses := s.responses ++ [⟨.ioFailure, 0⟩] })

/-- R160, FileSize, R161, R162, R214: a character is collected; at the NUL a size string that parses becomes SIZEV,
and one that does not discards an open sink and answers NO_SECRET_FOUND. -/
def Obligations.FputParsesTheSize : Prop :=
  ∀ s : State, s.done = false → s.failed = false → s.comp = .fileSize →
    (s.byter ≠ 0x00#8 →
      exec .fput s = .next
        { s with
          sizebuf := s.sizebuf ++ [s.byter]
          status := 0#11, responses := s.responses ++ [⟨.ok, s.byter.toNat⟩] }) ∧
    (∀ v, s.byter = 0x00#8 → parseSize s.sizebuf = some v →
      exec .fput s = .next
        { s with
          sizev := v, comp := .rawData, status := 0#11, responses := s.responses ++ [⟨.ok, 0⟩] }) ∧
    (s.byter = 0x00#8 → parseSize s.sizebuf = none →
      exec .fput s = .next
        { s with
          sinkopen := false, failed := true
          ports := s.ports ++ (if s.sinkopen then [.sinkDiscard] else [])
          status := 0x002#11, responses := s.responses ++ [⟨.noSecretFound, 0⟩] })

/-- R160, RawData: the byte goes to the sink and is counted; the last one closes the sink and answers DONE; a sink
that fails leaves the count. -/
def Obligations.FputWritesRawData : Prop :=
  ∀ s : State, s.done = false → s.failed = false → s.comp = .rawData →
    (s.nextAccessOk → s.rcnt + 1 ≠ s.sizev →
      exec .fput s = .next
        { s with
          rcnt := s.rcnt + 1
          answers := s.answers.tail, ports := s.ports ++ [.sinkWrite s.byter .ok]
          status := 0#11, responses := s.responses ++ [⟨.ok, s.byter.toNat⟩] }) ∧
    (s.nextAccessOk → s.rcnt + 1 = s.sizev →
      exec .fput s = .next
        { s with
          rcnt := s.sizev, sinkopen := false, done := true
          answers := s.answers.tail, ports := s.ports ++ [.sinkWrite s.byter .ok, .sinkClose]
          status := 0x014#11, responses := s.responses ++ [⟨.done, s.sizev⟩] }) ∧
    (∀ rest, s.answers = .fail :: rest →
      exec .fput s = .next
        { s with
          answers := rest, ports := s.ports ++ [.sinkWrite s.byter .fail]
          status := 0x304#11, responses := s.responses ++ [⟨.ioFailure, s.rcnt⟩] })

/-- R152, with the digit codes the spec takes from general knowledge (G1, log entry 14): dec(N) is a decimal numeral
of value N, most significant digit first, without leading zero, "0" for 0, and of at most 10 bytes below 2^32. -/
def Obligations.DecIsTheShortestNumeral : Prop :=
  ∀ v : Nat,
    dec v ≠ [] ∧ (∀ b ∈ dec v, 0x30 ≤ b.toNat ∧ b.toNat ≤ 0x39) ∧ decimalValue (dec v) = v ∧
    (v ≠ 0 → (dec v).head? ≠ some 0x30#8) ∧ dec 0 = [0x30#8] ∧ (v < 2 ^ 32 → (dec v).length ≤ 10)

/-- R161, with the same digit codes (log entry 14): parse_size answers v exactly on the non-empty digit strings of
value v with 1 ≤ v ≤ 2^32 - 1; so it inverts dec on those v and rejects dec(0). -/
def Obligations.ParseSizeInvertsDec : Prop :=
  (∀ (text : List Byte) (v : Nat), parseSize text = some v ↔
    text ≠ [] ∧ (∀ b ∈ text, 0x30 ≤ b.toNat ∧ b.toNat ≤ 0x39) ∧
      text.foldl (fun acc b => 10 * acc + (b.toNat - 0x30)) 0 = v ∧ 1 ≤ v ∧ v ≤ 2 ^ 32 - 1) ∧
  (∀ v, 1 ≤ v → v ≤ 2 ^ 32 - 1 → parseSize (dec v) = some v) ∧ parseSize (dec 0) = none

/-- The law R164, which the spec infers from R153, R160 and R161: feeding the bytes of frame(name, data) to FPUT after
FINIT opens the sink, writes the data, closes it and answers (DONE, LEN). -/
def Obligations.FramingRoundTrip : Prop :=
  ∀ (s : State) (name data : List Byte), s.portsAnswerOk →
    0x00#8 ∉ name → 1 ≤ data.length → data.length ≤ 2 ^ 32 - 1 →
    ∃ t, runCommands (.finit :: (frame name data).flatMap (fun b => [.ldbyte b, .fput])) s = .next t ∧
      t.trace = s.traceReleased ++ [.sinkOpen name] ++ data.map .sinkWrite ++ [.sinkClose] ∧
      t.responses.getLast? = some ⟨.done, data.length⟩ ∧ t.done = true ∧ t.sinkopen = false

/-! ### Capacity -/

/-- R170, R172: CAP. -/
def Obligations.CapComputesTheCapacity : Prop :=
  ∀ s : State,
    decode 0x50000000#32 = .ok .cap ∧
    exec .cap s = .next
      { s with
        capr := s.imgw * s.imgh * 3 * popcount s.mask / 8
        status := 0#11
        responses := s.responses ++ [⟨.ok, s.imgw * s.imgh * 3 * popcount s.mask / 8⟩] }

/-- The laws R173, which the spec infers from R170, of the capacity formula. -/
def Obligations.CapacityLaws : Prop :=
  (∀ w h n, capacity w h 0 = 0 ∧ capacity 0 h n = 0 ∧ capacity w 0 n = 0) ∧
  (∀ w h n w' h' n', w ≤ w' → h ≤ h' → n ≤ n' → capacity w h n ≤ capacity w' h' n') ∧
  (∀ w h n, 8 * capacity w h n ≤ 3 * n * w * h ∧ 3 * n * w * h < 8 * capacity w h n + 8) ∧
  (∀ f w h n, f ≤ capacity w h n ↔ 8 * f ≤ 3 * n * w * h) ∧
  (∀ w h, capacity w h 8 = 3 * w * h)

/-! ### EMBED -/

/-- R189, R213, R219: when the framed length exceeds the capacity EMBED answers CAPACITY_EXCEEDED with ZCAP telling a
zero mask, before any access to the image, and closes the source. -/
def Obligations.EmbedChecksTheCapacityFirst : Prop :=
  ∀ s : State,
    s.imgw * s.imgh * 3 * popcount s.mask / 8 < (frame s.srcName s.srcData).length →
    exec .embed s = .next
      { s with
        curx := 0, cury := 0, issued := false, exh := false, brem := 0, cnt := 0, bq := [], aq := []
        comp := .fileName, idx := 0, rcnt := 0, sizev := 0
        sinkopen := false, done := false, failed := false, send := false, namebuf := [], sizebuf := []
        capr := s.imgw * s.imgh * 3 * popcount s.mask / 8
        flen := (frame s.srcName s.srcData).length
        ports := s.ports ++ (if s.sinkopen then [.sinkClose] else []) ++ [.srcClose]
        status := if popcount s.mask = 0 then 0x401#11 else 0x001#11
        responses := s.responses ++
          [⟨.capacityExceeded, s.imgw * s.imgh * 3 * popcount s.mask / 8⟩] }

/-- R190, R63, R106: with no port failure and a frame that fits, EMBED answers (OK, FLEN); payload bit k stands, as
its NOT, in slot k mod 3n of pixel k / 3n in row-major order; every other bit of every pixel is as before; the sink a
sequence left open is closed and the source is closed once, at the end. -/
def Obligations.EmbedPlacesTheFrame : Prop :=
  ∀ s : State, s.portsAnswerOk → s.image.wf = true →
    (frame s.srcName s.srcData).length ≤ capacity s.imgw s.imgh (popcount s.mask) →
    ∃ t, exec .embed s = .next t ∧
      t.responses = s.responses ++ [⟨.ok, (frame s.srcName s.srcData).length⟩] ∧ t.status = 0#11 ∧
      t.trace = s.traceReleased ++ [.srcClose] ∧
      t.imgw = s.imgw ∧ t.imgh = s.imgh ∧ t.mask = s.mask ∧ t.hung = s.hung ∧
      t.rcnt = s.srcData.length ∧ t.comp = .rawData ∧ t.send = true ∧ t.bq = [] ∧
      ∀ j, j < s.imgw * s.imgh →
        (∀ k sl, (slots s.mask)[k]? = some sl →
          slotBit (t.pixelAt (j % s.imgw) (j / s.imgw)) sl =
            match (payloadBits (frame s.srcName s.srcData))[j * (3 * popcount s.mask) + k]? with
            | some b => !b
            | none => slotBit (s.pixelAt (j % s.imgw) (j / s.imgw)) sl) ∧
        (∀ ch i, s.mask.getLsbD i = false →
          slotBit (t.pixelAt (j % s.imgw) (j / s.imgw)) (ch, i) =
            slotBit (s.pixelAt (j % s.imgw) (j / s.imgw)) (ch, i))

/-- R15, R255, the bounds the spec's own inference: EMBED and RETRIEVE answer a next state from every state, whatever
the ports answer; when no access goes unanswered that state has one more response, and otherwise it is the model's
reading of a block that hangs (log entry 8). -/
def Obligations.OperationsAlwaysEnd : Prop :=
  ∀ s : State, ∀ i ∈ [Instr.embed, .retrieve],
    ∃ t, exec i s = .next t ∧ (.never ∉ s.answers → t.hung = s.hung ∧ t.responses.length = s.responses.length + 1)

/-- R194, with the spec's own inference in R191 that exhaustion in flight cannot fire after the pre-check: whatever
the ports answer, an EMBED that answers CAPACITY_EXCEEDED has left the image bit for bit unchanged and has accessed no
image pixel. -/
def Obligations.CapacityExceededLeavesTheImage : Prop :=
  ∀ (s t : State) (v : Nat), exec .embed s = .next t →
    t.responses = s.responses ++ [⟨.capacityExceeded, v⟩] →
    t.image = s.image ∧ t.ports = s.ports ++ (if s.sinkopen then [.sinkClose] else []) ++ [.srcClose]

/-- R58, R190, R220: every EMBED that ends emits exactly one SrcClose, last, after the SinkClose of a sink a sequence
left open, and no other event. -/
def Obligations.EmbedClosesTheSourceOnce : Prop :=
  ∀ s t : State, exec .embed s = .next t → t.hung = false → t.trace = s.traceReleased ++ [.srcClose]

/-! ### RETRIEVE -/

/-- R195: with no port failure, on an image whose stored bits begin with the payload bits of frame(name, data), for a
name without NUL and 1 ≤ LEN ≤ 2^32 - 1, RETRIEVE answers (OK, LEN) and delivers the name and the data. -/
def Obligations.RetrieveReadsTheFrame : Prop :=
  ∀ (s : State) (name data : List Byte), s.portsAnswerOk →
    0x00#8 ∉ name → 1 ≤ data.length → data.length ≤ 2 ^ 32 - 1 →
    payloadBits (frame name data) <+: s.storedBits →
    ∃ t, exec .retrieve s = .next t ∧
      t.responses = s.responses ++ [⟨.ok, data.length⟩] ∧ t.status = 0#11 ∧
      t.trace = s.traceReleased ++ [.sinkOpen name] ++ data.map .sinkWrite ++ [.sinkClose] ∧
      t.namebuf = name ∧ t.rcnt = data.length ∧ t.sizev = data.length ∧ t.done = true ∧ t.sinkopen = false ∧
      t.image = s.image ∧ t.mask = s.mask ∧ t.hung = s.hung

/-- R195 (e), R196, R197, R215: with no port failure, on an image whose whole stored bytes end before the deserializer
is done, RETRIEVE answers TRUNCATED_SECRET with the number of raw bytes written: without a NUL, as with a zero mask or
an empty image, no sink is opened; after one NUL, in the size string, and after a size that parses, in the raw data,
the open sink is closed, not discarded. -/
def Obligations.RetrieveReportsTruncation : Prop :=
  ∀ (s : State) (bytes : List Byte), s.portsAnswerOk →
    payloadBits bytes <+: s.storedBits → s.storedBits.length < 8 * bytes.length + 8 →
    (0x00#8 ∉ bytes →
      ∃ t, exec .retrieve s = .next t ∧
        t.responses = s.responses ++ [⟨.truncatedSecret, 0⟩] ∧ t.status = 0x003#11 ∧
        t.trace = s.traceReleased ∧ t.image = s.image ∧ t.exh = true ∧
        t.comp = .fileName ∧ t.namebuf = bytes ∧ t.sinkopen = false) ∧
    (∀ name size, bytes = name ++ [0x00#8] ++ size → 0x00#8 ∉ name → 0x00#8 ∉ size →
      ∃ t, exec .retrieve s = .next t ∧
        t.responses = s.responses ++ [⟨.truncatedSecret, 0⟩] ∧ t.status = 0x003#11 ∧
        t.trace = s.traceReleased ++ [.sinkOpen name, .sinkClose] ∧ t.image = s.image ∧ t.exh = true ∧
        t.comp = .fileSize ∧ t.namebuf = name ∧ t.sizebuf = size ∧ t.sizev = 0 ∧ t.sinkopen = false) ∧
    (∀ name size data v, bytes = name ++ [0x00#8] ++ size ++ [0x00#8] ++ data →
      0x00#8 ∉ name → 0x00#8 ∉ size → parseSize size = some v → data.length < v →
      ∃ t, exec .retrieve s = .next t ∧
        t.responses = s.responses ++ [⟨.truncatedSecret, data.length⟩] ∧ t.status = 0x003#11 ∧
        t.trace = s.traceReleased ++ [.sinkOpen name] ++ data.map .sinkWrite ++ [.sinkClose] ∧
        t.image = s.image ∧ t.exh = true ∧
        t.comp = .rawData ∧ t.namebuf = name ∧ t.sizev = v ∧ t.rcnt = data.length ∧ t.sinkopen = false)

/-- R160, R197, R214: with no port failure, when the stored bits begin with a name, a NUL, a size string that does not
parse and a NUL, RETRIEVE answers NO_SECRET_FOUND and the sink it opened is discarded. -/
def Obligations.RetrieveReportsNoSecret : Prop :=
  ∀ (s : State) (name size : List Byte), s.portsAnswerOk →
    0x00#8 ∉ name → 0x00#8 ∉ size → parseSize size = none →
    payloadBits (name ++ [0x00#8] ++ size ++ [0x00#8]) <+: s.storedBits →
    ∃ t, exec .retrieve s = .next t ∧
      t.responses = s.responses ++ [⟨.noSecretFound, 0⟩] ∧ t.status = 0x002#11 ∧
      t.trace = s.traceReleased ++ [.sinkOpen name, .sinkDiscard] ∧
      t.failed = true ∧ t.sinkopen = false ∧ t.image = s.image

/-- The law R199, which the spec infers from R190 and R195: EMBED, then RETRIEVE with the same mask on the resulting
image, recovers the name and the data. -/
def Obligations.RoundTrip : Prop :=
  ∀ s : State, s.portsAnswerOk → s.image.wf = true →
    0x00#8 ∉ s.srcName → 1 ≤ s.srcData.length → s.srcData.length ≤ 2 ^ 32 - 1 →
    (frame s.srcName s.srcData).length ≤ capacity s.imgw s.imgh (popcount s.mask) →
    ∃ t u, exec .embed s = .next t ∧ exec .retrieve t = .next u ∧
      u.responses = s.responses ++
        [⟨.ok, (frame s.srcName s.srcData).length⟩, ⟨.ok, s.srcData.length⟩] ∧
      u.trace = s.traceReleased ++ [.srcClose] ++ [.sinkOpen s.srcName] ++ s.srcData.map .sinkWrite ++ [.sinkClose]

/-- The equivalence R198, which the spec infers from the definition of `step`: EMBED past its pre-check has the effect
of CINIT, FINIT and a sequence of FNEXT, EXPB, WADV and PEMB, but for STATUS, CAPR, FLEN, the responses and the
closing of the source; RETRIEVE that of CINIT, FINIT and a sequence of RADV, PEXT, PACKB and FPUT, but for STATUS, the
responses and the release of the sink. -/
def Obligations.OperationsEqualHostSequences : Prop :=
  (∀ s t : State, exec .embed s = .next t → t.hung = false →
    (frame s.srcName s.srcData).length ≤ capacity s.imgw s.imgh (popcount s.mask) →
    ∃ (sequence : List Instr) (u : State),
      (∀ i ∈ sequence, i ∈ [Instr.fnext, .expb, .wadv, .pemb]) ∧
      runCommands (.cinit :: .finit :: sequence) s = .next u ∧
      t = { u.srcClose with status := t.status, capr := t.capr, flen := t.flen, responses := t.responses }) ∧
  (∀ s t : State, exec .retrieve s = .next t → t.hung = false →
    ∃ (sequence : List Instr) (u : State),
      (∀ i ∈ sequence, i ∈ [Instr.radv, .pext, .packb, .fput]) ∧
      runCommands (.cinit :: .finit :: sequence) s = .next u ∧
      t = { u.releaseSink with status := t.status, responses := t.responses })

/-! ### The whole machine -/

/-- R53, R67: no command but WADV and EMBED writes the image. -/
def Obligations.OnlyWadvAndEmbedWriteTheImage : Prop :=
  ∀ (i : Instr) (s t : State), exec i s = .next t → i ≠ .wadv → i ≠ .embed → t.image = s.image

/-- R41: every register but STATUS changes only under the commands the register table names, EMBED and RETRIEVE for
their steps, and SRST. -/
def Obligations.RegistersHaveTheirWriters : Prop :=
  ∀ (i : Instr) (s t : State), exec i s = .next t → i ≠ .srst →
    (t.mask ≠ s.mask → ∃ m, i = .setmask m) ∧
    (t.imgw = s.imgw ∧ t.imgh = s.imgh ∧ t.srcName = s.srcName ∧ t.srcData = s.srcData ∧ t.inbox = s.inbox) ∧
    ((t.curx, t.cury, t.issued, t.exh) ≠ (s.curx, s.cury, s.issued, s.exh) →
      i ∈ [Instr.cinit, .wadv, .radv, .embed, .retrieve]) ∧
    (t.pxr ≠ s.pxr → i ∈ [Instr.cenc, .pemb, .wadv, .radv, .embed, .retrieve] ∨ ∃ p, i = .ldpx p) ∧
    (t.chr ≠ s.chr → i = .cdec ∨ ∃ v, i = .ldch v) ∧
    (t.byter ≠ s.byter → i ∈ [Instr.fnext, .packb, .embed, .retrieve] ∨ ∃ b, i = .ldbyte b) ∧
    (t.bq ≠ s.bq → i ∈ [Instr.expb, .pemb, .cinit, .embed, .retrieve]) ∧
    (t.aq ≠ s.aq → i ∈ [Instr.pext, .packb, .cinit, .embed, .retrieve]) ∧
    (t.brem ≠ s.brem → i ∈ [Instr.pemb, .wadv, .cinit, .embed, .retrieve] ∨ ∃ r, i = .ldrem r) ∧
    (t.cnt ≠ s.cnt → i ∈ [Instr.pemb, .cinit, .embed, .retrieve]) ∧
    ((t.comp, t.rcnt) ≠ (s.comp, s.rcnt) → i ∈ [Instr.finit, .fnext, .fput, .embed, .retrieve]) ∧
    (t.idx ≠ s.idx → i ∈ [Instr.finit, .fnext, .embed, .retrieve]) ∧
    ((t.sizev, t.sinkopen, t.done, t.failed, t.namebuf, t.sizebuf) ≠
        (s.sizev, s.sinkopen, s.done, s.failed, s.namebuf, s.sizebuf) →
      i ∈ [Instr.finit, .fput, .embed, .retrieve]) ∧
    (t.send ≠ s.send → i ∈ [Instr.finit, .fnext, .embed, .retrieve]) ∧
    (t.capr ≠ s.capr → i ∈ [Instr.cap, .embed]) ∧
    (t.flen ≠ s.flen → i = .embed)

/-- R211, R212, R40, R210, R216: a command that ends has returned one response, and STATUS holds its code and ZCAP
exactly for an EMBED under a zero mask, but for the OK answer of RDREG, which leaves STATUS; a command that does not
end has returned none. A command answers IO_FAILURE exactly when one of its accesses failed; that access is its last,
PORT names it, and only the release follows: SrcClose in EMBED, SinkClose of the sink it had opened in RETRIEVE, and
both answer RCNT. -/
def Obligations.StatusRecordsTheOutcome : Prop :=
  ∀ (i : Instr) (s t : State), exec i s = .next t →
    (t.hung = true ∧ t.responses = s.responses) ∨
    ∃ r, t.responses = s.responses ++ [r] ∧ t.hung = s.hung ∧
      ((∃ n, i = .rdreg n ∧ r.code = .ok ∧ t.status = s.status ∧ t.ports = s.ports) ∨
        (t.status.extractLsb' 0 8 =
            (match r.code with
              | .ok => 0x00#8 | .capacityExceeded => 0x01#8 | .noSecretFound => 0x02#8
              | .truncatedSecret => 0x03#8 | .ioFailure => 0x04#8 | .exhausted => 0x10#8
              | .endOfStream => 0x11#8 | .queueShort => 0x12#8 | .queueFull => 0x13#8 | .done => 0x14#8
              | .illegalCommand => 0x20#8 | .illegalOperand => 0x21#8) ∧
          (t.status.getLsbD 10 = true ↔ i = .embed ∧ popcount s.mask = 0) ∧
          (r.code ≠ .ioFailure →
            t.status.extractLsb' 8 2 = 0#2 ∧ ∀ u ∈ t.ports.drop s.ports.length, u.failedPort = none) ∧
          (r.code = .ioFailure →
            ∃ (earlier release : List PortUse) (failing : PortUse) (port : Port),
              t.ports = s.ports ++ earlier ++ [failing] ++ release ∧
              (∀ u ∈ earlier, u.failedPort = none) ∧ failing.failedPort = some port ∧
              t.status.extractLsb' 8 2 =
                (match port with | .imgGet => 0#2 | .imgSet => 1#2 | .srcRead => 2#2 | .sink => 3#2) ∧
              (i ≠ .embed → i ≠ .retrieve → release = []) ∧
              (i = .embed → release = [.srcClose] ∧ r.value = t.rcnt) ∧
              (i = .retrieve → t.sinkopen = false ∧ r.value = t.rcnt ∧
                ((∃ name, .sinkOpen name .ok ∈ earlier) → release = [.sinkClose]) ∧
                ((∀ name, .sinkOpen name .ok ∉ earlier) → release = [])))))

/-- R54, the spec's own inference from R133, R134 and R43: from a state in which the cursor is legal (R43 (b)), no
command addresses a pixel outside the image or stops in any other way. -/
def Obligations.CommandsNeverLeaveTheImage : Prop :=
  ∀ (i : Instr) (s : State), s.cursorInside → ∃ t, exec i s = .next t

/-- R43 (a), (c), (e): every step keeps the bounds of the bit path, the start of the cursor and the framer's flags;
(b) also when the host does not replace the image while a traversal is under way (R247). -/
def Obligations.RegistersStayLegal : Prop :=
  ∀ s t : State, s.registersLegal → step s = .next t →
    t.registersLegal ∧ (s.cursorInside → s.hostKeepsImage → t.cursorInside)

/-- R50, the model's canonical form (log entry 1): every step keeps the image in canonical form and lists no byte
outside the attached image. -/
def Obligations.ImageStaysLegal : Prop :=
  ∀ s t : State, s.imageLegal → step s = .next t → t.imageLegal

/-- R6, R171, R41: every step from a state whose cursor is legal (R43 (b)) keeps IMGW, IMGH, CURX, CURY, IDX, SIZEV,
CAPR, FLEN and the source's two lengths within their widths. RCNT, NAMELEN and SIZELEN, which the register table also
sizes at SIZE_W, are left out: no rule checks them, and the model counts on (log entry 10). -/
def Obligations.WidthsStayHeld : Prop :=
  ∀ s t : State, s.widthsHold → s.cursorInside → step s = .next t → t.widthsHold

/-- R43, R240, and the model's choice of what is attached at reset and of the ports' answers (log entries 2 to 5): the
reset state meets every invariant. -/
def Obligations.ResetIsLegal : Prop :=
  State.reset.registersLegal ∧ State.reset.cursorInside ∧ State.reset.imageLegal ∧ State.reset.widthsHold ∧
    State.reset.portsAnswerOk
end

