-- ==== Sys2Proof/Laws/State.lean ====
section
/-! SUPPORT. For every named update of the state, one lemma per field, true by rfl (State.lean, Ops.lean, HostSide.lean,
Orchestrators.lean), so that no proof unfolds a record update. -/

namespace Sys2Proof.Machine

variable (s : State)

/-! ### logUse -/

@[simp] theorem State.logUse_mask (u : PortUse) : (s.logUse u).mask = s.mask := rfl
@[simp] theorem State.logUse_imgw (u : PortUse) : (s.logUse u).imgw = s.imgw := rfl
@[simp] theorem State.logUse_imgh (u : PortUse) : (s.logUse u).imgh = s.imgh := rfl
@[simp] theorem State.logUse_curx (u : PortUse) : (s.logUse u).curx = s.curx := rfl
@[simp] theorem State.logUse_cury (u : PortUse) : (s.logUse u).cury = s.cury := rfl
@[simp] theorem State.logUse_issued (u : PortUse) : (s.logUse u).issued = s.issued := rfl
@[simp] theorem State.logUse_exh (u : PortUse) : (s.logUse u).exh = s.exh := rfl
@[simp] theorem State.logUse_pxr (u : PortUse) : (s.logUse u).pxr = s.pxr := rfl
@[simp] theorem State.logUse_chr (u : PortUse) : (s.logUse u).chr = s.chr := rfl
@[simp] theorem State.logUse_byter (u : PortUse) : (s.logUse u).byter = s.byter := rfl
@[simp] theorem State.logUse_bq (u : PortUse) : (s.logUse u).bq = s.bq := rfl
@[simp] theorem State.logUse_aq (u : PortUse) : (s.logUse u).aq = s.aq := rfl
@[simp] theorem State.logUse_brem (u : PortUse) : (s.logUse u).brem = s.brem := rfl
@[simp] theorem State.logUse_cnt (u : PortUse) : (s.logUse u).cnt = s.cnt := rfl
@[simp] theorem State.logUse_comp (u : PortUse) : (s.logUse u).comp = s.comp := rfl
@[simp] theorem State.logUse_idx (u : PortUse) : (s.logUse u).idx = s.idx := rfl
@[simp] theorem State.logUse_rcnt (u : PortUse) : (s.logUse u).rcnt = s.rcnt := rfl
@[simp] theorem State.logUse_sizev (u : PortUse) : (s.logUse u).sizev = s.sizev := rfl
@[simp] theorem State.logUse_sinkopen (u : PortUse) : (s.logUse u).sinkopen = s.sinkopen := rfl
@[simp] theorem State.logUse_done (u : PortUse) : (s.logUse u).done = s.done := rfl
@[simp] theorem State.logUse_failed (u : PortUse) : (s.logUse u).failed = s.failed := rfl
@[simp] theorem State.logUse_send (u : PortUse) : (s.logUse u).send = s.send := rfl
@[simp] theorem State.logUse_namebuf (u : PortUse) : (s.logUse u).namebuf = s.namebuf := rfl
@[simp] theorem State.logUse_sizebuf (u : PortUse) : (s.logUse u).sizebuf = s.sizebuf := rfl
@[simp] theorem State.logUse_capr (u : PortUse) : (s.logUse u).capr = s.capr := rfl
@[simp] theorem State.logUse_flen (u : PortUse) : (s.logUse u).flen = s.flen := rfl
@[simp] theorem State.logUse_status (u : PortUse) : (s.logUse u).status = s.status := rfl
@[simp] theorem State.logUse_image (u : PortUse) : (s.logUse u).image = s.image := rfl
@[simp] theorem State.logUse_srcName (u : PortUse) : (s.logUse u).srcName = s.srcName := rfl
@[simp] theorem State.logUse_srcData (u : PortUse) : (s.logUse u).srcData = s.srcData := rfl
@[simp] theorem State.logUse_answers (u : PortUse) : (s.logUse u).answers = s.answers := rfl
@[simp] theorem State.logUse_ports (u : PortUse) : (s.logUse u).ports = s.ports ++ [u] := rfl
@[simp] theorem State.logUse_inbox (u : PortUse) : (s.logUse u).inbox = s.inbox := rfl
@[simp] theorem State.logUse_responses (u : PortUse) : (s.logUse u).responses = s.responses := rfl
@[simp] theorem State.logUse_hung (u : PortUse) : (s.logUse u).hung = s.hung := rfl

/-! ### sinkClose -/

@[simp] theorem State.sinkClose_mask : (s.sinkClose).mask = s.mask := rfl
@[simp] theorem State.sinkClose_imgw : (s.sinkClose).imgw = s.imgw := rfl
@[simp] theorem State.sinkClose_imgh : (s.sinkClose).imgh = s.imgh := rfl
@[simp] theorem State.sinkClose_curx : (s.sinkClose).curx = s.curx := rfl
@[simp] theorem State.sinkClose_cury : (s.sinkClose).cury = s.cury := rfl
@[simp] theorem State.sinkClose_issued : (s.sinkClose).issued = s.issued := rfl
@[simp] theorem State.sinkClose_exh : (s.sinkClose).exh = s.exh := rfl
@[simp] theorem State.sinkClose_pxr : (s.sinkClose).pxr = s.pxr := rfl
@[simp] theorem State.sinkClose_chr : (s.sinkClose).chr = s.chr := rfl
@[simp] theorem State.sinkClose_byter : (s.sinkClose).byter = s.byter := rfl
@[simp] theorem State.sinkClose_bq : (s.sinkClose).bq = s.bq := rfl
@[simp] theorem State.sinkClose_aq : (s.sinkClose).aq = s.aq := rfl
@[simp] theorem State.sinkClose_brem : (s.sinkClose).brem = s.brem := rfl
@[simp] theorem State.sinkClose_cnt : (s.sinkClose).cnt = s.cnt := rfl
@[simp] theorem State.sinkClose_comp : (s.sinkClose).comp = s.comp := rfl
@[simp] theorem State.sinkClose_idx : (s.sinkClose).idx = s.idx := rfl
@[simp] theorem State.sinkClose_rcnt : (s.sinkClose).rcnt = s.rcnt := rfl
@[simp] theorem State.sinkClose_sizev : (s.sinkClose).sizev = s.sizev := rfl
@[simp] theorem State.sinkClose_sinkopen : (s.sinkClose).sinkopen = s.sinkopen := rfl
@[simp] theorem State.sinkClose_done : (s.sinkClose).done = s.done := rfl
@[simp] theorem State.sinkClose_failed : (s.sinkClose).failed = s.failed := rfl
@[simp] theorem State.sinkClose_send : (s.sinkClose).send = s.send := rfl
@[simp] theorem State.sinkClose_namebuf : (s.sinkClose).namebuf = s.namebuf := rfl
@[simp] theorem State.sinkClose_sizebuf : (s.sinkClose).sizebuf = s.sizebuf := rfl
@[simp] theorem State.sinkClose_capr : (s.sinkClose).capr = s.capr := rfl
@[simp] theorem State.sinkClose_flen : (s.sinkClose).flen = s.flen := rfl
@[simp] theorem State.sinkClose_status : (s.sinkClose).status = s.status := rfl
@[simp] theorem State.sinkClose_image : (s.sinkClose).image = s.image := rfl
@[simp] theorem State.sinkClose_srcName : (s.sinkClose).srcName = s.srcName := rfl
@[simp] theorem State.sinkClose_srcData : (s.sinkClose).srcData = s.srcData := rfl
@[simp] theorem State.sinkClose_answers : (s.sinkClose).answers = s.answers := rfl
@[simp] theorem State.sinkClose_ports : (s.sinkClose).ports = s.ports ++ [.sinkClose] := rfl
@[simp] theorem State.sinkClose_inbox : (s.sinkClose).inbox = s.inbox := rfl
@[simp] theorem State.sinkClose_responses : (s.sinkClose).responses = s.responses := rfl
@[simp] theorem State.sinkClose_hung : (s.sinkClose).hung = s.hung := rfl

/-! ### sinkDiscard -/

@[simp] theorem State.sinkDiscard_mask : (s.sinkDiscard).mask = s.mask := rfl
@[simp] theorem State.sinkDiscard_imgw : (s.sinkDiscard).imgw = s.imgw := rfl
@[simp] theorem State.sinkDiscard_imgh : (s.sinkDiscard).imgh = s.imgh := rfl
@[simp] theorem State.sinkDiscard_curx : (s.sinkDiscard).curx = s.curx := rfl
@[simp] theorem State.sinkDiscard_cury : (s.sinkDiscard).cury = s.cury := rfl
@[simp] theorem State.sinkDiscard_issued : (s.sinkDiscard).issued = s.issued := rfl
@[simp] theorem State.sinkDiscard_exh : (s.sinkDiscard).exh = s.exh := rfl
@[simp] theorem State.sinkDiscard_pxr : (s.sinkDiscard).pxr = s.pxr := rfl
@[simp] theorem State.sinkDiscard_chr : (s.sinkDiscard).chr = s.chr := rfl
@[simp] theorem State.sinkDiscard_byter : (s.sinkDiscard).byter = s.byter := rfl
@[simp] theorem State.sinkDiscard_bq : (s.sinkDiscard).bq = s.bq := rfl
@[simp] theorem State.sinkDiscard_aq : (s.sinkDiscard).aq = s.aq := rfl
@[simp] theorem State.sinkDiscard_brem : (s.sinkDiscard).brem = s.brem := rfl
@[simp] theorem State.sinkDiscard_cnt : (s.sinkDiscard).cnt = s.cnt := rfl
@[simp] theorem State.sinkDiscard_comp : (s.sinkDiscard).comp = s.comp := rfl
@[simp] theorem State.sinkDiscard_idx : (s.sinkDiscard).idx = s.idx := rfl
@[simp] theorem State.sinkDiscard_rcnt : (s.sinkDiscard).rcnt = s.rcnt := rfl
@[simp] theorem State.sinkDiscard_sizev : (s.sinkDiscard).sizev = s.sizev := rfl
@[simp] theorem State.sinkDiscard_sinkopen : (s.sinkDiscard).sinkopen = s.sinkopen := rfl
@[simp] theorem State.sinkDiscard_done : (s.sinkDiscard).done = s.done := rfl
@[simp] theorem State.sinkDiscard_failed : (s.sinkDiscard).failed = s.failed := rfl
@[simp] theorem State.sinkDiscard_send : (s.sinkDiscard).send = s.send := rfl
@[simp] theorem State.sinkDiscard_namebuf : (s.sinkDiscard).namebuf = s.namebuf := rfl
@[simp] theorem State.sinkDiscard_sizebuf : (s.sinkDiscard).sizebuf = s.sizebuf := rfl
@[simp] theorem State.sinkDiscard_capr : (s.sinkDiscard).capr = s.capr := rfl
@[simp] theorem State.sinkDiscard_flen : (s.sinkDiscard).flen = s.flen := rfl
@[simp] theorem State.sinkDiscard_status : (s.sinkDiscard).status = s.status := rfl
@[simp] theorem State.sinkDiscard_image : (s.sinkDiscard).image = s.image := rfl
@[simp] theorem State.sinkDiscard_srcName : (s.sinkDiscard).srcName = s.srcName := rfl
@[simp] theorem State.sinkDiscard_srcData : (s.sinkDiscard).srcData = s.srcData := rfl
@[simp] theorem State.sinkDiscard_answers : (s.sinkDiscard).answers = s.answers := rfl
@[simp] theorem State.sinkDiscard_ports : (s.sinkDiscard).ports = s.ports ++ [.sinkDiscard] := rfl
@[simp] theorem State.sinkDiscard_inbox : (s.sinkDiscard).inbox = s.inbox := rfl
@[simp] theorem State.sinkDiscard_responses : (s.sinkDiscard).responses = s.responses := rfl
@[simp] theorem State.sinkDiscard_hung : (s.sinkDiscard).hung = s.hung := rfl

/-! ### srcClose -/

@[simp] theorem State.srcClose_mask : (s.srcClose).mask = s.mask := rfl
@[simp] theorem State.srcClose_imgw : (s.srcClose).imgw = s.imgw := rfl
@[simp] theorem State.srcClose_imgh : (s.srcClose).imgh = s.imgh := rfl
@[simp] theorem State.srcClose_curx : (s.srcClose).curx = s.curx := rfl
@[simp] theorem State.srcClose_cury : (s.srcClose).cury = s.cury := rfl
@[simp] theorem State.srcClose_issued : (s.srcClose).issued = s.issued := rfl
@[simp] theorem State.srcClose_exh : (s.srcClose).exh = s.exh := rfl
@[simp] theorem State.srcClose_pxr : (s.srcClose).pxr = s.pxr := rfl
@[simp] theorem State.srcClose_chr : (s.srcClose).chr = s.chr := rfl
@[simp] theorem State.srcClose_byter : (s.srcClose).byter = s.byter := rfl
@[simp] theorem State.srcClose_bq : (s.srcClose).bq = s.bq := rfl
@[simp] theorem State.srcClose_aq : (s.srcClose).aq = s.aq := rfl
@[simp] theorem State.srcClose_brem : (s.srcClose).brem = s.brem := rfl
@[simp] theorem State.srcClose_cnt : (s.srcClose).cnt = s.cnt := rfl
@[simp] theorem State.srcClose_comp : (s.srcClose).comp = s.comp := rfl
@[simp] theorem State.srcClose_idx : (s.srcClose).idx = s.idx := rfl
@[simp] theorem State.srcClose_rcnt : (s.srcClose).rcnt = s.rcnt := rfl
@[simp] theorem State.srcClose_sizev : (s.srcClose).sizev = s.sizev := rfl
@[simp] theorem State.srcClose_sinkopen : (s.srcClose).sinkopen = s.sinkopen := rfl
@[simp] theorem State.srcClose_done : (s.srcClose).done = s.done := rfl
@[simp] theorem State.srcClose_failed : (s.srcClose).failed = s.failed := rfl
@[simp] theorem State.srcClose_send : (s.srcClose).send = s.send := rfl
@[simp] theorem State.srcClose_namebuf : (s.srcClose).namebuf = s.namebuf := rfl
@[simp] theorem State.srcClose_sizebuf : (s.srcClose).sizebuf = s.sizebuf := rfl
@[simp] theorem State.srcClose_capr : (s.srcClose).capr = s.capr := rfl
@[simp] theorem State.srcClose_flen : (s.srcClose).flen = s.flen := rfl
@[simp] theorem State.srcClose_status : (s.srcClose).status = s.status := rfl
@[simp] theorem State.srcClose_image : (s.srcClose).image = s.image := rfl
@[simp] theorem State.srcClose_srcName : (s.srcClose).srcName = s.srcName := rfl
@[simp] theorem State.srcClose_srcData : (s.srcClose).srcData = s.srcData := rfl
@[simp] theorem State.srcClose_answers : (s.srcClose).answers = s.answers := rfl
@[simp] theorem State.srcClose_ports : (s.srcClose).ports = s.ports ++ [.srcClose] := rfl
@[simp] theorem State.srcClose_inbox : (s.srcClose).inbox = s.inbox := rfl
@[simp] theorem State.srcClose_responses : (s.srcClose).responses = s.responses := rfl
@[simp] theorem State.srcClose_hung : (s.srcClose).hung = s.hung := rfl

/-! ### setPixel -/

@[simp] theorem State.setPixel_mask (x y : Nat) (p : Pixel) : (s.setPixel x y p).mask = s.mask := rfl
@[simp] theorem State.setPixel_imgw (x y : Nat) (p : Pixel) : (s.setPixel x y p).imgw = s.imgw := rfl
@[simp] theorem State.setPixel_imgh (x y : Nat) (p : Pixel) : (s.setPixel x y p).imgh = s.imgh := rfl
@[simp] theorem State.setPixel_curx (x y : Nat) (p : Pixel) : (s.setPixel x y p).curx = s.curx := rfl
@[simp] theorem State.setPixel_cury (x y : Nat) (p : Pixel) : (s.setPixel x y p).cury = s.cury := rfl
@[simp] theorem State.setPixel_issued (x y : Nat) (p : Pixel) : (s.setPixel x y p).issued = s.issued := rfl
@[simp] theorem State.setPixel_exh (x y : Nat) (p : Pixel) : (s.setPixel x y p).exh = s.exh := rfl
@[simp] theorem State.setPixel_pxr (x y : Nat) (p : Pixel) : (s.setPixel x y p).pxr = s.pxr := rfl
@[simp] theorem State.setPixel_chr (x y : Nat) (p : Pixel) : (s.setPixel x y p).chr = s.chr := rfl
@[simp] theorem State.setPixel_byter (x y : Nat) (p : Pixel) : (s.setPixel x y p).byter = s.byter := rfl
@[simp] theorem State.setPixel_bq (x y : Nat) (p : Pixel) : (s.setPixel x y p).bq = s.bq := rfl
@[simp] theorem State.setPixel_aq (x y : Nat) (p : Pixel) : (s.setPixel x y p).aq = s.aq := rfl
@[simp] theorem State.setPixel_brem (x y : Nat) (p : Pixel) : (s.setPixel x y p).brem = s.brem := rfl
@[simp] theorem State.setPixel_cnt (x y : Nat) (p : Pixel) : (s.setPixel x y p).cnt = s.cnt := rfl
@[simp] theorem State.setPixel_comp (x y : Nat) (p : Pixel) : (s.setPixel x y p).comp = s.comp := rfl
@[simp] theorem State.setPixel_idx (x y : Nat) (p : Pixel) : (s.setPixel x y p).idx = s.idx := rfl
@[simp] theorem State.setPixel_rcnt (x y : Nat) (p : Pixel) : (s.setPixel x y p).rcnt = s.rcnt := rfl
@[simp] theorem State.setPixel_sizev (x y : Nat) (p : Pixel) : (s.setPixel x y p).sizev = s.sizev := rfl
@[simp] theorem State.setPixel_sinkopen (x y : Nat) (p : Pixel) : (s.setPixel x y p).sinkopen = s.sinkopen := rfl
@[simp] theorem State.setPixel_done (x y : Nat) (p : Pixel) : (s.setPixel x y p).done = s.done := rfl
@[simp] theorem State.setPixel_failed (x y : Nat) (p : Pixel) : (s.setPixel x y p).failed = s.failed := rfl
@[simp] theorem State.setPixel_send (x y : Nat) (p : Pixel) : (s.setPixel x y p).send = s.send := rfl
@[simp] theorem State.setPixel_namebuf (x y : Nat) (p : Pixel) : (s.setPixel x y p).namebuf = s.namebuf := rfl
@[simp] theorem State.setPixel_sizebuf (x y : Nat) (p : Pixel) : (s.setPixel x y p).sizebuf = s.sizebuf := rfl
@[simp] theorem State.setPixel_capr (x y : Nat) (p : Pixel) : (s.setPixel x y p).capr = s.capr := rfl
@[simp] theorem State.setPixel_flen (x y : Nat) (p : Pixel) : (s.setPixel x y p).flen = s.flen := rfl
@[simp] theorem State.setPixel_status (x y : Nat) (p : Pixel) : (s.setPixel x y p).status = s.status := rfl
@[simp] theorem State.setPixel_image (x y : Nat) (p : Pixel) : (s.setPixel x y p).image = s.image.writePixel (pixelAddress s.imgw x y) p := rfl
@[simp] theorem State.setPixel_srcName (x y : Nat) (p : Pixel) : (s.setPixel x y p).srcName = s.srcName := rfl
@[simp] theorem State.setPixel_srcData (x y : Nat) (p : Pixel) : (s.setPixel x y p).srcData = s.srcData := rfl
@[simp] theorem State.setPixel_answers (x y : Nat) (p : Pixel) : (s.setPixel x y p).answers = s.answers := rfl
@[simp] theorem State.setPixel_ports (x y : Nat) (p : Pixel) : (s.setPixel x y p).ports = s.ports := rfl
@[simp] theorem State.setPixel_inbox (x y : Nat) (p : Pixel) : (s.setPixel x y p).inbox = s.inbox := rfl
@[simp] theorem State.setPixel_responses (x y : Nat) (p : Pixel) : (s.setPixel x y p).responses = s.responses := rfl
@[simp] theorem State.setPixel_hung (x y : Nat) (p : Pixel) : (s.setPixel x y p).hung = s.hung := rfl

/-! ### respond -/

@[simp] theorem State.respond_mask (a : Answer) : (s.respond a).mask = s.mask := rfl
@[simp] theorem State.respond_imgw (a : Answer) : (s.respond a).imgw = s.imgw := rfl
@[simp] theorem State.respond_imgh (a : Answer) : (s.respond a).imgh = s.imgh := rfl
@[simp] theorem State.respond_curx (a : Answer) : (s.respond a).curx = s.curx := rfl
@[simp] theorem State.respond_cury (a : Answer) : (s.respond a).cury = s.cury := rfl
@[simp] theorem State.respond_issued (a : Answer) : (s.respond a).issued = s.issued := rfl
@[simp] theorem State.respond_exh (a : Answer) : (s.respond a).exh = s.exh := rfl
@[simp] theorem State.respond_pxr (a : Answer) : (s.respond a).pxr = s.pxr := rfl
@[simp] theorem State.respond_chr (a : Answer) : (s.respond a).chr = s.chr := rfl
@[simp] theorem State.respond_byter (a : Answer) : (s.respond a).byter = s.byter := rfl
@[simp] theorem State.respond_bq (a : Answer) : (s.respond a).bq = s.bq := rfl
@[simp] theorem State.respond_aq (a : Answer) : (s.respond a).aq = s.aq := rfl
@[simp] theorem State.respond_brem (a : Answer) : (s.respond a).brem = s.brem := rfl
@[simp] theorem State.respond_cnt (a : Answer) : (s.respond a).cnt = s.cnt := rfl
@[simp] theorem State.respond_comp (a : Answer) : (s.respond a).comp = s.comp := rfl
@[simp] theorem State.respond_idx (a : Answer) : (s.respond a).idx = s.idx := rfl
@[simp] theorem State.respond_rcnt (a : Answer) : (s.respond a).rcnt = s.rcnt := rfl
@[simp] theorem State.respond_sizev (a : Answer) : (s.respond a).sizev = s.sizev := rfl
@[simp] theorem State.respond_sinkopen (a : Answer) : (s.respond a).sinkopen = s.sinkopen := rfl
@[simp] theorem State.respond_done (a : Answer) : (s.respond a).done = s.done := rfl
@[simp] theorem State.respond_failed (a : Answer) : (s.respond a).failed = s.failed := rfl
@[simp] theorem State.respond_send (a : Answer) : (s.respond a).send = s.send := rfl
@[simp] theorem State.respond_namebuf (a : Answer) : (s.respond a).namebuf = s.namebuf := rfl
@[simp] theorem State.respond_sizebuf (a : Answer) : (s.respond a).sizebuf = s.sizebuf := rfl
@[simp] theorem State.respond_capr (a : Answer) : (s.respond a).capr = s.capr := rfl
@[simp] theorem State.respond_flen (a : Answer) : (s.respond a).flen = s.flen := rfl
@[simp] theorem State.respond_status (a : Answer) : (s.respond a).status = statusWord a.code a.port a.zcap := rfl
@[simp] theorem State.respond_image (a : Answer) : (s.respond a).image = s.image := rfl
@[simp] theorem State.respond_srcName (a : Answer) : (s.respond a).srcName = s.srcName := rfl
@[simp] theorem State.respond_srcData (a : Answer) : (s.respond a).srcData = s.srcData := rfl
@[simp] theorem State.respond_answers (a : Answer) : (s.respond a).answers = s.answers := rfl
@[simp] theorem State.respond_ports (a : Answer) : (s.respond a).ports = s.ports := rfl
@[simp] theorem State.respond_inbox (a : Answer) : (s.respond a).inbox = s.inbox := rfl
@[simp] theorem State.respond_responses (a : Answer) : (s.respond a).responses = s.responses ++ [{ code := a.code, value := a.value }] := rfl
@[simp] theorem State.respond_hung (a : Answer) : (s.respond a).hung = s.hung := rfl

/-! ### respondQuietly -/

@[simp] theorem State.respondQuietly_mask (v : Nat) : (s.respondQuietly v).mask = s.mask := rfl
@[simp] theorem State.respondQuietly_imgw (v : Nat) : (s.respondQuietly v).imgw = s.imgw := rfl
@[simp] theorem State.respondQuietly_imgh (v : Nat) : (s.respondQuietly v).imgh = s.imgh := rfl
@[simp] theorem State.respondQuietly_curx (v : Nat) : (s.respondQuietly v).curx = s.curx := rfl
@[simp] theorem State.respondQuietly_cury (v : Nat) : (s.respondQuietly v).cury = s.cury := rfl
@[simp] theorem State.respondQuietly_issued (v : Nat) : (s.respondQuietly v).issued = s.issued := rfl
@[simp] theorem State.respondQuietly_exh (v : Nat) : (s.respondQuietly v).exh = s.exh := rfl
@[simp] theorem State.respondQuietly_pxr (v : Nat) : (s.respondQuietly v).pxr = s.pxr := rfl
@[simp] theorem State.respondQuietly_chr (v : Nat) : (s.respondQuietly v).chr = s.chr := rfl
@[simp] theorem State.respondQuietly_byter (v : Nat) : (s.respondQuietly v).byter = s.byter := rfl
@[simp] theorem State.respondQuietly_bq (v : Nat) : (s.respondQuietly v).bq = s.bq := rfl
@[simp] theorem State.respondQuietly_aq (v : Nat) : (s.respondQuietly v).aq = s.aq := rfl
@[simp] theorem State.respondQuietly_brem (v : Nat) : (s.respondQuietly v).brem = s.brem := rfl
@[simp] theorem State.respondQuietly_cnt (v : Nat) : (s.respondQuietly v).cnt = s.cnt := rfl
@[simp] theorem State.respondQuietly_comp (v : Nat) : (s.respondQuietly v).comp = s.comp := rfl
@[simp] theorem State.respondQuietly_idx (v : Nat) : (s.respondQuietly v).idx = s.idx := rfl
@[simp] theorem State.respondQuietly_rcnt (v : Nat) : (s.respondQuietly v).rcnt = s.rcnt := rfl
@[simp] theorem State.respondQuietly_sizev (v : Nat) : (s.respondQuietly v).sizev = s.sizev := rfl
@[simp] theorem State.respondQuietly_sinkopen (v : Nat) : (s.respondQuietly v).sinkopen = s.sinkopen := rfl
@[simp] theorem State.respondQuietly_done (v : Nat) : (s.respondQuietly v).done = s.done := rfl
@[simp] theorem State.respondQuietly_failed (v : Nat) : (s.respondQuietly v).failed = s.failed := rfl
@[simp] theorem State.respondQuietly_send (v : Nat) : (s.respondQuietly v).send = s.send := rfl
@[simp] theorem State.respondQuietly_namebuf (v : Nat) : (s.respondQuietly v).namebuf = s.namebuf := rfl
@[simp] theorem State.respondQuietly_sizebuf (v : Nat) : (s.respondQuietly v).sizebuf = s.sizebuf := rfl
@[simp] theorem State.respondQuietly_capr (v : Nat) : (s.respondQuietly v).capr = s.capr := rfl
@[simp] theorem State.respondQuietly_flen (v : Nat) : (s.respondQuietly v).flen = s.flen := rfl
@[simp] theorem State.respondQuietly_status (v : Nat) : (s.respondQuietly v).status = s.status := rfl
@[simp] theorem State.respondQuietly_image (v : Nat) : (s.respondQuietly v).image = s.image := rfl
@[simp] theorem State.respondQuietly_srcName (v : Nat) : (s.respondQuietly v).srcName = s.srcName := rfl
@[simp] theorem State.respondQuietly_srcData (v : Nat) : (s.respondQuietly v).srcData = s.srcData := rfl
@[simp] theorem State.respondQuietly_answers (v : Nat) : (s.respondQuietly v).answers = s.answers := rfl
@[simp] theorem State.respondQuietly_ports (v : Nat) : (s.respondQuietly v).ports = s.ports := rfl
@[simp] theorem State.respondQuietly_inbox (v : Nat) : (s.respondQuietly v).inbox = s.inbox := rfl
@[simp] theorem State.respondQuietly_responses (v : Nat) : (s.respondQuietly v).responses = s.responses ++ [{ code := .ok, value := v }] := rfl
@[simp] theorem State.respondQuietly_hung (v : Nat) : (s.respondQuietly v).hung = s.hung := rfl

/-! ### putCommand -/

@[simp] theorem State.putCommand_mask (w : Word) : (s.putCommand w).mask = s.mask := rfl
@[simp] theorem State.putCommand_imgw (w : Word) : (s.putCommand w).imgw = s.imgw := rfl
@[simp] theorem State.putCommand_imgh (w : Word) : (s.putCommand w).imgh = s.imgh := rfl
@[simp] theorem State.putCommand_curx (w : Word) : (s.putCommand w).curx = s.curx := rfl
@[simp] theorem State.putCommand_cury (w : Word) : (s.putCommand w).cury = s.cury := rfl
@[simp] theorem State.putCommand_issued (w : Word) : (s.putCommand w).issued = s.issued := rfl
@[simp] theorem State.putCommand_exh (w : Word) : (s.putCommand w).exh = s.exh := rfl
@[simp] theorem State.putCommand_pxr (w : Word) : (s.putCommand w).pxr = s.pxr := rfl
@[simp] theorem State.putCommand_chr (w : Word) : (s.putCommand w).chr = s.chr := rfl
@[simp] theorem State.putCommand_byter (w : Word) : (s.putCommand w).byter = s.byter := rfl
@[simp] theorem State.putCommand_bq (w : Word) : (s.putCommand w).bq = s.bq := rfl
@[simp] theorem State.putCommand_aq (w : Word) : (s.putCommand w).aq = s.aq := rfl
@[simp] theorem State.putCommand_brem (w : Word) : (s.putCommand w).brem = s.brem := rfl
@[simp] theorem State.putCommand_cnt (w : Word) : (s.putCommand w).cnt = s.cnt := rfl
@[simp] theorem State.putCommand_comp (w : Word) : (s.putCommand w).comp = s.comp := rfl
@[simp] theorem State.putCommand_idx (w : Word) : (s.putCommand w).idx = s.idx := rfl
@[simp] theorem State.putCommand_rcnt (w : Word) : (s.putCommand w).rcnt = s.rcnt := rfl
@[simp] theorem State.putCommand_sizev (w : Word) : (s.putCommand w).sizev = s.sizev := rfl
@[simp] theorem State.putCommand_sinkopen (w : Word) : (s.putCommand w).sinkopen = s.sinkopen := rfl
@[simp] theorem State.putCommand_done (w : Word) : (s.putCommand w).done = s.done := rfl
@[simp] theorem State.putCommand_failed (w : Word) : (s.putCommand w).failed = s.failed := rfl
@[simp] theorem State.putCommand_send (w : Word) : (s.putCommand w).send = s.send := rfl
@[simp] theorem State.putCommand_namebuf (w : Word) : (s.putCommand w).namebuf = s.namebuf := rfl
@[simp] theorem State.putCommand_sizebuf (w : Word) : (s.putCommand w).sizebuf = s.sizebuf := rfl
@[simp] theorem State.putCommand_capr (w : Word) : (s.putCommand w).capr = s.capr := rfl
@[simp] theorem State.putCommand_flen (w : Word) : (s.putCommand w).flen = s.flen := rfl
@[simp] theorem State.putCommand_status (w : Word) : (s.putCommand w).status = s.status := rfl
@[simp] theorem State.putCommand_image (w : Word) : (s.putCommand w).image = s.image := rfl
@[simp] theorem State.putCommand_srcName (w : Word) : (s.putCommand w).srcName = s.srcName := rfl
@[simp] theorem State.putCommand_srcData (w : Word) : (s.putCommand w).srcData = s.srcData := rfl
@[simp] theorem State.putCommand_answers (w : Word) : (s.putCommand w).answers = s.answers := rfl
@[simp] theorem State.putCommand_ports (w : Word) : (s.putCommand w).ports = s.ports := rfl
@[simp] theorem State.putCommand_inbox (w : Word) : (s.putCommand w).inbox = .command w :: s.inbox := rfl
@[simp] theorem State.putCommand_responses (w : Word) : (s.putCommand w).responses = s.responses := rfl
@[simp] theorem State.putCommand_hung (w : Word) : (s.putCommand w).hung = false := rfl

/-! ### resetRegisters -/

@[simp] theorem State.resetRegisters_mask : (s.resetRegisters).mask = 0x00#8 := rfl
@[simp] theorem State.resetRegisters_imgw : (s.resetRegisters).imgw = s.imgw := rfl
@[simp] theorem State.resetRegisters_imgh : (s.resetRegisters).imgh = s.imgh := rfl
@[simp] theorem State.resetRegisters_curx : (s.resetRegisters).curx = 0 := rfl
@[simp] theorem State.resetRegisters_cury : (s.resetRegisters).cury = 0 := rfl
@[simp] theorem State.resetRegisters_issued : (s.resetRegisters).issued = false := rfl
@[simp] theorem State.resetRegisters_exh : (s.resetRegisters).exh = false := rfl
@[simp] theorem State.resetRegisters_pxr : (s.resetRegisters).pxr = 0x000000#24 := rfl
@[simp] theorem State.resetRegisters_chr : (s.resetRegisters).chr = 0x000000#24 := rfl
@[simp] theorem State.resetRegisters_byter : (s.resetRegisters).byter = 0x00#8 := rfl
@[simp] theorem State.resetRegisters_bq : (s.resetRegisters).bq = [] := rfl
@[simp] theorem State.resetRegisters_aq : (s.resetRegisters).aq = [] := rfl
@[simp] theorem State.resetRegisters_brem : (s.resetRegisters).brem = 0 := rfl
@[simp] theorem State.resetRegisters_cnt : (s.resetRegisters).cnt = 0 := rfl
@[simp] theorem State.resetRegisters_comp : (s.resetRegisters).comp = .fileName := rfl
@[simp] theorem State.resetRegisters_idx : (s.resetRegisters).idx = 0 := rfl
@[simp] theorem State.resetRegisters_rcnt : (s.resetRegisters).rcnt = 0 := rfl
@[simp] theorem State.resetRegisters_sizev : (s.resetRegisters).sizev = 0 := rfl
@[simp] theorem State.resetRegisters_sinkopen : (s.resetRegisters).sinkopen = false := rfl
@[simp] theorem State.resetRegisters_done : (s.resetRegisters).done = false := rfl
@[simp] theorem State.resetRegisters_failed : (s.resetRegisters).failed = false := rfl
@[simp] theorem State.resetRegisters_send : (s.resetRegisters).send = false := rfl
@[simp] theorem State.resetRegisters_namebuf : (s.resetRegisters).namebuf = [] := rfl
@[simp] theorem State.resetRegisters_sizebuf : (s.resetRegisters).sizebuf = [] := rfl
@[simp] theorem State.resetRegisters_capr : (s.resetRegisters).capr = 0 := rfl
@[simp] theorem State.resetRegisters_flen : (s.resetRegisters).flen = 0 := rfl
@[simp] theorem State.resetRegisters_status : (s.resetRegisters).status = 0#11 := rfl
@[simp] theorem State.resetRegisters_image : (s.resetRegisters).image = s.image := rfl
@[simp] theorem State.resetRegisters_srcName : (s.resetRegisters).srcName = s.srcName := rfl
@[simp] theorem State.resetRegisters_srcData : (s.resetRegisters).srcData = s.srcData := rfl
@[simp] theorem State.resetRegisters_answers : (s.resetRegisters).answers = s.answers := rfl
@[simp] theorem State.resetRegisters_ports : (s.resetRegisters).ports = s.ports := rfl
@[simp] theorem State.resetRegisters_inbox : (s.resetRegisters).inbox = s.inbox := rfl
@[simp] theorem State.resetRegisters_responses : (s.resetRegisters).responses = s.responses := rfl
@[simp] theorem State.resetRegisters_hung : (s.resetRegisters).hung = s.hung := rfl

/-! ### hardReset -/

@[simp] theorem State.hardReset_mask : (s.hardReset).mask = 0x00#8 := rfl
@[simp] theorem State.hardReset_imgw : (s.hardReset).imgw = s.imgw := rfl
@[simp] theorem State.hardReset_imgh : (s.hardReset).imgh = s.imgh := rfl
@[simp] theorem State.hardReset_curx : (s.hardReset).curx = 0 := rfl
@[simp] theorem State.hardReset_cury : (s.hardReset).cury = 0 := rfl
@[simp] theorem State.hardReset_issued : (s.hardReset).issued = false := rfl
@[simp] theorem State.hardReset_exh : (s.hardReset).exh = false := rfl
@[simp] theorem State.hardReset_pxr : (s.hardReset).pxr = 0x000000#24 := rfl
@[simp] theorem State.hardReset_chr : (s.hardReset).chr = 0x000000#24 := rfl
@[simp] theorem State.hardReset_byter : (s.hardReset).byter = 0x00#8 := rfl
@[simp] theorem State.hardReset_bq : (s.hardReset).bq = [] := rfl
@[simp] theorem State.hardReset_aq : (s.hardReset).aq = [] := rfl
@[simp] theorem State.hardReset_brem : (s.hardReset).brem = 0 := rfl
@[simp] theorem State.hardReset_cnt : (s.hardReset).cnt = 0 := rfl
@[simp] theorem State.hardReset_comp : (s.hardReset).comp = .fileName := rfl
@[simp] theorem State.hardReset_idx : (s.hardReset).idx = 0 := rfl
@[simp] theorem State.hardReset_rcnt : (s.hardReset).rcnt = 0 := rfl
@[simp] theorem State.hardReset_sizev : (s.hardReset).sizev = 0 := rfl
@[simp] theorem State.hardReset_sinkopen : (s.hardReset).sinkopen = false := rfl
@[simp] theorem State.hardReset_done : (s.hardReset).done = false := rfl
@[simp] theorem State.hardReset_failed : (s.hardReset).failed = false := rfl
@[simp] theorem State.hardReset_send : (s.hardReset).send = false := rfl
@[simp] theorem State.hardReset_namebuf : (s.hardReset).namebuf = [] := rfl
@[simp] theorem State.hardReset_sizebuf : (s.hardReset).sizebuf = [] := rfl
@[simp] theorem State.hardReset_capr : (s.hardReset).capr = 0 := rfl
@[simp] theorem State.hardReset_flen : (s.hardReset).flen = 0 := rfl
@[simp] theorem State.hardReset_status : (s.hardReset).status = 0#11 := rfl
@[simp] theorem State.hardReset_image : (s.hardReset).image = s.image := rfl
@[simp] theorem State.hardReset_srcName : (s.hardReset).srcName = s.srcName := rfl
@[simp] theorem State.hardReset_srcData : (s.hardReset).srcData = s.srcData := rfl
@[simp] theorem State.hardReset_answers : (s.hardReset).answers = s.answers := rfl
@[simp] theorem State.hardReset_ports : (s.hardReset).ports = s.ports := rfl
@[simp] theorem State.hardReset_inbox : (s.hardReset).inbox = s.inbox := rfl
@[simp] theorem State.hardReset_responses : (s.hardReset).responses = s.responses := rfl
@[simp] theorem State.hardReset_hung : (s.hardReset).hung = false := rfl

/-! ### loadEmbedSizes -/

@[simp] theorem loadEmbedSizes_mask : (loadEmbedSizes s).mask = s.mask := rfl
@[simp] theorem loadEmbedSizes_imgw : (loadEmbedSizes s).imgw = s.imgw := rfl
@[simp] theorem loadEmbedSizes_imgh : (loadEmbedSizes s).imgh = s.imgh := rfl
@[simp] theorem loadEmbedSizes_curx : (loadEmbedSizes s).curx = s.curx := rfl
@[simp] theorem loadEmbedSizes_cury : (loadEmbedSizes s).cury = s.cury := rfl
@[simp] theorem loadEmbedSizes_issued : (loadEmbedSizes s).issued = s.issued := rfl
@[simp] theorem loadEmbedSizes_exh : (loadEmbedSizes s).exh = s.exh := rfl
@[simp] theorem loadEmbedSizes_pxr : (loadEmbedSizes s).pxr = s.pxr := rfl
@[simp] theorem loadEmbedSizes_chr : (loadEmbedSizes s).chr = s.chr := rfl
@[simp] theorem loadEmbedSizes_byter : (loadEmbedSizes s).byter = s.byter := rfl
@[simp] theorem loadEmbedSizes_bq : (loadEmbedSizes s).bq = s.bq := rfl
@[simp] theorem loadEmbedSizes_aq : (loadEmbedSizes s).aq = s.aq := rfl
@[simp] theorem loadEmbedSizes_brem : (loadEmbedSizes s).brem = s.brem := rfl
@[simp] theorem loadEmbedSizes_cnt : (loadEmbedSizes s).cnt = s.cnt := rfl
@[simp] theorem loadEmbedSizes_comp : (loadEmbedSizes s).comp = s.comp := rfl
@[simp] theorem loadEmbedSizes_idx : (loadEmbedSizes s).idx = s.idx := rfl
@[simp] theorem loadEmbedSizes_rcnt : (loadEmbedSizes s).rcnt = s.rcnt := rfl
@[simp] theorem loadEmbedSizes_sizev : (loadEmbedSizes s).sizev = s.sizev := rfl
@[simp] theorem loadEmbedSizes_sinkopen : (loadEmbedSizes s).sinkopen = s.sinkopen := rfl
@[simp] theorem loadEmbedSizes_done : (loadEmbedSizes s).done = s.done := rfl
@[simp] theorem loadEmbedSizes_failed : (loadEmbedSizes s).failed = s.failed := rfl
@[simp] theorem loadEmbedSizes_send : (loadEmbedSizes s).send = s.send := rfl
@[simp] theorem loadEmbedSizes_namebuf : (loadEmbedSizes s).namebuf = s.namebuf := rfl
@[simp] theorem loadEmbedSizes_sizebuf : (loadEmbedSizes s).sizebuf = s.sizebuf := rfl
@[simp] theorem loadEmbedSizes_capr : (loadEmbedSizes s).capr = imageCapacity s := rfl
@[simp] theorem loadEmbedSizes_flen : (loadEmbedSizes s).flen = framedLength s.srcName s.srcData := rfl
@[simp] theorem loadEmbedSizes_status : (loadEmbedSizes s).status = s.status := rfl
@[simp] theorem loadEmbedSizes_image : (loadEmbedSizes s).image = s.image := rfl
@[simp] theorem loadEmbedSizes_srcName : (loadEmbedSizes s).srcName = s.srcName := rfl
@[simp] theorem loadEmbedSizes_srcData : (loadEmbedSizes s).srcData = s.srcData := rfl
@[simp] theorem loadEmbedSizes_answers : (loadEmbedSizes s).answers = s.answers := rfl
@[simp] theorem loadEmbedSizes_ports : (loadEmbedSizes s).ports = s.ports := rfl
@[simp] theorem loadEmbedSizes_inbox : (loadEmbedSizes s).inbox = s.inbox := rfl
@[simp] theorem loadEmbedSizes_responses : (loadEmbedSizes s).responses = s.responses := rfl
@[simp] theorem loadEmbedSizes_hung : (loadEmbedSizes s).hung = s.hung := rfl

end Sys2Proof.Machine
end

