-- ==== Sys2Proof/Laws/Ops.lean ====
section
/-! SUPPORT. For each shared operation, one lemma that says once everything it can do. -/

namespace Sys2Proof.Machine

/-! ### Sequencing -/

section
variable {α β : Type} {a : α} {b : β} {s t : State} {f : α → State → Res β} {r : Res α} {e : Fault}

@[simp] theorem Res.bind_done : (Res.done a s).bind f = f a s := rfl
@[simp] theorem Res.bind_hang : (Res.hang s : Res α).bind f = .hang s := rfl
@[simp] theorem Res.bind_fault : (Res.fault e : Res α).bind f = .fault e := rfl

theorem Res.bind_eq_done : r.bind f = .done b t ↔ ∃ a s, r = .done a s ∧ f a s = .done b t := by
  cases r <;> simp [Res.bind]

theorem Res.bind_eq_hang : r.bind f = .hang t ↔ r = .hang t ∨ ∃ a s, r = .done a s ∧ f a s = .hang t := by
  cases r <;> simp [Res.bind]

theorem Res.bind_eq_fault : r.bind f = .fault e ↔ r = .fault e ∨ ∃ a s, r = .done a s ∧ f a s = .fault e := by
  cases r <;> simp [Res.bind]

end

/-! ### Ending a command -/

section
variable {s t : State} {r : Res Answer} {f : Fault}

@[simp] theorem finish_done (a : Answer) : finish (.done a s) = .next (s.respond a) := rfl
@[simp] theorem finish_hang : finish (.hang s) = .next { s with hung := true } := rfl
@[simp] theorem finish_fault : finish (.fault f) = .fault f := rfl

/-- A command that answers a next state has responded, or hangs. -/
theorem finish_eq_next : finish r = .next t ↔
    (∃ a u, r = .done a u ∧ t = u.respond a) ∨ ∃ u, r = .hang u ∧ t = { u with hung := true } := by
  cases r <;> simp [finish, eq_comm]

theorem finish_eq_fault : finish r = .fault f ↔ r = .fault f := by
  cases r <;> simp [finish]

/-- No command is refused. -/
theorem finish_ne_refused (q : Refusal) : finish r ≠ .refused q := by
  cases r <;> simp [finish]

end

/-! ### Ports -/

section
variable {s t : State} {use : PortAnswer → PortUse} {ok : Bool}

/-- What an access that was answered leaves: its use recorded and one scheduled answer gone, nothing else. -/
theorem request_eq_done : request use s = .done ok t ↔
    (ok = true ∧ s.answers.headD .ok = .ok ∧ t = { s.logUse (use .ok) with answers := s.answers.tail }) ∨
    (ok = false ∧ s.answers.headD .ok = .fail ∧ t = { s.logUse (use .fail) with answers := s.answers.tail }) := by
  unfold request
  split <;> simp_all [eq_comm, State.logUse]

/-- What an access that is never answered leaves. -/
theorem request_eq_hang : request use s = .hang t ↔
    s.answers.headD .ok = .never ∧ t = { s.logUse (use .never) with answers := s.answers.tail } := by
  unfold request
  split <;> simp_all [eq_comm, State.logUse]

theorem request_ne_fault (f : Fault) : request use s ≠ .fault f := by
  unfold request
  split <;> simp

/-- An access whose next answer is ok. -/
theorem request_of_ok (h : s.nextAccessOk) :
    request use s = .done true { s.logUse (use .ok) with answers := s.answers.tail } :=
  request_eq_done.2 (.inl ⟨rfl, h, rfl⟩)

end

/-! ### Uses of a port: unanswered, or failed -/

@[simp] theorem PortUse.unanswered_imgGet (x y : Nat) (a : PortAnswer) :
    (PortUse.imgGet x y a).unanswered = decide (a = .never) := by cases a <;> rfl
@[simp] theorem PortUse.unanswered_imgSet (x y : Nat) (p : Pixel) (a : PortAnswer) :
    (PortUse.imgSet x y p a).unanswered = decide (a = .never) := by cases a <;> rfl
@[simp] theorem PortUse.unanswered_srcRead (i : Nat) (a : PortAnswer) :
    (PortUse.srcRead i a).unanswered = decide (a = .never) := by cases a <;> rfl
@[simp] theorem PortUse.unanswered_sinkOpen (name : List Byte) (a : PortAnswer) :
    (PortUse.sinkOpen name a).unanswered = decide (a = .never) := by cases a <;> rfl
@[simp] theorem PortUse.unanswered_sinkWrite (b : Byte) (a : PortAnswer) :
    (PortUse.sinkWrite b a).unanswered = decide (a = .never) := by cases a <;> rfl
@[simp] theorem PortUse.unanswered_sinkClose : PortUse.sinkClose.unanswered = false := rfl
@[simp] theorem PortUse.unanswered_sinkDiscard : PortUse.sinkDiscard.unanswered = false := rfl
@[simp] theorem PortUse.unanswered_srcClose : PortUse.srcClose.unanswered = false := rfl

@[simp] theorem PortUse.failedPort_imgGet (x y : Nat) (a : PortAnswer) :
    (PortUse.imgGet x y a).failedPort = if a = .fail then some .imgGet else none := by cases a <;> rfl
@[simp] theorem PortUse.failedPort_imgSet (x y : Nat) (p : Pixel) (a : PortAnswer) :
    (PortUse.imgSet x y p a).failedPort = if a = .fail then some .imgSet else none := by cases a <;> rfl
@[simp] theorem PortUse.failedPort_srcRead (i : Nat) (a : PortAnswer) :
    (PortUse.srcRead i a).failedPort = if a = .fail then some .srcRead else none := by cases a <;> rfl
@[simp] theorem PortUse.failedPort_sinkOpen (name : List Byte) (a : PortAnswer) :
    (PortUse.sinkOpen name a).failedPort = if a = .fail then some .sink else none := by cases a <;> rfl
@[simp] theorem PortUse.failedPort_sinkWrite (b : Byte) (a : PortAnswer) :
    (PortUse.sinkWrite b a).failedPort = if a = .fail then some .sink else none := by cases a <;> rfl
@[simp] theorem PortUse.failedPort_sinkClose : PortUse.sinkClose.failedPort = none := rfl
@[simp] theorem PortUse.failedPort_sinkDiscard : PortUse.sinkDiscard.failedPort = none := rfl
@[simp] theorem PortUse.failedPort_srcClose : PortUse.srcClose.failedPort = none := rfl

section
variable {s t : State} {x y : Nat} {p : Pixel}

theorem State.inImage_iff : s.inImage x y = true ↔ x < s.imgw ∧ y < s.imgh := by
  simp [State.inImage]

@[simp] theorem State.logUse_inImage (u : PortUse) : (s.logUse u).inImage x y = s.inImage x y := rfl
@[simp] theorem State.logUse_pixelAt (u : PortUse) : (s.logUse u).pixelAt x y = s.pixelAt x y := rfl
@[simp] theorem State.respond_pixelAt (a : Answer) : (s.respond a).pixelAt x y = s.pixelAt x y := rfl

/-- ImgGet: the pixel of the image or none, with nothing changed but the record and the answers. -/
theorem imgGet_eq_done {r : Option Pixel} : imgGet x y s = .done r t ↔
    s.inImage x y = true ∧
    ((r = some (s.pixelAt x y) ∧ s.answers.headD .ok = .ok ∧
        t = { s.logUse (.imgGet x y .ok) with answers := s.answers.tail }) ∨
      (r = none ∧ s.answers.headD .ok = .fail ∧
        t = { s.logUse (.imgGet x y .fail) with answers := s.answers.tail })) := by
  unfold imgGet
  split
  · rename_i hin
    simp only [Res.bind_eq_done, request_eq_done, hin, true_and, Res.done.injEq]
    constructor
    · rintro ⟨ok, u, (⟨rfl, h, rfl⟩ | ⟨rfl, h, rfl⟩), rfl, rfl⟩
      · exact .inl ⟨rfl, h, rfl⟩
      · exact .inr ⟨rfl, h, rfl⟩
    · rintro (⟨rfl, h, rfl⟩ | ⟨rfl, h, rfl⟩)
      · exact ⟨true, _, .inl ⟨rfl, h, rfl⟩, rfl, rfl⟩
      · exact ⟨false, _, .inr ⟨rfl, h, rfl⟩, rfl, rfl⟩
  · rename_i hin; simp [hin]

theorem imgGet_eq_hang : imgGet x y s = .hang t ↔
    s.inImage x y = true ∧ s.answers.headD .ok = .never ∧
      t = { s.logUse (.imgGet x y .never) with answers := s.answers.tail } := by
  unfold imgGet
  split <;> rename_i hin <;> simp [hin, Res.bind_eq_hang, request_eq_hang]

theorem imgGet_eq_fault {f : Fault} : imgGet x y s = .fault f ↔ s.inImage x y = false ∧ f = .imageAddress := by
  unfold imgGet
  cases hin : s.inImage x y
  · simpa using eq_comm
  · simp [Res.bind_eq_fault, request_ne_fault]

/-- ImgSet: on ok the pixel is written, on fail the image is unchanged. -/
theorem imgSet_eq_done {ok : Bool} : imgSet x y p s = .done ok t ↔
    s.inImage x y = true ∧
    ((ok = true ∧ s.answers.headD .ok = .ok ∧
        t = { (s.setPixel x y p).logUse (.imgSet x y p .ok) with answers := s.answers.tail }) ∨
      (ok = false ∧ s.answers.headD .ok = .fail ∧
        t = { s.logUse (.imgSet x y p .fail) with answers := s.answers.tail })) := by
  unfold imgSet
  split
  · rename_i hin
    simp only [Res.bind_eq_done, request_eq_done, hin, true_and, Res.done.injEq]
    constructor
    · rintro ⟨ok', u, (⟨rfl, h, rfl⟩ | ⟨rfl, h, rfl⟩), rfl, rfl⟩
      · exact .inl ⟨rfl, h, rfl⟩
      · exact .inr ⟨rfl, h, rfl⟩
    · rintro (⟨rfl, h, rfl⟩ | ⟨rfl, h, rfl⟩)
      · exact ⟨true, _, .inl ⟨rfl, h, rfl⟩, rfl, rfl⟩
      · exact ⟨false, _, .inr ⟨rfl, h, rfl⟩, rfl, rfl⟩
  · rename_i hin; simp [hin]

theorem imgSet_eq_hang : imgSet x y p s = .hang t ↔
    s.inImage x y = true ∧ s.answers.headD .ok = .never ∧
      t = { s.logUse (.imgSet x y p .never) with answers := s.answers.tail } := by
  unfold imgSet
  split <;> rename_i hin <;> simp [hin, Res.bind_eq_hang, request_eq_hang]

theorem imgSet_eq_fault {f : Fault} : imgSet x y p s = .fault f ↔ s.inImage x y = false ∧ f = .imageAddress := by
  unfold imgSet
  cases hin : s.inImage x y
  · simpa using eq_comm
  · simp [Res.bind_eq_fault, request_ne_fault]

end

section
variable {s t : State}

/-- What SrcRead answers when it does not fail (20_memory.md R56). -/
def sourceByteAt (data : List Byte) (i : Nat) : SourceByte :=
  match data[i]? with
  | some b => .byte b
  | none => .streamEnd

/-- SrcRead: nothing changes but the record and the answers. -/
theorem srcRead_eq_done {i : Nat} {r : SourceByte} : srcRead i s = .done r t ↔
    (r = sourceByteAt s.srcData i ∧ s.answers.headD .ok = .ok ∧
        t = { s.logUse (.srcRead i .ok) with answers := s.answers.tail }) ∨
      (r = .failed ∧ s.answers.headD .ok = .fail ∧
        t = { s.logUse (.srcRead i .fail) with answers := s.answers.tail }) := by
  unfold srcRead
  simp only [Res.bind_eq_done, request_eq_done, Res.done.injEq]
  constructor
  · rintro ⟨ok', u, (⟨rfl, h, rfl⟩ | ⟨rfl, h, rfl⟩), rfl, rfl⟩
    · exact .inl ⟨rfl, h, rfl⟩
    · exact .inr ⟨rfl, h, rfl⟩
  · rintro (⟨rfl, h, rfl⟩ | ⟨rfl, h, rfl⟩)
    · exact ⟨true, _, .inl ⟨rfl, h, rfl⟩, rfl, rfl⟩
    · exact ⟨false, _, .inr ⟨rfl, h, rfl⟩, rfl, rfl⟩

theorem srcRead_eq_hang {i : Nat} : srcRead i s = .hang t ↔ s.answers.headD .ok = .never ∧
    t = { s.logUse (.srcRead i .never) with answers := s.answers.tail } := by
  simp [srcRead, Res.bind_eq_hang, request_eq_hang]

theorem srcRead_ne_fault (i : Nat) (f : Fault) : srcRead i s ≠ .fault f := by
  simp [srcRead, Res.bind_eq_fault, request_ne_fault]

/-- Releasing the sink closes it when it is open, and does nothing else. -/
theorem State.releaseSink_cases :
    (s.sinkopen = true ∧ s.releaseSink = { s.sinkClose with sinkopen := false }) ∨
      (s.sinkopen = false ∧ s.releaseSink = s) := by
  unfold State.releaseSink
  cases h : s.sinkopen <;> simp

@[simp] theorem State.releaseSink_sinkopen : s.releaseSink.sinkopen = false := by
  rcases s.releaseSink_cases with ⟨_, h⟩ | ⟨hclosed, h⟩
  · rw [h]
  · rw [h, hclosed]

/-- The trace grows by the event of each use of a port. -/
@[simp] theorem State.trace_logUse (u : PortUse) : (s.logUse u).trace = s.trace ++ u.event.toList := by
  cases h : u.event <;> simp [State.trace, State.logUse, List.filterMap_append, h]

@[simp] theorem State.trace_respond (a : Answer) : (s.respond a).trace = s.trace := rfl

/-- An illegal word changes STATUS and adds its response, nothing else (60_exceptions.md R217). -/
theorem illegalCommand_eq (w : Word) : illegalCommand w s =
    { s with
      status := statusWord .illegalCommand none false
      responses := s.responses ++ [{ code := .illegalCommand, value := (imm24Field w).toNat }] } := rfl

end

end Sys2Proof.Machine
end

