-- ==== Sys2Proof/Laws/Steps.lean ====
section
/-! SUPPORT. What each branching command step can do, said once: if it answers, one of the listed cases holds; if it
hangs, what state it leaves; and when it faults. The steps without a branch (CINIT, FINIT, EXPB, CAP and the loads) are
equations by definition. -/

namespace Sys2Proof.Machine

variable {s t : State} {a : Answer} {f : Fault}

/-! ### The cursor -/

@[simp] theorem yieldBudget_wadv : yieldBudget true s = slotCount s.mask := rfl
@[simp] theorem yieldBudget_radv : yieldBudget false s = s.brem := rfl
@[simp] theorem exhaustedBudget_wadv : exhaustedBudget true s = 0 := rfl
@[simp] theorem exhaustedBudget_radv : exhaustedBudget false s = s.brem := rfl

/-- The state after ImgGet at a coordinate was answered. -/
def State.afterGet (s : State) (x y : Nat) (ans : PortAnswer) : State :=
  { s.logUse (.imgGet x y ans) with answers := s.answers.tail }

/-- The state after ImgSet was answered ok: the pixel is committed. -/
def State.afterCommit (s : State) (x y : Nat) (p : Pixel) : State :=
  { (s.setPixel x y p).logUse (.imgSet x y p .ok) with answers := s.answers.tail }

/-- The state after ImgSet was answered fail or not at all. -/
def State.afterRefusedSet (s : State) (x y : Nat) (p : Pixel) (ans : PortAnswer) : State :=
  { s.logUse (.imgSet x y p ans) with answers := s.answers.tail }

theorem firstAdvance_cases {reload : Bool} (h : firstAdvance reload s = .done a t) :
    ((s.imgw = 0 ∨ s.imgh = 0) ∧ a = exhaustedAnswer ∧
      t = { s with exh := true, brem := exhaustedBudget reload s }) ∨
    (s.inImage 0 0 = true ∧ s.answers.headD .ok = .ok ∧ a = okWith (s.pixelAt 0 0).toNat ∧
      t = { s.afterGet 0 0 .ok with
            pxr := s.pixelAt 0 0, issued := true, brem := yieldBudget reload s }) ∨
    (s.inImage 0 0 = true ∧ s.answers.headD .ok = .fail ∧ a = ioFailure .imgGet 0 ∧ t = s.afterGet 0 0 .fail) := by
  unfold firstAdvance at h
  split at h
  · rename_i hempty
    simp only [Res.done.injEq] at h
    exact .inl ⟨hempty, h.1.symm, h.2.symm⟩
  · obtain ⟨r, u, hget, hrest⟩ := Res.bind_eq_done.1 h
    obtain ⟨hin, ⟨rfl, hok, rfl⟩ | ⟨rfl, hfail, rfl⟩⟩ := imgGet_eq_done.1 hget
    · simp only [Res.done.injEq] at hrest
      exact .inr (.inl ⟨hin, hok, hrest.1.symm, hrest.2.symm⟩)
    · simp only [Res.done.injEq] at hrest
      exact .inr (.inr ⟨hin, hfail, hrest.1.symm, hrest.2.symm⟩)

theorem firstAdvance_hang {reload : Bool} (h : firstAdvance reload s = .hang t) :
    s.inImage 0 0 = true ∧ s.answers.headD .ok = .never ∧ t = s.afterGet 0 0 .never := by
  unfold firstAdvance at h
  split at h
  · simp at h
  · rcases Res.bind_eq_hang.1 h with hget | ⟨r, u, hget, hrest⟩
    · exact imgGet_eq_hang.1 hget
    · cases r <;> simp at hrest

/-- The first advance never leaves the image. -/
theorem firstAdvance_ne_fault {reload : Bool} : firstAdvance reload s ≠ .fault f := by
  intro h
  unfold firstAdvance at h
  split at h
  · simp at h
  · rename_i hne
    rcases Res.bind_eq_fault.1 h with hget | ⟨r, u, hget, hrest⟩
    · have hout := (imgGet_eq_fault.1 hget).1
      have hin : s.inImage 0 0 = true := State.inImage_iff.2 (by omega)
      rw [hin] at hout; cases hout
    · cases r <;> simp at hrest

theorem moveAndRead_cases {reload : Bool} (h : moveAndRead reload s = .done a t) :
    (s.imgh ≤ (nextPosition s).2 ∧ a = exhaustedAnswer ∧
      t = { s with
            curx := (nextPosition s).1, cury := (nextPosition s).2, exh := true,
            brem := exhaustedBudget reload s }) ∨
    (s.inImage (nextPosition s).1 (nextPosition s).2 = true ∧ s.answers.headD .ok = .ok ∧
      a = okWith (s.pixelAt (nextPosition s).1 (nextPosition s).2).toNat ∧
      t = { s.afterGet (nextPosition s).1 (nextPosition s).2 .ok with
            curx := (nextPosition s).1, cury := (nextPosition s).2,
            pxr := s.pixelAt (nextPosition s).1 (nextPosition s).2, brem := yieldBudget reload s }) ∨
    (s.inImage (nextPosition s).1 (nextPosition s).2 = true ∧ s.answers.headD .ok = .fail ∧
      a = ioFailure .imgGet 0 ∧ t = s.afterGet (nextPosition s).1 (nextPosition s).2 .fail) := by
  unfold moveAndRead at h
  simp only at h
  split at h
  · rename_i hend
    simp only [Res.done.injEq] at h
    exact .inl ⟨hend, h.1.symm, h.2.symm⟩
  · obtain ⟨r, u, hget, hrest⟩ := Res.bind_eq_done.1 h
    obtain ⟨hin, ⟨rfl, hok, rfl⟩ | ⟨rfl, hfail, rfl⟩⟩ := imgGet_eq_done.1 hget
    · simp only [Res.done.injEq] at hrest
      exact .inr (.inl ⟨hin, hok, hrest.1.symm, hrest.2.symm⟩)
    · simp only [Res.done.injEq] at hrest
      exact .inr (.inr ⟨hin, hfail, hrest.1.symm, hrest.2.symm⟩)

theorem moveAndRead_hang {reload : Bool} (h : moveAndRead reload s = .hang t) :
    s.inImage (nextPosition s).1 (nextPosition s).2 = true ∧ s.answers.headD .ok = .never ∧
      t = s.afterGet (nextPosition s).1 (nextPosition s).2 .never := by
  unfold moveAndRead at h
  simp only at h
  split at h
  · simp at h
  · rcases Res.bind_eq_hang.1 h with hget | ⟨r, u, hget, hrest⟩
    · exact imgGet_eq_hang.1 hget
    · cases r <;> simp at hrest

/-- The move faults only where the next position leaves the image sideways. -/
theorem moveAndRead_fault {reload : Bool} (h : moveAndRead reload s = .fault f) :
    (nextPosition s).2 < s.imgh ∧ s.inImage (nextPosition s).1 (nextPosition s).2 = false ∧ f = .imageAddress := by
  unfold moveAndRead at h
  simp only at h
  split at h
  · simp at h
  · rename_i hrow
    rcases Res.bind_eq_fault.1 h with hget | ⟨r, u, hget, hrest⟩
    · exact ⟨by omega, imgGet_eq_fault.1 hget⟩
    · cases r <;> simp at hrest

theorem wadvStep_cases (h : wadvStep s = .done a t) :
    (s.exh = true ∧ a = exhaustedAnswer ∧ t = s) ∨
    (s.exh = false ∧ s.issued = false ∧ firstAdvance true s = .done a t) ∨
    (s.exh = false ∧ s.issued = true ∧ s.inImage s.curx s.cury = true ∧ s.answers.headD .ok = .ok ∧
      moveAndRead true (s.afterCommit s.curx s.cury s.pxr) = .done a t) ∨
    (s.exh = false ∧ s.issued = true ∧ s.inImage s.curx s.cury = true ∧ s.answers.headD .ok = .fail ∧
      a = ioFailure .imgSet 0 ∧ t = s.afterRefusedSet s.curx s.cury s.pxr .fail) := by
  unfold wadvStep at h
  split at h
  · rename_i hexh
    simp only [Res.done.injEq] at h
    exact .inl ⟨hexh, h.1.symm, h.2.symm⟩
  · rename_i hexh
    simp only [Bool.not_eq_true] at hexh
    split at h
    · rename_i hissued
      obtain ⟨ok, u, hset, hrest⟩ := Res.bind_eq_done.1 h
      obtain ⟨hin, ⟨rfl, hok, rfl⟩ | ⟨rfl, hfail, rfl⟩⟩ := imgSet_eq_done.1 hset
      · simp only [if_true] at hrest
        exact .inr (.inr (.inl ⟨hexh, hissued, hin, hok, hrest⟩))
      · simp only [Bool.false_eq_true, if_false, Res.done.injEq] at hrest
        exact .inr (.inr (.inr ⟨hexh, hissued, hin, hfail, hrest.1.symm, hrest.2.symm⟩))
    · rename_i hissued
      exact .inr (.inl ⟨hexh, by simpa using hissued, h⟩)

theorem wadvStep_hang (h : wadvStep s = .hang t) :
    s.exh = false ∧
    ((s.issued = false ∧ firstAdvance true s = .hang t) ∨
      (s.issued = true ∧ s.inImage s.curx s.cury = true ∧ s.answers.headD .ok = .never ∧
        t = s.afterRefusedSet s.curx s.cury s.pxr .never) ∨
      (s.issued = true ∧ s.inImage s.curx s.cury = true ∧ s.answers.headD .ok = .ok ∧
        moveAndRead true (s.afterCommit s.curx s.cury s.pxr) = .hang t)) := by
  unfold wadvStep at h
  split at h
  · simp at h
  · rename_i hexh
    refine ⟨by simpa using hexh, ?_⟩
    split at h
    · rename_i hissued
      rcases Res.bind_eq_hang.1 h with hset | ⟨ok, u, hset, hrest⟩
      · exact .inr (.inl ⟨hissued, imgSet_eq_hang.1 hset⟩)
      · obtain ⟨hin, ⟨rfl, hok, rfl⟩ | ⟨rfl, hfail, rfl⟩⟩ := imgSet_eq_done.1 hset
        · simp only [if_true] at hrest
          exact .inr (.inr ⟨hissued, hin, hok, hrest⟩)
        · simp at hrest
    · rename_i hissued
      exact .inl ⟨by simpa using hissued, h⟩

theorem radvStep_cases (h : radvStep s = .done a t) :
    (s.exh = true ∧ a = exhaustedAnswer ∧ t = s) ∨
    (s.exh = false ∧ s.issued = false ∧ firstAdvance false s = .done a t) ∨
    (s.exh = false ∧ s.issued = true ∧ moveAndRead false s = .done a t) := by
  unfold radvStep at h
  split at h
  · rename_i hexh
    simp only [Res.done.injEq] at h
    exact .inl ⟨hexh, h.1.symm, h.2.symm⟩
  · rename_i hexh
    split at h
    · rename_i hissued
      exact .inr (.inr ⟨by simpa using hexh, hissued, h⟩)
    · rename_i hissued
      exact .inr (.inl ⟨by simpa using hexh, by simpa using hissued, h⟩)

theorem radvStep_hang (h : radvStep s = .hang t) :
    s.exh = false ∧
    ((s.issued = false ∧ firstAdvance false s = .hang t) ∨ (s.issued = true ∧ moveAndRead false s = .hang t)) := by
  unfold radvStep at h
  split at h
  · simp at h
  · rename_i hexh
    refine ⟨by simpa using hexh, ?_⟩
    split at h
    · rename_i hissued; exact .inr ⟨hissued, h⟩
    · rename_i hissued; exact .inl ⟨by simpa using hissued, h⟩

/-! ### The bit path -/

theorem ldremStep_cases {imm8 : Byte} (h : ldremStep imm8 s = .done a t) :
    (24 < imm8.toNat ∧ a = { code := .illegalOperand, value := imm8.toNat } ∧ t = s) ∨
    (imm8.toNat ≤ 24 ∧ a = okWith imm8.toNat ∧ t = { s with brem := imm8.toNat }) := by
  unfold ldremStep byteOperand maxBudget at h
  split at h <;> simp only [Res.done.injEq] at h
  · exact .inl ⟨‹_›, h.1.symm, h.2.symm⟩
  · exact .inr ⟨by omega, h.1.symm, h.2.symm⟩

theorem pembStep_cases (h : pembStep s = .done a t) :
    (slotCount s.mask < s.brem ∧ a = { code := .illegalOperand, value := s.brem } ∧ t = s) ∨
    (s.brem ≤ slotCount s.mask ∧ a = okWith (min s.bq.length s.brem) ∧
      t = { s with
            pxr := (embedPx s.pxr s.bq s.mask s.brem).pixel
            bq := s.bq.drop (min s.bq.length s.brem)
            brem := s.brem - min s.bq.length s.brem
            cnt := min s.bq.length s.brem }) := by
  unfold pembStep at h
  split at h <;> simp only [Res.done.injEq] at h
  · exact .inl ⟨‹_›, h.1.symm, h.2.symm⟩
  · exact .inr ⟨by omega, h.1.symm, h.2.symm⟩

theorem pextStep_cases (h : pextStep s = .done a t) :
    (31 < s.aq.length + slotCount s.mask ∧ a = { code := .queueFull, value := s.aq.length } ∧ t = s) ∨
    (s.aq.length + slotCount s.mask ≤ 31 ∧ a = okWith (s.aq ++ extract s.pxr s.mask).length ∧
      t = { s with aq := s.aq ++ extract s.pxr s.mask }) := by
  unfold pextStep Config.aqCap at h
  split at h <;> simp only [Res.done.injEq] at h
  · exact .inl ⟨‹_›, h.1.symm, h.2.symm⟩
  · exact .inr ⟨by omega, h.1.symm, h.2.symm⟩

theorem packbStep_cases (h : packbStep s = .done a t) :
    (s.aq.length < 8 ∧ a = { code := .queueShort, value := s.aq.length } ∧ t = s) ∨
    (8 ≤ s.aq.length ∧ a = okWith (pack (s.aq.take 8)).toNat ∧
      t = { s with byter := pack (s.aq.take 8), aq := s.aq.drop 8 }) := by
  unfold packbStep at h
  split at h <;> simp only [Res.done.injEq] at h
  · exact .inl ⟨‹_›, h.1.symm, h.2.symm⟩
  · exact .inr ⟨by omega, h.1.symm, h.2.symm⟩

/-! ### The framer -/

theorem emitFrom_cases {text : List Byte} {next : Component} (h : emitFrom text next s = .done a t) :
    (∃ b, text[s.idx]? = some b ∧ a = okWith b.toNat ∧ t = { s with idx := s.idx + 1, byter := b }) ∨
    (text.length ≤ s.idx ∧ a = okWith 0 ∧ t = { s with comp := next, idx := 0, byter := 0x00#8 }) := by
  unfold emitFrom emitByte at h
  split at h <;> simp only [Res.done.injEq] at h
  · rename_i b hb
    exact .inl ⟨b, hb, h.1.symm, h.2.symm⟩
  · rename_i hnone
    exact .inr ⟨by simpa using hnone, h.1.symm, h.2.symm⟩

/-- The state after SrcRead. -/
def State.afterRead (s : State) (ans : PortAnswer) : State :=
  { s.logUse (.srcRead s.rcnt ans) with answers := s.answers.tail }

theorem fnextStep_cases (h : fnextStep s = .done a t) :
    (s.send = true ∧ a = endOfStreamAnswer s ∧ t = s) ∨
    (s.send = false ∧ s.comp = .fileName ∧ emitFrom s.srcName .fileSize s = .done a t) ∨
    (s.send = false ∧ s.comp = .fileSize ∧ emitFrom (dec s.srcData.length) .rawData s = .done a t) ∨
    (s.send = false ∧ s.comp = .rawData ∧ s.answers.headD .ok = .fail ∧ a = ioFailure .srcRead s.rcnt ∧
      t = s.afterRead .fail) ∨
    (s.send = false ∧ s.comp = .rawData ∧ s.answers.headD .ok = .ok ∧ s.srcData.length ≤ s.rcnt ∧
      a = endOfStreamAnswer s ∧ t = { s.afterRead .ok with send := true }) ∨
    (∃ b, s.send = false ∧ s.comp = .rawData ∧ s.answers.headD .ok = .ok ∧ s.srcData[s.rcnt]? = some b ∧
      a = okWith b.toNat ∧ t = { s.afterRead .ok with rcnt := s.rcnt + 1, byter := b }) := by
  unfold fnextStep at h
  split at h
  · rename_i hsend
    simp only [Res.done.injEq] at h
    exact .inl ⟨hsend, h.1.symm, h.2.symm⟩
  · rename_i hsend
    simp only [Bool.not_eq_true] at hsend
    split at h
    · rename_i hc; exact .inr (.inl ⟨hsend, hc, h⟩)
    · rename_i hc; exact .inr (.inr (.inl ⟨hsend, hc, h⟩))
    · rename_i hc
      obtain ⟨r, u, hread, hrest⟩ := Res.bind_eq_done.1 h
      rcases srcRead_eq_done.1 hread with ⟨rfl, hok, rfl⟩ | ⟨rfl, hfail, rfl⟩
      · cases hb : s.srcData[s.rcnt]? with
        | none =>
          simp only [sourceByteAt, hb, Res.done.injEq] at hrest
          exact .inr (.inr (.inr (.inr (.inl
            ⟨hsend, hc, hok, by simpa using hb, hrest.1.symm, hrest.2.symm⟩))))
        | some b =>
          simp only [sourceByteAt, hb, emitByte, Res.done.injEq] at hrest
          exact .inr (.inr (.inr (.inr (.inr
            ⟨b, hsend, hc, hok, rfl, hrest.1.symm, hrest.2.symm⟩))))
      · simp only [Res.done.injEq] at hrest
        exact .inr (.inr (.inr (.inl ⟨hsend, hc, hfail, hrest.1.symm, hrest.2.symm⟩)))

theorem fnextStep_hang (h : fnextStep s = .hang t) :
    s.send = false ∧ s.comp = .rawData ∧ s.answers.headD .ok = .never ∧ t = s.afterRead .never := by
  unfold fnextStep emitFrom emitByte at h
  split at h
  · simp at h
  · rename_i hsend
    split at h
    · split at h <;> simp at h
    · split at h <;> simp at h
    · rename_i hc
      rcases Res.bind_eq_hang.1 h with hread | ⟨r, u, hread, hrest⟩
      · exact ⟨by simpa using hsend, hc, srcRead_eq_hang.1 hread⟩
      · cases r <;> simp at hrest

theorem fnextStep_ne_fault : fnextStep s ≠ .fault f := by
  intro h
  unfold fnextStep emitFrom emitByte at h
  split at h
  · simp at h
  · split at h
    · split at h <;> simp at h
    · split at h <;> simp at h
    · rcases Res.bind_eq_fault.1 h with hread | ⟨r, u, hread, hrest⟩
      · exact srcRead_ne_fault _ _ hread
      · cases r <;> simp at hrest

/-- The state after SinkOpen. -/
def State.afterOpen (s : State) (ans : PortAnswer) : State :=
  { s.logUse (.sinkOpen s.namebuf ans) with answers := s.answers.tail }

/-- The state after SinkWrite. -/
def State.afterWrite (s : State) (ans : PortAnswer) : State :=
  { s.logUse (.sinkWrite s.byter ans) with answers := s.answers.tail }

theorem fputName_cases (h : fputName s = .done a t) :
    (s.byter ≠ 0x00#8 ∧ a = okWith s.byter.toNat ∧ t = { s with namebuf := s.namebuf ++ [s.byter] }) ∨
    (s.byter = 0x00#8 ∧ s.answers.headD .ok = .ok ∧ a = okWith 0 ∧
      t = { s.afterOpen .ok with sinkopen := true, comp := .fileSize }) ∨
    (s.byter = 0x00#8 ∧ s.answers.headD .ok = .fail ∧ a = ioFailure .sink 0 ∧ t = s.afterOpen .fail) := by
  unfold fputName at h
  split at h
  · rename_i hb
    simp only [Res.done.injEq] at h
    exact .inl ⟨hb, h.1.symm, h.2.symm⟩
  · rename_i hb
    have hz : s.byter = 0x00#8 := Decidable.not_not.1 hb
    obtain ⟨ok, u, hopen, hrest⟩ := Res.bind_eq_done.1 h
    rcases request_eq_done.1 hopen with ⟨rfl, hok, rfl⟩ | ⟨rfl, hfail, rfl⟩
    · simp only [if_true, Res.done.injEq] at hrest
      exact .inr (.inl ⟨hz, hok, hrest.1.symm, hrest.2.symm⟩)
    · simp only [Bool.false_eq_true, if_false, Res.done.injEq] at hrest
      exact .inr (.inr ⟨hz, hfail, hrest.1.symm, hrest.2.symm⟩)

theorem fputSize_cases (h : fputSize s = .done a t) :
    (s.byter ≠ 0x00#8 ∧ a = okWith s.byter.toNat ∧ t = { s with sizebuf := s.sizebuf ++ [s.byter] }) ∨
    (s.byter = 0x00#8 ∧ parseSize s.sizebuf = none ∧ s.sinkopen = true ∧ a = noSecretAnswer ∧
      t = { s.sinkDiscard with sinkopen := false, failed := true }) ∨
    (s.byter = 0x00#8 ∧ parseSize s.sizebuf = none ∧ s.sinkopen = false ∧ a = noSecretAnswer ∧
      t = { s with failed := true }) ∨
    (∃ v, s.byter = 0x00#8 ∧ parseSize s.sizebuf = some v ∧ a = okWith 0 ∧
      t = { s with sizev := v, comp := .rawData }) := by
  unfold fputSize at h
  split at h
  · rename_i hb
    simp only [Res.done.injEq] at h
    exact .inl ⟨hb, h.1.symm, h.2.symm⟩
  · rename_i hb
    have hz : s.byter = 0x00#8 := Decidable.not_not.1 hb
    split at h
    · rename_i hp
      split at h
      · rename_i hopen
        simp only [Res.done.injEq] at h
        exact .inr (.inl ⟨hz, hp, hopen, h.1.symm, h.2.symm⟩)
      · rename_i hopen
        simp only [Res.done.injEq] at h
        exact .inr (.inr (.inl ⟨hz, hp, by simpa using hopen, h.1.symm, h.2.symm⟩))
    · rename_i v hp
      simp only [Res.done.injEq] at h
      exact .inr (.inr (.inr ⟨v, hz, hp, h.1.symm, h.2.symm⟩))

theorem fputRaw_cases (h : fputRaw s = .done a t) :
    (s.answers.headD .ok = .ok ∧ s.rcnt + 1 = s.sizev ∧ a = { code := .done, value := s.rcnt + 1 } ∧
      t = { (s.afterWrite .ok).sinkClose with rcnt := s.rcnt + 1, sinkopen := false, done := true }) ∨
    (s.answers.headD .ok = .ok ∧ s.rcnt + 1 ≠ s.sizev ∧ a = okWith s.byter.toNat ∧
      t = { s.afterWrite .ok with rcnt := s.rcnt + 1 }) ∨
    (s.answers.headD .ok = .fail ∧ a = ioFailure .sink s.rcnt ∧ t = s.afterWrite .fail) := by
  unfold fputRaw at h
  obtain ⟨ok, u, hwrite, hrest⟩ := Res.bind_eq_done.1 h
  rcases request_eq_done.1 hwrite with ⟨rfl, hok, rfl⟩ | ⟨rfl, hfail, rfl⟩
  · simp only [if_true] at hrest
    split at hrest
    · rename_i hlast
      simp only [Res.done.injEq] at hrest
      exact .inl ⟨hok, hlast, hrest.1.symm, hrest.2.symm⟩
    · rename_i hlast
      simp only [Res.done.injEq] at hrest
      exact .inr (.inl ⟨hok, hlast, hrest.1.symm, hrest.2.symm⟩)
  · simp only [Bool.false_eq_true, if_false, Res.done.injEq] at hrest
    exact .inr (.inr ⟨hfail, hrest.1.symm, hrest.2.symm⟩)

theorem fputStep_cases (h : fputStep s = .done a t) :
    (s.done = true ∧ a = { code := .done, value := s.rcnt } ∧ t = s) ∨
    (s.done = false ∧ s.failed = true ∧ a = noSecretAnswer ∧ t = s) ∨
    (s.done = false ∧ s.failed = false ∧ s.comp = .fileName ∧ fputName s = .done a t) ∨
    (s.done = false ∧ s.failed = false ∧ s.comp = .fileSize ∧ fputSize s = .done a t) ∨
    (s.done = false ∧ s.failed = false ∧ s.comp = .rawData ∧ fputRaw s = .done a t) := by
  unfold fputStep at h
  split at h
  · rename_i hdone
    simp only [Res.done.injEq] at h
    exact .inl ⟨hdone, h.1.symm, h.2.symm⟩
  · rename_i hdone
    simp only [Bool.not_eq_true] at hdone
    split at h
    · rename_i hfailed
      simp only [Res.done.injEq] at h
      exact .inr (.inl ⟨hdone, hfailed, h.1.symm, h.2.symm⟩)
    · rename_i hfailed
      simp only [Bool.not_eq_true] at hfailed
      split at h <;> rename_i hc
      · exact .inr (.inr (.inl ⟨hdone, hfailed, hc, h⟩))
      · exact .inr (.inr (.inr (.inl ⟨hdone, hfailed, hc, h⟩)))
      · exact .inr (.inr (.inr (.inr ⟨hdone, hfailed, hc, h⟩)))

theorem fputStep_hang (h : fputStep s = .hang t) :
    s.done = false ∧ s.failed = false ∧ s.answers.headD .ok = .never ∧
      ((s.comp = .fileName ∧ s.byter = 0x00#8 ∧ t = s.afterOpen .never) ∨
        (s.comp = .rawData ∧ t = s.afterWrite .never)) := by
  unfold fputStep at h
  split at h
  · simp at h
  · rename_i hdone
    split at h
    · simp at h
    · rename_i hfailed
      refine ⟨by simpa using hdone, by simpa using hfailed, ?_⟩
      split at h <;> rename_i hc
      · unfold fputName at h
        split at h
        · simp at h
        · rename_i hb
          rcases Res.bind_eq_hang.1 h with hopen | ⟨ok, u, hopen, hrest⟩
          · obtain ⟨hnever, rfl⟩ := request_eq_hang.1 hopen
            exact ⟨hnever, .inl ⟨hc, Decidable.not_not.1 hb, rfl⟩⟩
          · cases ok <;> simp at hrest
      · unfold fputSize at h
        split at h
        · simp at h
        · split at h
          · split at h <;> simp at h
          · simp at h
      · rcases Res.bind_eq_hang.1 h with hwrite | ⟨ok, u, hwrite, hrest⟩
        · obtain ⟨hnever, rfl⟩ := request_eq_hang.1 hwrite
          exact ⟨hnever, .inr ⟨hc, rfl⟩⟩
        · cases ok
          · simp at hrest
          · simp only [if_true] at hrest
            split at hrest <;> simp at hrest

theorem fputStep_ne_fault : fputStep s ≠ .fault f := by
  intro h
  unfold fputStep at h
  split at h
  · simp at h
  · split at h
    · simp at h
    · split at h
      · unfold fputName at h
        split at h
        · simp at h
        · rcases Res.bind_eq_fault.1 h with hopen | ⟨ok, u, hopen, hrest⟩
          · exact request_ne_fault _ hopen
          · cases ok <;> simp at hrest
      · unfold fputSize at h
        split at h
        · simp at h
        · split at h
          · split at h <;> simp at h
          · simp at h
      · rcases Res.bind_eq_fault.1 h with hwrite | ⟨ok, u, hwrite, hrest⟩
        · exact request_ne_fault _ hwrite
        · cases ok
          · simp at hrest
          · simp only [if_true] at hrest
            split at hrest <;> simp at hrest

end Sys2Proof.Machine
end

