-- ==== Sys2Proof/Laws/Loops.lean ====
section
/-! SUPPORT. The induction over the loops of EMBED and RETRIEVE, packaged once: if every step of the loop keeps a
property of states when it answers, and leaves another when it hangs, so does the whole operation. -/

namespace Sys2Proof.Machine

/-- `P` holds of the state a result leaves when it answers, `H` when it hangs. -/
def Res.leaves {α : Type} (P H : State → Prop) : Res α → Prop
  | .done _ t => P t
  | .hang t => H t
  | .fault _ => True

/-- From `P` the part of a command keeps `P` when it answers and leaves `H` when it hangs; `Keeps P P` where both are
one property. -/
def Keeps {α : Type} (P H : State → Prop) (part : State → Res α) : Prop := ∀ s, P s → (part s).leaves P H

section
variable {P H : State → Prop} {α β : Type}

@[simp] theorem Res.leaves_done {a : α} {t : State} : (Res.done a t).leaves P H ↔ P t := Iff.rfl
@[simp] theorem Res.leaves_hang {t : State} : (Res.hang t : Res α).leaves P H ↔ H t := Iff.rfl
@[simp] theorem Res.leaves_fault {f : Fault} : (Res.fault f : Res α).leaves P H := trivial

theorem Res.leaves_bind {r : Res α} {g : α → State → Res β} (hr : r.leaves P H)
    (hg : ∀ a t, P t → (g a t).leaves P H) : (r.bind g).leaves P H := by
  cases r with
  | done a t => exact hg a t hr
  | hang t => exact hr
  | fault f => trivial

theorem keeps_iff {part : State → Res α} : Keeps P H part ↔
    ∀ s, P s → (∀ a t, part s = .done a t → P t) ∧ ∀ t, part s = .hang t → H t := by
  constructor
  · intro h s hs
    have := h s hs
    constructor <;> intros <;> simp_all
  · intro h s hs
    cases hp : part s with
    | done a t => exact (h s hs).1 a t hp
    | hang t => exact (h s hs).2 t hp
    | fault f => trivial

end

section
variable {P H : State → Prop}

theorem requestPixel_keeps (hwadv : Keeps P H wadvStep) : Keeps P H requestPixel := by
  intro s hs
  unfold requestPixel
  split
  · exact hwadv s hs
  · exact hs

theorem drainQueue_keeps (hwadv : Keeps P H wadvStep) (hpemb : Keeps P H pembStep) (k : Nat) :
    Keeps P H (drainQueue k) := by
  induction k with
  | zero => intro s _; trivial
  | succ k ih =>
    intro s hs
    unfold drainQueue
    split
    · exact hs
    · refine Res.leaves_bind (requestPixel_keeps hwadv s hs) fun a t ht => ?_
      split
      · exact ht
      · exact Res.leaves_bind (hpemb t ht) fun _ u hu => ih u hu

theorem embedLoop_keeps (hfnext : Keeps P H fnextStep) (hexpb : Keeps P H expbStep) (hwadv : Keeps P H wadvStep)
    (hpemb : Keeps P H pembStep) (k : Nat) : Keeps P H (embedLoop k) := by
  induction k with
  | zero => intro s _; trivial
  | succ k ih =>
    intro s hs
    unfold embedLoop
    refine Res.leaves_bind (hfnext s hs) fun r t ht => ?_
    split
    · exact ht
    · split
      · exact ht
      · refine Res.leaves_bind (hexpb t ht) fun _ u hu => ?_
        refine Res.leaves_bind (drainQueue_keeps hwadv hpemb _ u hu) fun e v hv => ?_
        cases e with
        | some a => exact hv
        | none => exact ih v hv

/-- EMBED keeps what its start, its steps and its closing of the source keep. -/
theorem embedStep_keeps (hcinit : Keeps P H cinitStep) (hfinit : Keeps P H finitStep)
    (hsizes : ∀ s, P s → P (loadEmbedSizes s)) (hfnext : Keeps P H fnextStep) (hexpb : Keeps P H expbStep)
    (hwadv : Keeps P H wadvStep) (hpemb : Keeps P H pembStep) (hclose : ∀ s, P s → P s.srcClose) :
    Keeps P H embedStep := by
  have hfailed : ∀ z a s, P s → (embedFailed z a s).leaves P H := by
    intro z a s hs
    unfold embedFailed
    split <;> exact hclose s hs
  intro s hs
  unfold embedStep freshOperation
  refine Res.leaves_bind (Res.leaves_bind (hcinit s hs) fun _ t ht => hfinit t ht) fun _ t ht => ?_
  dsimp only
  split
  · exact hclose _ (hsizes t ht)
  · refine Res.leaves_bind (embedLoop_keeps hfnext hexpb hwadv hpemb _ _ (hsizes t ht)) fun e u hu => ?_
    cases e with
    | some a => exact hfailed _ _ _ hu
    | none =>
      unfold embedFlush
      refine Res.leaves_bind (hwadv u hu) fun a v hv => ?_
      split
      · exact hfailed _ _ _ hv
      · exact hclose v hv

theorem feedBytes_keeps (hpackb : Keeps P H packbStep) (hfput : Keeps P H fputStep) (k : Nat) :
    Keeps P H (feedBytes k) := by
  induction k with
  | zero => intro s _; trivial
  | succ k ih =>
    intro s hs
    unfold feedBytes
    split
    · exact hs
    · refine Res.leaves_bind (hpackb s hs) fun _ t ht => Res.leaves_bind (hfput t ht) fun r u hu => ?_
      split
      · exact ih u hu
      · exact hu

theorem retrieveLoop_keeps (hradv : Keeps P H radvStep) (hpext : Keeps P H pextStep) (hpackb : Keeps P H packbStep)
    (hfput : Keeps P H fputStep) (k : Nat) : Keeps P H (retrieveLoop k) := by
  induction k with
  | zero => intro s _; trivial
  | succ k ih =>
    intro s hs
    unfold retrieveLoop
    refine Res.leaves_bind (hradv s hs) fun a t ht => ?_
    split
    · exact ht
    · refine Res.leaves_bind (hpext t ht) fun _ u hu => ?_
      refine Res.leaves_bind (feedBytes_keeps hpackb hfput _ u hu) fun e v hv => ?_
      cases e with
      | some r => exact hv
      | none => exact ih v hv

/-- RETRIEVE keeps what its start, its steps and its release of the sink keep. -/
theorem retrieveStep_keeps (hcinit : Keeps P H cinitStep) (hfinit : Keeps P H finitStep) (hradv : Keeps P H radvStep)
    (hpext : Keeps P H pextStep) (hpackb : Keeps P H packbStep) (hfput : Keeps P H fputStep)
    (hrelease : ∀ s, P s → P s.releaseSink) : Keeps P H retrieveStep := by
  intro s hs
  unfold retrieveStep freshOperation
  refine Res.leaves_bind (Res.leaves_bind (hcinit s hs) fun _ t ht => hfinit t ht) fun _ t ht => ?_
  refine Res.leaves_bind (retrieveLoop_keeps hradv hpext hpackb hfput _ t ht) fun a u hu => ?_
  unfold retrieveEnd
  split <;> first | exact hu | exact hrelease u hu

end

end Sys2Proof.Machine
end

