-- ==== Sys2Proof/Laws/Memory.lean ====
section
/-! SUPPORT. The memory of the carrier image: what a read sees after a write, and that every operation keeps the
canonical form. -/

namespace Sys2Proof.Machine

/-! ### Reading after writing one byte -/

@[simp] theorem Memory.read_nil (a : Nat) : Memory.read [] a = Config.unlistedByte := rfl

theorem Memory.read_cons (k : Nat) (v : Byte) (rest : Memory) (a : Nat) :
    Memory.read ((k, v) :: rest) a = if k = a then v else Memory.read rest a := rfl

/-- Every listed address of a canonical memory is at least its lower bound, so an address below it is unlisted. -/
theorem Memory.read_of_lt {m : Memory} {lo a : Nat} (h : Memory.wfFrom lo m = true) (ha : a < lo) :
    m.read a = Config.unlistedByte := by
  induction m generalizing lo with
  | nil => rfl
  | cons c rest ih =>
    obtain ⟨k, v⟩ := c
    simp only [Memory.wfFrom, Bool.and_eq_true, decide_eq_true_eq] at h
    rw [Memory.read_cons, if_neg (by omega), ih h.2 (by omega)]

/-- A write is read back, in a canonical memory. -/
theorem Memory.read_write_self {m : Memory} {lo : Nat} (h : Memory.wfFrom lo m = true) (a : Nat) (b : Byte) :
    (m.write a b).read a = b := by
  induction m generalizing lo with
  | nil => simp only [Memory.write]; split <;> simp_all [Memory.read_cons]
  | cons c rest ih =>
    obtain ⟨k, v⟩ := c
    simp only [Memory.wfFrom, Bool.and_eq_true, decide_eq_true_eq] at h
    simp only [Memory.write]
    have hrest : ∀ {a' : Nat}, a' ≤ k → Memory.read rest a' = Config.unlistedByte :=
      fun h' => Memory.read_of_lt h.2 (by omega)
    split
    · rename_i hlt
      split
      · rename_i hb; rw [Memory.read_cons, if_neg (by omega), hrest (by omega), hb]
      · simp [Memory.read_cons]
    · split
      · rename_i heq
        split
        · rename_i hb; rw [hrest (by omega), hb]
        · simp [Memory.read_cons]
      · rw [Memory.read_cons, if_neg (by omega), ih h.2]

/-- A write leaves every other address alone, in a canonical memory. -/
theorem Memory.read_write_other {m : Memory} {lo : Nat} (h : Memory.wfFrom lo m = true) {a a' : Nat} (b : Byte)
    (hne : a' ≠ a) : (m.write a b).read a' = m.read a' := by
  induction m generalizing lo with
  | nil => simp only [Memory.write]; split <;> simp [Memory.read_cons, hne.symm]
  | cons c rest ih =>
    obtain ⟨k, v⟩ := c
    simp only [Memory.wfFrom, Bool.and_eq_true, decide_eq_true_eq] at h
    simp only [Memory.write]
    split
    · split
      · rfl
      · rw [Memory.read_cons, if_neg hne.symm]
    · split
      · rename_i heq
        split
        · rw [Memory.read_cons, if_neg (by omega)]
        · rw [Memory.read_cons, Memory.read_cons, if_neg hne.symm, if_neg (by omega)]
      · rw [Memory.read_cons, Memory.read_cons, ih h.2]

/-! ### The canonical form -/

theorem Memory.wfFrom_mono {m : Memory} {lo lo' : Nat} (h : Memory.wfFrom lo m = true) (hle : lo' ≤ lo) :
    Memory.wfFrom lo' m = true := by
  cases m with
  | nil => rfl
  | cons c rest =>
    obtain ⟨k, v⟩ := c
    simp only [Memory.wfFrom, Bool.and_eq_true, decide_eq_true_eq] at h ⊢
    exact ⟨⟨by omega, h.1.2⟩, h.2⟩

theorem Memory.wfFrom_write {m : Memory} {lo : Nat} (h : Memory.wfFrom lo m = true) (a : Nat) (b : Byte)
    (ha : lo ≤ a) : Memory.wfFrom lo (m.write a b) = true := by
  induction m generalizing lo with
  | nil => simp only [Memory.write]; split <;> simp_all [Memory.wfFrom]
  | cons c rest ih =>
    obtain ⟨k, v⟩ := c
    have h₀ := h
    simp only [Memory.wfFrom, Bool.and_eq_true, decide_eq_true_eq] at h
    simp only [Memory.write]
    split
    · split
      · exact h₀
      · simp only [Memory.wfFrom, Bool.and_eq_true, decide_eq_true_eq]
        exact ⟨⟨ha, ‹_›⟩, ⟨by omega, h.1.2⟩, h.2⟩
    · split
      · split
        · exact Memory.wfFrom_mono h.2 (by omega)
        · simp only [Memory.wfFrom, Bool.and_eq_true, decide_eq_true_eq]
          rename_i heq _
          exact ⟨⟨ha, ‹_›⟩, heq ▸ h.2⟩
      · simp only [Memory.wfFrom, Bool.and_eq_true, decide_eq_true_eq]
        exact ⟨h.1, ih h.2 (by omega)⟩

/-- A byte write keeps the canonical form. -/
theorem Memory.wf_write {m : Memory} (h : m.wf = true) (a : Nat) (b : Byte) : (m.write a b).wf = true :=
  Memory.wfFrom_write h a b (Nat.zero_le a)

/-- A pixel write keeps the canonical form. -/
theorem Memory.wf_writePixel {m : Memory} (h : m.wf = true) (a : Nat) (p : Pixel) : (m.writePixel a p).wf = true :=
  Memory.wf_write (Memory.wf_write (Memory.wf_write h _ _) _ _) _ _

/-- Laying out pixels keeps the canonical form. -/
theorem Memory.wf_layPixels {m : Memory} (h : m.wf = true) (a : Nat) (pixels : List Pixel) :
    (m.layPixels a pixels).wf = true := by
  induction pixels generalizing m a with
  | nil => exact h
  | cons p rest ih => exact ih (Memory.wf_writePixel h a p) _

/-- The memory of the reset state is canonical. -/
theorem State.reset_image_wf : State.reset.image.wf = true := rfl

/-- The entries of a written memory are those it had and the one written. -/
theorem Memory.mem_write {m : Memory} {a : Nat} {b : Byte} {c : Host.Cell} (h : c ∈ m.write a b) :
    c ∈ m ∨ c = (a, b) := by
  induction m with
  | nil => simp only [Memory.write] at h; split at h <;> simp_all
  | cons d rest ih =>
    obtain ⟨k, v⟩ := d
    simp only [Memory.write] at h
    split at h
    · split at h
      · exact Or.inl h
      · rcases List.mem_cons.1 h with h' | h'
        · exact Or.inr h'
        · exact Or.inl h'
    · split at h
      · split at h <;> simp_all
        tauto
      · rcases List.mem_cons.1 h with rfl | h'
        · simp
        · rcases ih h' with h'' | h''
          · simp [h'']
          · simp [h'']

end Sys2Proof.Machine
end

