-- ==== Sys2Proof/Laws/PerInstr.lean ====
section
/-! SUPPORT. The per-instruction family named in LAWS.json: every command's word matches its own row of the opcode
table (spec/30_encoding.md R71, R74). -/

namespace Sys2Proof.Laws.EncodeMatchesRow

/-- The place of the command's row in the table of R74. -/
def rowNumber : Instr → Nat
  | .setmask _ => 0
  | .rdreg _ => 1
  | .srst => 2
  | .ldpx _ => 3
  | .ldch _ => 4
  | .cdec => 5
  | .cenc => 6
  | .ldbyte _ => 7
  | .expb => 8
  | .ldrem _ => 9
  | .pemb => 10
  | .pext => 11
  | .packb => 12
  | .cinit => 13
  | .wadv => 14
  | .radv => 15
  | .finit => 16
  | .fnext => 17
  | .fput => 18
  | .cap => 19
  | .embed => 20
  | .retrieve => 21

/-- The command's word matches the row: `c & mask = match` (R71). -/
def Statement (i : Instr) : Prop :=
  ∃ row, opcodeRows[rowNumber i]? = some row ∧ matchesRow (encode i) row = true

/-- A format B word under the mask of format B is its opcode alone. -/
theorem encodeB_and_mask (op imm8 : Byte) : encodeB op imm8 &&& 0xFFFFFF00#32 = op ++ 0#24 := by
  apply BitVec.eq_of_getLsbD_eq
  intro i hi
  have hmask : (0xFFFFFF00#32).getLsbD i = decide (8 ≤ i) := by
    revert hi; revert i; decide
  simp only [encodeB, BitVec.getLsbD_and, BitVec.getLsbD_append, hmask]
  by_cases h8 : i < 8
  · simp [h8, show i < 24 by omega, show ¬8 ≤ i by omega]
  · by_cases h24 : i < 24
    · simp [h8, h24]
    · simp [h24, show 8 ≤ i by omega]

/-- A format P word under the mask of format P is its opcode alone. -/
theorem encodeP_and_mask (op : Byte) (imm24 : Pixel) : encodeP op imm24 &&& 0xFF000000#32 = op ++ 0#24 := by
  apply BitVec.eq_of_getLsbD_eq
  intro i hi
  have hmask : (0xFF000000#32).getLsbD i = decide (24 ≤ i) := by
    revert hi; revert i; decide
  simp only [encodeP, BitVec.getLsbD_and, BitVec.getLsbD_append, hmask]
  by_cases h24 : i < 24
  · simp [h24]
  · simp [h24, show 24 ≤ i by omega]

theorem setmask (imm8 : Byte) : Statement (.setmask imm8) :=
  ⟨_, rfl, by simp [matchesRow, encode, encodeB_and_mask]⟩
theorem rdreg (imm8 : Byte) : Statement (.rdreg imm8) :=
  ⟨_, rfl, by simp [matchesRow, encode, encodeB_and_mask]⟩
theorem srst : Statement .srst := ⟨_, rfl, by decide⟩
theorem ldpx (imm24 : Pixel) : Statement (.ldpx imm24) :=
  ⟨_, rfl, by simp [matchesRow, encode, encodeP_and_mask]⟩
theorem ldch (imm24 : Pixel) : Statement (.ldch imm24) :=
  ⟨_, rfl, by simp [matchesRow, encode, encodeP_and_mask]⟩
theorem cdec : Statement .cdec := ⟨_, rfl, by decide⟩
theorem cenc : Statement .cenc := ⟨_, rfl, by decide⟩
theorem ldbyte (imm8 : Byte) : Statement (.ldbyte imm8) :=
  ⟨_, rfl, by simp [matchesRow, encode, encodeB_and_mask]⟩
theorem expb : Statement .expb := ⟨_, rfl, by decide⟩
theorem ldrem (imm8 : Byte) : Statement (.ldrem imm8) :=
  ⟨_, rfl, by simp [matchesRow, encode, encodeB_and_mask]⟩
theorem pemb : Statement .pemb := ⟨_, rfl, by decide⟩
theorem pext : Statement .pext := ⟨_, rfl, by decide⟩
theorem packb : Statement .packb := ⟨_, rfl, by decide⟩
theorem cinit : Statement .cinit := ⟨_, rfl, by decide⟩
theorem wadv : Statement .wadv := ⟨_, rfl, by decide⟩
theorem radv : Statement .radv := ⟨_, rfl, by decide⟩
theorem finit : Statement .finit := ⟨_, rfl, by decide⟩
theorem fnext : Statement .fnext := ⟨_, rfl, by decide⟩
theorem fput : Statement .fput := ⟨_, rfl, by decide⟩
theorem cap : Statement .cap := ⟨_, rfl, by decide⟩
theorem embed : Statement .embed := ⟨_, rfl, by decide⟩
theorem retrieve : Statement .retrieve := ⟨_, rfl, by decide⟩

end Sys2Proof.Laws.EncodeMatchesRow
end

