-- ==== Sys2Proof/Tests/Slice0.lean ====
section
/-! SUPPORT. The model's own tests. Expected values come from the vectors of spec/95_test_vectors.md (named V-… or P…),
from the encodings of spec/30_encoding.md, or by hand from the rule named. The `witness_` theorems show, for each
statement with hypotheses, a concrete state and operands that meet them together. -/

namespace Sys2Proof.Tests

open Sys2Proof Sys2Proof.Machine

/-! ### Helpers -/

/-- The reset state with an image attached and a mask loaded. -/
def carrier (w h : Nat) (mask : Byte) (pixels : List Pixel) : State :=
  { State.reset with imgw := w, imgh := h, mask := mask, image := Memory.layPixels [] 0 pixels }

/-- A view of the next state of a command, if it has one. -/
def after {α : Type} (i : Instr) (s : State) (view : State → α) : Option α :=
  match exec i s with
  | .next t => some (view t)
  | _ => none

/-- The one response of a command run from a state without responses. -/
def answer (t : State) : List (Code × Nat) := t.responses.map (fun r => (r.code, r.value))

/-- A bit queue written as its digits, head first. -/
def bits (s : String) : List Bool := s.toList.map (fun c => c = '1')

/-! ### WellFormed: the range of R72, and the refusal of a term outside it -/

theorem test_wellFormed_refuses_budget_25 : Instr.wellFormed (.ldrem 25#8) = false := by decide

theorem test_wellFormed_accepts_budget_24 : Instr.wellFormed (.ldrem 24#8) = true := by decide

theorem test_wellFormed_refuses_register_23 : Instr.wellFormed (.rdreg 23#8) = false := by decide

theorem test_wellFormed_accepts_register_22 : Instr.wellFormed (.rdreg 22#8) = true := by decide

/-! ### Decoding: one word for every constructor, from the table of R74 -/

theorem test_decode_system :
    decode 0b00000001000000000000000010000001#32 = .ok (.setmask 0x81#8) ∧
    decode 0b00000010000000000000000000001011#32 = .ok (.rdreg 11#8) ∧
    decode 0b00000011000000000000000000000000#32 = .ok .srst := by decide

theorem test_decode_codec :
    decode 0b00010000000100010010001000110011#32 = .ok (.ldpx 0x112233#24) ∧
    decode 0b00010001000000011000000011111111#32 = .ok (.ldch 0x0180FF#24) ∧
    decode 0b00010010000000000000000000000000#32 = .ok .cdec ∧
    decode 0b00010011000000000000000000000000#32 = .ok .cenc := by decide

theorem test_decode_embedder :
    decode 0b00100000000000000000000001011010#32 = .ok (.ldbyte 0x5A#8) ∧
    decode 0b00100001000000000000000000000000#32 = .ok .expb ∧
    decode 0b00100010000000000000000000000101#32 = .ok (.ldrem 5#8) ∧
    decode 0b00100011000000000000000000000000#32 = .ok .pemb := by decide

theorem test_decode_extractor :
    decode 0b00101000000000000000000000000000#32 = .ok .pext ∧
    decode 0b00101001000000000000000000000000#32 = .ok .packb := by decide

theorem test_decode_cursor :
    decode 0b00110000000000000000000000000000#32 = .ok .cinit ∧
    decode 0b00110001000000000000000000000000#32 = .ok .wadv ∧
    decode 0b00110010000000000000000000000000#32 = .ok .radv := by decide

theorem test_decode_framer :
    decode 0b01000000000000000000000000000000#32 = .ok .finit ∧
    decode 0b01000001000000000000000000000000#32 = .ok .fnext ∧
    decode 0b01000010000000000000000000000000#32 = .ok .fput := by decide

theorem test_decode_capacity_and_operations :
    decode 0b01010000000000000000000000000000#32 = .ok .cap ∧
    decode 0b01100000000000000000000000000000#32 = .ok .embed ∧
    decode 0b01100001000000000000000000000000#32 = .ok .retrieve := by decide

/-- R75: the all-zero and the all-ones word, a gap in the table, and must-be-zero bits of formats Z and B. -/
theorem test_decode_rejects :
    decode 0x00000000#32 = .error .unknownOpcode ∧ decode 0xFFFFFFFF#32 = .error .unknownOpcode ∧
    decode 0x24000000#32 = .error .unknownOpcode ∧ decode 0x30000001#32 = .error .operandBitsNotZero ∧
    decode 0x61800000#32 = .error .operandBitsNotZero ∧ decode 0x20000100#32 = .error .operandBitsNotZero := by decide

theorem test_decodeTableWord :
    decodeTableWord 32 0x220000FF = some (.ldrem 0xFF#8) ∧ decodeTableWord 32 0x62000000 = none := by decide

/-- The machine takes a word from the command port as its first command (P6: `RDREG 22` after reset). -/
theorem test_step_takes_the_word :
    (match step (State.reset.withFetchWord 32 0x02000016) with
      | .next t => (answer t, t.inbox)
      | _ => ([], [])) = ([(Code.ok, 0)], []) := by decide

/-- P6: an illegal word answers its low 24 bits and writes STATUS. -/
theorem test_step_illegal_word :
    (match step (State.reset.withFetchWord 32 0x30000001) with
      | .next t => (answer t, t.status)
      | _ => ([], 0#11)) = ([(Code.illegalCommand, 1)], 0x020#11) := by decide

/-! ### System commands -/

/-- Example of R201. -/
theorem test_setmask :
    after (.setmask 0x81#8) State.reset (fun t => (answer t, t.mask)) = some ([(.ok, 2)], 0x81#8) := by decide

/-- V-B0b: `RDREG 9` after `EXPB` of 0x61. -/
theorem test_rdreg_queue :
    after (.rdreg 9#8) { State.reset with bq := bits "01100001", status := 0x401#11 }
      (fun t => (answer t, t.status)) = some ([(.ok, 0x861)], 0x401#11) := by decide

/-- P6: register 23 does not exist. -/
theorem test_rdreg_above_22 :
    after (.rdreg 23#8) State.reset (fun t => (answer t, t.status)) = some ([(.illegalOperand, 23)], 0x021#11) := by
  decide

/-- R203: an open sink is closed and the mask returns to zero; the image stays. -/
theorem test_srst :
    after .srst { carrier 1 1 0x0F#8 [0xABCDEF#24] with sinkopen := true }
      (fun t => (answer t, t.trace, t.mask, t.sinkopen, t.pixelAt 0 0)) =
      some ([(.ok, 0)], [.sinkClose], 0x00#8, false, 0xABCDEF#24) := by decide

/-! ### Channel codec -/

/-- V-CD1. -/
theorem test_ldpx :
    after (.ldpx 0x9E2233#24) State.reset (fun t => (answer t, t.pxr)) = some ([(.ok, 0x9E2233)], 0x9E2233#24) := by
  decide

/-- V-CD3. -/
theorem test_ldch :
    after (.ldch 0x0180FF#24) State.reset (fun t => (answer t, t.chr, t.pxr)) =
      some ([(.ok, 0x0180FF)], 0x0180FF#24, 0#24) := by decide

/-- V-CD2. -/
theorem test_cdec :
    after .cdec { State.reset with pxr := 0x9E2233#24 } (fun t => (answer t, t.chr)) =
      some ([(.ok, 0x9E2233)], 0x9E2233#24) := by decide

/-- V-CD4. -/
theorem test_cenc :
    after .cenc { State.reset with chr := 0x0180FF#24 } (fun t => (answer t, t.pxr)) =
      some ([(.ok, 0x0180FF)], 0x0180FF#24) := by decide

/-! ### Bit embedder -/

/-- V-S2. -/
theorem test_slots :
    slots 0x81#8 = [(.red, 7), (.red, 0), (.green, 7), (.green, 0), (.blue, 7), (.blue, 0)] := by decide

/-- V-B0a. -/
theorem test_ldbyte :
    after (.ldbyte 0x61#8) State.reset (fun t => (answer t, t.byter, t.bq)) = some ([(.ok, 0x61)], 0x61#8, []) := by
  decide

/-- V-B0b: a fresh queue, whatever it held. -/
theorem test_expb :
    after .expb { State.reset with byter := 0x61#8, bq := [true] } (fun t => (answer t, t.bq)) =
      some ([(.ok, 0x61)], bits "01100001") := by decide

/-- V-B0d. -/
theorem test_ldrem_24 : after (.ldrem 24#8) State.reset (fun t => (answer t, t.brem)) = some ([(.ok, 24)], 24) := by
  decide

/-- V-B0f. -/
theorem test_ldrem_25 :
    after (.ldrem 25#8) { State.reset with brem := 7 } (fun t => (answer t, t.brem, t.status)) =
      some ([(.illegalOperand, 25)], 7, 0x021#11) := by decide

/-- V-P11: a resume offset of 5. -/
theorem test_pemb_resumes :
    after .pemb { State.reset with mask := 0xF0#8, pxr := 0xABCDEF#24, bq := bits "101", brem := 7 }
      (fun t => (answer t, t.pxr, t.bq, t.brem, t.cnt)) = some ([(.ok, 3)], 0xABADEF#24, [], 4, 3) := by decide

/-- V-P10: the pixel fills before the queue drains. -/
theorem test_pemb_fills_the_pixel :
    after .pemb { State.reset with mask := 0x0F#8, pxr := 0xABCDEF#24, bq := bits "00111100", brem := 5 }
      (fun t => (answer t, t.pxr, t.bq, t.brem)) = some ([(.ok, 5)], 0xABCDE8#24, bits "100", 0) := by decide

/-! ### Bit extractor -/

/-- V-X6, after V-P3. -/
theorem test_pext :
    after .pext { State.reset with mask := 0x81#8, pxr := 0x7F01FE#24 } (fun t => (answer t, t.aq)) =
      some ([(.ok, 6)], bits "101001") := by decide

/-- V-Q1, step 3. -/
theorem test_pext_full :
    after .pext { State.reset with mask := 0xFF#8, aq := List.replicate 24 true }
      (fun t => (answer t, t.aq.length, t.status)) = some ([(.queueFull, 24)], 24, 0x013#11) := by decide

/-- Example of R123. -/
theorem test_packb :
    after .packb { State.reset with aq := bits "0110000100" } (fun t => (answer t, t.byter, t.aq)) =
      some ([(.ok, 0x61)], 0x61#8, bits "00") := by decide

/-- P3: six bits are too few. -/
theorem test_packb_short :
    after .packb { State.reset with aq := bits "101001", byter := 0x42#8 } (fun t => (answer t, t.byter, t.aq)) =
      some ([(.queueShort, 6)], 0x42#8, bits "101001") := by decide

/-! ### Pixel cursor -/

/-- V-W5: PXR keeps its value. -/
theorem test_cinit :
    after .cinit { State.reset with curx := 2, cury := 1, issued := true, exh := true, brem := 6, pxr := 0x100006#24 }
      (fun t => (answer t, [t.curx, t.cury, curfValue t, t.brem], t.pxr, t.ports)) =
      some ([(.ok, 0)], [0, 0, 0, 0], 0x100006#24, []) := by decide

/-- V-W1, advance 4: commit at (2, 0), wrap, read at (0, 1). -/
theorem test_wadv_wraps :
    after .wadv { carrier 3 2 0x03#8 [1, 2, 3, 4, 5, 6] with
        curx := 2, issued := true, pxr := 0x100003#24 }
      (fun t => (answer t, [t.curx, t.cury, t.brem], [t.pxr, t.pixelAt 2 0], t.ports)) =
      some ([(.ok, 4)], [0, 1, 6], [0x000004#24, 0x100003#24],
        [.imgSet 2 0 0x100003#24 .ok, .imgGet 0 1 .ok]) := by decide

/-- V-W6: the commit fails, and no read is made. -/
theorem test_wadv_commit_fails :
    after .wadv { carrier 2 2 0x01#8 [1, 2, 3, 4] with
        issued := true, pxr := 0x000009#24, brem := 3, answers := [.fail] }
      (fun t => (answer t, [t.status.toNat, t.curx, t.cury, t.brem], t.pixelAt 0 0, t.ports)) =
      some ([(.ioFailure, 0)], [0x104, 0, 0, 3], 0x000001#24, [.imgSet 0 0 0x000009#24 .fail]) := by decide

/-- V-W4, advance 3. -/
theorem test_radv :
    after .radv { carrier 2 2 0xFF#8 [0x112233#24, 0x445566#24, 0x778899#24, 0xAABBCC#24] with
        curx := 1, issued := true, pxr := 0x445566#24 }
      (fun t => (answer t, (t.curx, t.cury), t.pxr, t.brem)) =
      some ([(.ok, 0x778899)], (0, 1), 0x778899#24, 0) := by decide

/-- V-W4, advance 5: exhaustion, exactly at the row past the last. -/
theorem test_radv_exhausts :
    after .radv { carrier 2 2 0xFF#8 [1, 2, 3, 4] with curx := 1, cury := 1, issued := true, pxr := 0xAABBCC#24 }
      (fun t => (answer t, (t.curx, t.cury), curfValue t, t.pxr, t.ports)) =
      some ([(.exhausted, 0)], (0, 2), 3, 0xAABBCC#24, []) := by decide

/-! ### Payload framer -/

/-- V-G7: a sink left open is closed. -/
theorem test_finit :
    after .finit { State.reset with sinkopen := true, comp := .rawData, rcnt := 2, sizev := 3, namebuf := [0x61#8] }
      (fun t => (answer t, t.trace, [fflagsValue t, t.comp.number, t.rcnt, t.sizev, t.namebuf.length])) =
      some ([(.ok, 0)], [.sinkClose], [0, 0, 0, 0, 0]) := by decide

/-- Example of R156, second call: the NUL that ends the name. -/
theorem test_fnext_ends_the_name :
    after .fnext { State.reset with srcName := [0x61#8], srcData := [0x5A#8], idx := 1, byter := 0x61#8 }
      (fun t => (answer t, t.byter, t.comp, t.idx)) = some ([(.ok, 0)], 0x00#8, .fileSize, 0) := by decide

/-- Example of R156, sixth call. -/
theorem test_fnext_end_of_stream :
    after .fnext { State.reset with srcName := [0x61#8], srcData := [0x5A#8], comp := .rawData, rcnt := 1 }
      (fun t => (answer t, t.send, t.ports)) = some ([(.endOfStream, 1)], true, [.srcRead 1 .ok]) := by decide

/-- V-F3 and V-F4: the frames. -/
theorem test_frame :
    frame [0x61#8, 0x62#8] [0xDE#8, 0xAD#8, 0xBE#8, 0xEF#8, 0x00#8, 0x01#8, 0x80#8] =
      [0x61#8, 0x62#8, 0x00#8, 0x37#8, 0x00#8, 0xDE#8, 0xAD#8, 0xBE#8, 0xEF#8, 0x00#8, 0x01#8, 0x80#8] ∧
    dec 12 = [0x31#8, 0x32#8] ∧ dec 1024 = [0x31#8, 0x30#8, 0x32#8, 0x34#8] := by decide

/-- V-Z4, V-Z5, V-Z6, V-Z8, V-Z10, V-Z11. -/
theorem test_parseSize :
    parseSize [0x30#8, 0x30#8, 0x37#8] = some 7 ∧
    parseSize [0x34#8, 0x32#8, 0x39#8, 0x34#8, 0x39#8, 0x36#8, 0x37#8, 0x32#8, 0x39#8, 0x35#8] = some 4294967295 ∧
    parseSize [0x34#8, 0x32#8, 0x39#8, 0x34#8, 0x39#8, 0x36#8, 0x37#8, 0x32#8, 0x39#8, 0x36#8] = none ∧
    parseSize [0x30#8] = none ∧ parseSize [] = none ∧ parseSize [0x2D#8, 0x31#8] = none := by decide

/-- V-G5: the bad size string is found at its NUL, and the sink is discarded. -/
theorem test_fput_discards :
    after .fput { State.reset with comp := .fileSize, sinkopen := true, sizebuf := [0x2D#8, 0x31#8] }
      (fun t => (answer t, t.trace, fflagsValue t, t.sizebuf.length)) =
      some ([(.noSecretFound, 0)], [.sinkDiscard], 4, 2) := by decide

/-- V-G1, fifth byte: the last raw byte closes the sink. -/
theorem test_fput_done :
    after .fput { State.reset with comp := .rawData, sinkopen := true, sizev := 1, byter := 0x5A#8 }
      (fun t => (answer t, t.trace, t.rcnt, fflagsValue t)) =
      some ([(.done, 1)], [.sinkWrite 0x5A#8, .sinkClose], 1, 2) := by decide

/-! ### Capacity and the two operations -/

/-- V-K10. -/
theorem test_cap :
    after .cap { State.reset with imgw := 3, imgh := 3, mask := 0x07#8 } (fun t => (answer t, t.capr)) =
      some ([(.ok, 10)], 10) := by decide

/-- P4's payload: byte 0x5A under the name a, embedded with all bits enabled; each channel is a byte's complement. -/
theorem test_embed :
    after .embed { carrier 2 1 0xFF#8 [0x112233#24, 0x445577#24] with srcName := [0x61#8], srcData := [0x5A#8] }
      (fun t => (answer t, t.pixelAt 0 0, t.pixelAt 1 0, t.trace)) =
      some ([(.ok, 5)], 0x9EFFCE#24, 0xFFA577#24, [.srcClose]) := by decide

/-- V-B1, with a zero mask: the pre-check answers before any access. -/
theorem test_embed_zero_mask :
    after .embed { carrier 1 1 0x00#8 [0x112233#24] with srcName := [0x61#8] }
      (fun t => (answer t, t.status, t.ports)) =
      some ([(.capacityExceeded, 0)], 0x401#11, [.srcClose]) := by decide

/-- P4's image: the name and the byte come back. -/
theorem test_retrieve :
    after .retrieve (carrier 2 1 0xFF#8 [0x9EFFCE#24, 0xFFA577#24]) (fun t => (answer t, t.trace)) =
      some ([(.ok, 1)], [.sinkOpen [0x61#8], .sinkWrite 0x5A#8, .sinkClose]) := by decide

/-- V-C4: a white image holds an empty name and an empty size string. -/
theorem test_retrieve_no_secret :
    after .retrieve (carrier 1 1 0xFF#8 [0xFFFFFF#24]) (fun t => (answer t, t.trace, t.aq.length, fflagsValue t)) =
      some ([(.noSecretFound, 0)], [.sinkOpen [], .sinkDiscard], 8, 4) := by decide

/-! ### Witnesses: states and operands that meet a statement's hypotheses -/

/-- A state with one host move waiting. -/
def waiting (m : HostMove) : State := { State.reset with inbox := [m] }

/-- A 2 by 1 carrier under the full mask, with the source of Scenario A. -/
def framed : State :=
  { carrier 2 1 0xFF#8 [0x112233#24, 0x445577#24] with srcName := [0x61#8], srcData := [0x5A#8] }

/-- The image `framed` leaves after EMBED (P4). -/
def stego : State := carrier 2 1 0xFF#8 [0x9EFFCE#24, 0xFFA577#24]

/-- In the middle of a traversal of a 2 by 2 image. -/
def traversing (x y : Nat) (answers : List PortAnswer) : State :=
  { carrier 2 2 0x81#8 [1, 2, 3, 4] with
    curx := x, cury := y, issued := true, pxr := 0xABCDEF#24, answers := answers }

theorem witness_StepRunsTheDecodedCommand :
    (waiting (.command 0x50000000#32)).inbox = .command 0x50000000#32 :: [] ∧
    (waiting (.command 0x50000000#32)).hung = false ∧ decode 0x50000000#32 = .ok .cap := by decide

theorem witness_IllegalWordOnlyAnswers :
    (waiting (.command 0x01000100#32)).inbox = .command 0x01000100#32 :: [] ∧
    (waiting (.command 0x01000100#32)).hung = false ∧
    ∀ row ∈ opcodeRows, matchesRow 0x01000100#32 row = false := by
  refine ⟨rfl, rfl, fun row h => ?_⟩
  have none : opcodeRows.all (fun row => !matchesRow 0x01000100#32 row) = true := by decide
  simpa using List.all_eq_true.mp none row h

theorem witness_ResetRestoresEveryRegister :
    { waiting .resetInput with mask := 0xFF#8, hung := true }.inbox = .resetInput :: [] := by decide

theorem witness_UnansweredAccessHangs_idle : State.reset.inbox = [] := rfl

/-- SrcRead of FNEXT; SinkOpen and SinkWrite of FPUT. -/
theorem witness_UnansweredAccessHangs_framer :
    { State.reset with answers := [.never] }.answers = .never :: [] ∧
    { State.reset with comp := .rawData, answers := [.never] }.send = false ∧
    { State.reset with comp := .rawData, answers := [.never] }.comp = .rawData ∧
    { State.reset with answers := [.never] }.done = false ∧ { State.reset with answers := [.never] }.failed = false ∧
    { State.reset with answers := [.never] }.comp = .fileName ∧
    { State.reset with answers := [.never] }.byter = 0x00#8 := by decide

/-- The first advance of either cursor. -/
theorem witness_UnansweredAccessHangs_first :
    { framed with answers := [.never] }.answers = .never :: [] ∧ { framed with answers := [.never] }.exh = false ∧
    { framed with answers := [.never] }.issued = false ∧ 0 < { framed with answers := [.never] }.imgw ∧
    0 < { framed with answers := [.never] }.imgh ∧ Instr.wadv ∈ [Instr.wadv, .radv] := by decide

/-- The commit of WADV, and the read of RADV, at the wrap to the second row. -/
theorem witness_UnansweredAccessHangs_later :
    (traversing 1 0 [.never]).answers = .never :: [] ∧ (traversing 1 0 [.never]).exh = false ∧
    (traversing 1 0 [.never]).issued = true ∧ (traversing 1 0 [.never]).curx < (traversing 1 0 [.never]).imgw ∧
    (traversing 1 0 [.never]).cury < (traversing 1 0 [.never]).imgh ∧
    (0, 1) = (if (traversing 1 0 [.never]).curx + 1 = (traversing 1 0 [.never]).imgw
      then (0, (traversing 1 0 [.never]).cury + 1)
      else ((traversing 1 0 [.never]).curx + 1, (traversing 1 0 [.never]).cury)) ∧
    1 < (traversing 1 0 [.never]).imgh := by decide

/-- The read of WADV after its commit. -/
theorem witness_UnansweredAccessHangs_afterCommit :
    (traversing 0 1 [.ok, .never]).answers = .ok :: .never :: [] ∧ (traversing 0 1 [.ok, .never]).exh = false ∧
    (traversing 0 1 [.ok, .never]).issued = true ∧
    (traversing 0 1 [.ok, .never]).curx < (traversing 0 1 [.ok, .never]).imgw ∧
    (traversing 0 1 [.ok, .never]).cury < (traversing 0 1 [.ok, .never]).imgh ∧
    (1, 1) = (if (traversing 0 1 [.ok, .never]).curx + 1 = (traversing 0 1 [.ok, .never]).imgw
      then (0, (traversing 0 1 [.ok, .never]).cury + 1)
      else ((traversing 0 1 [.ok, .never]).curx + 1, (traversing 0 1 [.ok, .never]).cury)) ∧
    1 < (traversing 0 1 [.ok, .never]).imgh := by decide

/-- An EMBED that hangs at its second access. -/
theorem witness_UnansweredAccessHangs_every :
    ∃ t, exec .embed { framed with answers := [.ok, .never] } = .next t ∧ framed.hung = false ∧ t.hung = true ∧
      (t.ports.drop framed.ports.length).any (fun u => u.unanswered) = true :=
  ⟨_, rfl, by decide, by decide, by decide⟩

theorem witness_UnansweredAccessHangs_hung :
    { waiting (.command 0x03000000#32) with hung := true }.hung = true ∧
    { waiting (.command 0x03000000#32) with hung := true }.inbox = .command 0x03000000#32 :: [] ∧
    HostMove.command 0x03000000#32 ≠ .resetInput := by decide

theorem witness_AttachedImageIsRead :
    (waiting (.attachImage 2 1 [5#24, 6#24])).inbox = .attachImage 2 1 [5#24, 6#24] :: [] ∧
    (waiting (.attachImage 2 1 [5#24, 6#24])).hung = false ∧ 2 < 2 ^ 16 ∧ 1 < 2 ^ 16 ∧
    [5#24, 6#24].length = 2 * 1 ∧ 1 < 2 ∧ 0 < 1 ∧ [5#24, 6#24][0 * 2 + 1]? = some 6#24 :=
  ⟨rfl, rfl, by omega, by omega, rfl, by decide, by decide, rfl⟩

/-- The last register, and the first number that is none. -/
theorem witness_RdregReadsEveryRegister :
    (List.replicate 22 0 ++ [State.reset.status.toNat])[(22#8).toNat]? = some 0 ∧ 22 < (23#8).toNat := by decide

/-- The two sides of the legal range. -/
theorem witness_LdremLoadsTheBudget : (24#8).toNat ≤ 24 ∧ 24 < (25#8).toNat := by decide

/-- The two sides of the budget, and an enabled and a disabled bit. -/
theorem witness_PembFillsTheNextSlots :
    { State.reset with mask := 0x81#8, brem := 6 }.brem ≤ 3 * popcount 0x81#8 ∧
    (slots 0x81#8)[5]? = some (.blue, 0) ∧ (0x81#8).getLsbD 1 = false ∧
    3 * popcount 0x81#8 < { State.reset with mask := 0x81#8, brem := 7 }.brem := by decide

theorem witness_SlotScanOrder : 5 < 3 * popcount 0x81#8 := by decide

theorem witness_BitInverseLaw :
    4 ≤ 3 * popcount 0x81#8 ∧ 3 < min (bits "10101").length 4 ∧
    (1 < 3 * popcount 0x81#8 - 4 ∨ 3 * popcount 0x81#8 - 4 + min (bits "10101").length 4 ≤ 1) := by decide

theorem witness_ResumptionLaw : (bits "101").length ≤ 3 ∧ 3 ≤ 3 * popcount 0x01#8 := by decide

/-- The two sides of the bound of AQ. -/
theorem witness_PextAppendsTheSlots :
    { State.reset with mask := 0xFF#8, aq := List.replicate 7 true }.aq.length + 3 * popcount 0xFF#8 ≤ 31 ∧
    31 < { State.reset with mask := 0xFF#8, aq := List.replicate 8 true }.aq.length + 3 * popcount 0xFF#8 := by decide

/-- The two sides of eight bits. -/
theorem witness_PackbFormsAByte :
    8 ≤ { State.reset with aq := bits "01100001" }.aq.length ∧
    { State.reset with aq := bits "0110000" }.aq.length < 8 := by decide

theorem witness_PackAndCodecAreInverses : (bits "10100101").length = 8 := by decide

theorem witness_PixelReadsAsLastWritten :
    framed.image.wf = true ∧ 1 < framed.imgw ∧ 0 < framed.imgw ∧
    (2 < 3 * (0 * framed.imgw + 1) ∨ 3 * (0 * framed.imgw + 1) + 3 ≤ 2) := by decide

theorem witness_FirstAdvanceYieldsTheOrigin :
    framed.exh = false ∧ framed.issued = false ∧ 0 < framed.imgw ∧ 0 < framed.imgh ∧ framed.nextAccessOk :=
  ⟨rfl, rfl, by decide, by decide, rfl⟩

/-- An empty image, with a budget loaded by LDREM. -/
theorem witness_FirstAdvanceYieldsTheOrigin_empty :
    { framed with imgh := 0, brem := 5 }.exh = false ∧ { framed with imgh := 0, brem := 5 }.issued = false ∧
    ({ framed with imgh := 0, brem := 5 }.imgw = 0 ∨ { framed with imgh := 0, brem := 5 }.imgh = 0) := by decide

/-- The wrap at the end of the first row. -/
theorem witness_WadvCommitsThenYields :
    (traversing 1 0 []).exh = false ∧ (traversing 1 0 []).issued = true ∧ (traversing 1 0 []).image.wf = true ∧
    (traversing 1 0 []).curx < (traversing 1 0 []).imgw ∧ (traversing 1 0 []).cury < (traversing 1 0 []).imgh ∧
    (0, 1) = (if (traversing 1 0 []).curx + 1 = (traversing 1 0 []).imgw then (0, (traversing 1 0 []).cury + 1)
      else ((traversing 1 0 []).curx + 1, (traversing 1 0 []).cury)) ∧
    1 < (traversing 1 0 []).imgh ∧ (traversing 1 0 []).nextTwoAccessesOk :=
  ⟨rfl, rfl, by decide, by decide, by decide, by decide, by decide, rfl, rfl⟩

theorem witness_RadvYieldsTheNextPixel :
    (traversing 0 1 [.ok]).exh = false ∧ (traversing 0 1 [.ok]).issued = true ∧
    (traversing 0 1 [.ok]).curx < (traversing 0 1 [.ok]).imgw ∧
    (traversing 0 1 [.ok]).cury < (traversing 0 1 [.ok]).imgh ∧
    (1, 1) = (if (traversing 0 1 [.ok]).curx + 1 = (traversing 0 1 [.ok]).imgw
      then (0, (traversing 0 1 [.ok]).cury + 1)
      else ((traversing 0 1 [.ok]).curx + 1, (traversing 0 1 [.ok]).cury)) ∧
    1 < (traversing 0 1 [.ok]).imgh ∧ (traversing 0 1 [.ok]).nextAccessOk :=
  ⟨rfl, rfl, by decide, by decide, by decide, by decide, rfl⟩

theorem witness_LastAdvanceExhausts :
    (traversing 1 1 []).exh = false ∧ (traversing 1 1 []).issued = true ∧
    (traversing 1 1 []).curx + 1 = (traversing 1 1 []).imgw ∧
    (traversing 1 1 []).cury + 1 = (traversing 1 1 []).imgh ∧ (traversing 1 1 []).nextAccessOk :=
  ⟨rfl, rfl, rfl, rfl, rfl⟩

/-- The read of the first advance fails. -/
theorem witness_FailedAccessLeavesTheCursor_origin :
    { framed with answers := [.fail] }.exh = false ∧ { framed with answers := [.fail] }.issued = false ∧
    0 < { framed with answers := [.fail] }.imgw ∧ 0 < { framed with answers := [.fail] }.imgh ∧
    { framed with answers := [.fail] }.answers = .fail :: [] ∧ Instr.radv ∈ [Instr.wadv, .radv] := by decide

/-- The commit, or the read of RADV, fails. -/
theorem witness_FailedAccessLeavesTheCursor_first :
    (traversing 0 0 [.fail]).exh = false ∧ (traversing 0 0 [.fail]).issued = true ∧
    (traversing 0 0 [.fail]).curx < (traversing 0 0 [.fail]).imgw ∧
    (traversing 0 0 [.fail]).cury < (traversing 0 0 [.fail]).imgh ∧
    (traversing 0 0 [.fail]).answers = .fail :: [] ∧
    (1, 0) = (if (traversing 0 0 [.fail]).curx + 1 = (traversing 0 0 [.fail]).imgw
      then (0, (traversing 0 0 [.fail]).cury + 1)
      else ((traversing 0 0 [.fail]).curx + 1, (traversing 0 0 [.fail]).cury)) ∧
    0 < (traversing 0 0 [.fail]).imgh := by decide

/-- The read after the commit fails. -/
theorem witness_FailedAccessLeavesTheCursor_second :
    (traversing 1 0 [.ok, .fail]).exh = false ∧ (traversing 1 0 [.ok, .fail]).issued = true ∧
    (traversing 1 0 [.ok, .fail]).curx < (traversing 1 0 [.ok, .fail]).imgw ∧
    (traversing 1 0 [.ok, .fail]).cury < (traversing 1 0 [.ok, .fail]).imgh ∧
    (traversing 1 0 [.ok, .fail]).answers = .ok :: .fail :: [] ∧
    (0, 1) = (if (traversing 1 0 [.ok, .fail]).curx + 1 = (traversing 1 0 [.ok, .fail]).imgw
      then (0, (traversing 1 0 [.ok, .fail]).cury + 1)
      else ((traversing 1 0 [.ok, .fail]).curx + 1, (traversing 1 0 [.ok, .fail]).cury)) ∧
    1 < (traversing 1 0 [.ok, .fail]).imgh := by decide

theorem witness_TraversalVisitsEveryPixel :
    Instr.wadv ∈ [Instr.wadv, .radv] ∧ framed.portsAnswerOk ∧ framed.image.wf = true ∧
    1 < framed.imgw * framed.imgh :=
  ⟨by decide, (fun _ h => nomatch h), by decide, by decide⟩

theorem witness_EndsAreSticky :
    { State.reset with exh := true }.exh = true ∧ Instr.wadv ∈ [Instr.wadv, .radv] ∧
    { State.reset with send := true }.send = true ∧ { State.reset with done := true }.done = true ∧
    { State.reset with failed := true }.done = false ∧ { State.reset with failed := true }.failed = true := by decide

/-- A character of the name, and the NUL after its last one. -/
theorem witness_FnextEmitsTheNextByte_name :
    framed.send = false ∧ framed.comp = .fileName ∧ framed.srcName[framed.idx]? = some 0x61#8 ∧
    { framed with idx := 1 }.srcName.length ≤ { framed with idx := 1 }.idx := by decide

/-- A character of the size, and the NUL after its last one. -/
theorem witness_FnextEmitsTheNextByte_size :
    { framed with comp := .fileSize }.send = false ∧ { framed with comp := .fileSize }.comp = .fileSize ∧
    (dec framed.srcData.length)[0]? = some 0x31#8 ∧
    (dec framed.srcData.length).length ≤ { framed with comp := .fileSize, idx := 1 }.idx := by decide

/-- A raw byte, the end of the data, a read that fails, and a stream that has ended. -/
theorem witness_FnextEmitsTheNextByte_data :
    { framed with comp := .rawData }.send = false ∧ { framed with comp := .rawData }.comp = .rawData ∧
    { framed with comp := .rawData }.nextAccessOk ∧
    { framed with comp := .rawData }.srcData[0]? = some 0x5A#8 ∧
    { framed with comp := .rawData, rcnt := 1 }.rcnt = framed.srcData.length ∧
    { framed with comp := .rawData, answers := [.fail] }.answers = .fail :: [] ∧
    { framed with send := true }.send = true :=
  ⟨rfl, rfl, rfl, rfl, rfl, rfl, rfl⟩

theorem witness_FnextStreamIsTheFrame :
    framed.portsAnswerOk ∧ 5 ≤ (frame framed.srcName framed.srcData).length :=
  ⟨(fun _ h => nomatch h), by decide⟩

/-- A character, a NUL whose sink opens, and a NUL whose sink does not. -/
theorem witness_FputCollectsTheName :
    State.reset.done = false ∧ State.reset.failed = false ∧ State.reset.comp = .fileName ∧
    { State.reset with byter := 0x61#8 }.byter ≠ 0x00#8 ∧ State.reset.byter = 0x00#8 ∧ State.reset.nextAccessOk ∧
    { State.reset with answers := [.fail] }.answers = .fail :: [] :=
  ⟨rfl, rfl, rfl, by decide, rfl, rfl, rfl⟩

/-- A character, a size that parses, and one that does not. -/
theorem witness_FputParsesTheSize :
    { State.reset with comp := .fileSize }.done = false ∧ { State.reset with comp := .fileSize }.failed = false ∧
    { State.reset with comp := .fileSize }.comp = .fileSize ∧
    { State.reset with comp := .fileSize, byter := 0x31#8 }.byter ≠ 0x00#8 ∧
    { State.reset with comp := .fileSize }.byter = 0x00#8 ∧
    parseSize { State.reset with comp := .fileSize, sizebuf := [0x31#8] }.sizebuf = some 1 ∧
    parseSize { State.reset with comp := .fileSize, sizebuf := [0x30#8] }.sizebuf = none := by decide

/-- A byte before the last, the last byte, and a sink that fails. -/
theorem witness_FputWritesRawData :
    { State.reset with comp := .rawData, sizev := 2 }.done = false ∧
    { State.reset with comp := .rawData, sizev := 2 }.failed = false ∧
    { State.reset with comp := .rawData, sizev := 2 }.nextAccessOk ∧
    { State.reset with comp := .rawData, sizev := 2 }.rcnt + 1 ≠ 2 ∧
    { State.reset with comp := .rawData, sizev := 2, rcnt := 1 }.rcnt + 1 = 2 ∧
    { State.reset with comp := .rawData, sizev := 2, answers := [.fail] }.answers = .fail :: [] :=
  ⟨rfl, rfl, rfl, by decide, rfl, rfl⟩

theorem witness_DecIsTheShortestNumeral : 10 ≠ 0 ∧ 4294967295 < 2 ^ 32 := by decide

/-- The two ends of the range of SIZEV. -/
theorem witness_ParseSizeInvertsDec :
    1 ≤ 1 ∧ 1 ≤ 2 ^ 32 - 1 ∧ 1 ≤ 4294967295 ∧ 4294967295 ≤ 2 ^ 32 - 1 := by decide

theorem witness_FramingRoundTrip :
    State.reset.portsAnswerOk ∧ 0x00#8 ∉ [0x61#8] ∧ 1 ≤ [0x5A#8].length ∧ [0x5A#8].length ≤ 2 ^ 32 - 1 :=
  ⟨(fun _ h => nomatch h), by decide, by decide, by decide⟩

theorem witness_CapacityLaws : 4 ≤ 5 ∧ 4 ≤ 4 ∧ 1 ≤ 2 := by decide

/-- V-B1: seven bytes into a capacity of six. -/
theorem witness_EmbedChecksTheCapacityFirst :
    { carrier 4 4 0x01#8 [] with srcName := [0x61#8], srcData := [1#8, 2#8, 3#8] }.imgw * 4 * 3 * popcount 0x01#8 / 8 <
      (frame [0x61#8] [1#8, 2#8, 3#8]).length := by decide

theorem witness_EmbedPlacesTheFrame :
    framed.portsAnswerOk ∧ framed.image.wf = true ∧
    (frame framed.srcName framed.srcData).length ≤ capacity framed.imgw framed.imgh (popcount framed.mask) ∧
    1 < framed.imgw * framed.imgh ∧ (slots framed.mask)[23]? = some (.blue, 0) :=
  ⟨(fun _ h => nomatch h), by decide, by decide, by decide, by decide⟩

/-- A bit the mask leaves out. -/
theorem witness_EmbedPlacesTheFrame_disabled :
    { carrier 4 4 0x01#8 [1, 2] with srcName := [0x61#8], srcData := [1#8] }.portsAnswerOk ∧
    (carrier 4 4 0x01#8 [1, 2]).image.wf = true ∧ (frame [0x61#8] [1#8]).length ≤ capacity 4 4 (popcount 0x01#8) ∧
    15 < 4 * 4 ∧ (0x01#8).getLsbD 1 = false :=
  ⟨(fun _ h => nomatch h), by decide, by decide, by decide, by decide⟩

theorem witness_OperationsAlwaysEnd :
    Instr.embed ∈ [Instr.embed, .retrieve] ∧ PortAnswer.never ∉ { framed with answers := [.ok, .fail] }.answers := by
  decide

theorem witness_CapacityExceededLeavesTheImage :
    ∃ t, exec .embed { framed with mask := 0x01#8 } = .next t ∧
      t.responses = framed.responses ++ [⟨.capacityExceeded, 0⟩] :=
  ⟨_, rfl, by decide⟩

theorem witness_EmbedClosesTheSourceOnce : ∃ t, exec .embed framed = .next t ∧ t.hung = false :=
  ⟨_, rfl, by decide⟩

theorem witness_RetrieveReadsTheFrame :
    stego.portsAnswerOk ∧ 0x00#8 ∉ [0x61#8] ∧ 1 ≤ [0x5A#8].length ∧ [0x5A#8].length ≤ 2 ^ 32 - 1 ∧
    payloadBits (frame [0x61#8] [0x5A#8]) <+: stego.storedBits :=
  ⟨(fun _ h => nomatch h), by decide, by decide, by decide, by decide⟩

/-- V-C2's pixels, 3 by 1: nine stored bits, all 1, make one byte of the name and one bit over. -/
theorem witness_RetrieveReportsTruncation_name :
    (carrier 3 1 0x01#8 [0, 0, 0]).portsAnswerOk ∧
    payloadBits [0xFF#8] <+: (carrier 3 1 0x01#8 [0, 0, 0]).storedBits ∧
    (carrier 3 1 0x01#8 [0, 0, 0]).storedBits.length < 8 * [0xFF#8].length + 8 ∧ 0x00#8 ∉ [0xFF#8] :=
  ⟨(fun _ h => nomatch h), by decide, by decide, by decide⟩

/-- The first pixel of P4's image: the bytes 61 00 31, cut inside the size string. -/
theorem witness_RetrieveReportsTruncation_size :
    (carrier 1 1 0xFF#8 [0x9EFFCE#24]).portsAnswerOk ∧
    payloadBits [0x61#8, 0x00#8, 0x31#8] <+: (carrier 1 1 0xFF#8 [0x9EFFCE#24]).storedBits ∧
    (carrier 1 1 0xFF#8 [0x9EFFCE#24]).storedBits.length < 8 * [0x61#8, 0x00#8, 0x31#8].length + 8 ∧
    [0x61#8, 0x00#8, 0x31#8] = [0x61#8] ++ [0x00#8] ++ [0x31#8] ∧ 0x00#8 ∉ [0x61#8] ∧ 0x00#8 ∉ [0x31#8] :=
  ⟨(fun _ h => nomatch h), by decide, by decide, by decide, by decide, by decide⟩

/-- The bytes 00 31 00: an empty name and the size 1, cut before the one raw byte. -/
theorem witness_RetrieveReportsTruncation_data :
    (carrier 1 1 0xFF#8 [0xFFCEFF#24]).portsAnswerOk ∧
    payloadBits [0x00#8, 0x31#8, 0x00#8] <+: (carrier 1 1 0xFF#8 [0xFFCEFF#24]).storedBits ∧
    (carrier 1 1 0xFF#8 [0xFFCEFF#24]).storedBits.length < 8 * [0x00#8, 0x31#8, 0x00#8].length + 8 ∧
    [0x00#8, 0x31#8, 0x00#8] = [] ++ [0x00#8] ++ [0x31#8] ++ [0x00#8] ++ [] ∧ 0x00#8 ∉ [0x31#8] ∧
    parseSize [0x31#8] = some 1 ∧ ([] : List Byte).length < 1 :=
  ⟨(fun _ h => nomatch h), by decide, by decide, by decide, by decide, by decide, by decide⟩

/-- V-C4's pixels: an empty name and an empty size. -/
theorem witness_RetrieveReportsNoSecret :
    (carrier 1 1 0xFF#8 [0xFFFFFF#24]).portsAnswerOk ∧ 0x00#8 ∉ ([] : List Byte) ∧ parseSize [] = none ∧
    payloadBits ([] ++ [0x00#8] ++ [] ++ [0x00#8]) <+: (carrier 1 1 0xFF#8 [0xFFFFFF#24]).storedBits :=
  ⟨(fun _ h => nomatch h), by decide, by decide, by decide⟩

theorem witness_RoundTrip :
    framed.portsAnswerOk ∧ framed.image.wf = true ∧ 0x00#8 ∉ framed.srcName ∧ 1 ≤ framed.srcData.length ∧
    framed.srcData.length ≤ 2 ^ 32 - 1 ∧
    (frame framed.srcName framed.srcData).length ≤ capacity framed.imgw framed.imgh (popcount framed.mask) :=
  ⟨(fun _ h => nomatch h), by decide, by decide, by decide, by decide, by decide⟩

theorem witness_OperationsEqualHostSequences :
    (∃ t, exec .embed framed = .next t ∧ t.hung = false ∧
      (frame framed.srcName framed.srcData).length ≤ capacity framed.imgw framed.imgh (popcount framed.mask)) ∧
    ∃ t, exec .retrieve stego = .next t ∧ t.hung = false :=
  ⟨⟨_, rfl, by decide, by decide⟩, ⟨_, rfl, by decide⟩⟩

theorem witness_OnlyWadvAndEmbedWriteTheImage :
    ∃ t, exec .radv framed = .next t ∧ Instr.radv ≠ .wadv ∧ Instr.radv ≠ .embed :=
  ⟨_, rfl, by decide, by decide⟩

theorem witness_RegistersHaveTheirWriters :
    ∃ t, exec (.setmask 0x01#8) framed = .next t ∧ Instr.setmask 0x01#8 ≠ .srst ∧ t.mask ≠ framed.mask :=
  ⟨_, rfl, by decide, by decide⟩

theorem witness_StatusRecordsTheOutcome : ∃ t, exec .packb framed = .next t := ⟨_, rfl⟩

/-- A RETRIEVE whose fourth access, the write of its one raw byte after SinkOpen, fails (V-IO shape). -/
theorem witness_StatusRecordsTheOutcome_io :
    ∃ t, exec .retrieve { stego with answers := [.ok, .ok, .ok, .fail] } = .next t ∧
      t.responses = [⟨.ioFailure, 0⟩] ∧ t.trace = [.sinkOpen [0x61#8], .sinkClose] ∧ t.status = 0x304#11 :=
  ⟨_, rfl, by decide, by decide, by decide⟩

theorem witness_CommandsNeverLeaveTheImage : (traversing 1 1 []).cursorInside :=
  fun _ _ => ⟨by decide, by decide⟩

/-- A traversal under way, and a new image attached when none is. -/
theorem witness_RegistersStayLegal :
    (∃ t, step { traversing 1 1 [] with inbox := [.command 0x31000000#32] } = .next t ∧
      { traversing 1 1 [] with inbox := [.command 0x31000000#32] }.registersLegal ∧
      { traversing 1 1 [] with inbox := [.command 0x31000000#32] }.cursorInside ∧
      { traversing 1 1 [] with inbox := [.command 0x31000000#32] }.hostKeepsImage) ∧
    (∃ t, step (waiting (.attachImage 1 1 [7#24])) = .next t ∧ (waiting (.attachImage 1 1 [7#24])).registersLegal ∧
      (waiting (.attachImage 1 1 [7#24])).cursorInside ∧ (waiting (.attachImage 1 1 [7#24])).hostKeepsImage) := by
  refine ⟨⟨_, rfl, ⟨by unfold State.bitPathBounded; decide, by unfold State.cursorAtStart; decide,
    by unfold State.framerFlagsApart; decide⟩, fun _ _ => ⟨by decide, by decide⟩, ?_⟩,
    ⟨_, rfl, ⟨by unfold State.bitPathBounded; decide, by unfold State.cursorAtStart; decide,
    by unfold State.framerFlagsApart; decide⟩, ?_, fun _ _ _ _ => .inl rfl⟩⟩
  · intro w h pixels e
    simp at e
  · intro e
    exact absurd e (by decide)

theorem witness_ImageStaysLegal :
    framed.imageLegal ∧ ∃ t, step { framed with inbox := [.writePixel 1 0 7#24] } = .next t :=
  ⟨⟨by decide, by decide⟩, ⟨_, rfl⟩⟩

theorem witness_WidthsStayHeld :
    (waiting (.command 0x60000000#32)).widthsHold ∧ (waiting (.command 0x60000000#32)).cursorInside ∧
    ∃ t, step (waiting (.command 0x60000000#32)) = .next t :=
  ⟨⟨by decide, by decide, by decide, by decide, by decide⟩, fun h => absurd h (by decide), ⟨_, rfl⟩⟩

end Sys2Proof.Tests
end

