-- ==== Sys2Proof/Proofs/HostMoves.lean ====
section
/-! SUPPORT. What one step of the machine can do, said once: the host's next move is taken (spec/00_scope.md R14), and
a command is its body with one response. -/

namespace Sys2Proof.Machine

variable {s t : State} {m : HostMove} {rest : List HostMove} {i : Instr}

/-! ### What a part of a command leaves, by how it ends -/

theorem Res.leaves_iff {α : Type} {P H : State → Prop} {r : Res α} :
    r.leaves P H ↔ (∀ a t, r = .done a t → P t) ∧ ∀ t, r = .hang t → H t := by
  cases r <;> simp

theorem Res.leaves.of_done {α : Type} {P H : State → Prop} {r : Res α} {a : α} (hr : r.leaves P H)
    (h : r = .done a t) : P t := (Res.leaves_iff.1 hr).1 a t h

theorem Res.leaves.of_hang {α : Type} {P H : State → Prop} {r : Res α} (hr : r.leaves P H)
    (h : r = .hang t) : H t := (Res.leaves_iff.1 hr).2 t h

theorem Res.leaves.mono {α : Type} {P P' : State → Prop} {r : Res α} (hr : r.leaves P P)
    (hP : ∀ u, P u → P' u) : r.leaves P' P' :=
  Res.leaves_iff.2 ⟨fun _ u h => hP u (hr.of_done h), fun u h => hP u (hr.of_hang h)⟩

/-! ### A command and its body -/

/-- The pseudocode of a command up to its response; of RDREG, its path for a number no register has (R202). -/
def bodyOf : Instr → State → Res Answer
  | .setmask imm8 => setmaskStep imm8
  | .rdreg imm8 => fun s => .done { code := .illegalOperand, value := byteOperand imm8 } s
  | .srst => srstStep
  | .ldpx imm24 => ldpxStep imm24
  | .ldch imm24 => ldchStep imm24
  | .cdec => cdecStep
  | .cenc => cencStep
  | .ldbyte imm8 => ldbyteStep imm8
  | .expb => expbStep
  | .ldrem imm8 => ldremStep imm8
  | .pemb => pembStep
  | .pext => pextStep
  | .packb => packbStep
  | .cinit => cinitStep
  | .wadv => wadvStep
  | .radv => radvStep
  | .finit => finitStep
  | .fnext => fnextStep
  | .fput => fputStep
  | .cap => capStep
  | .embed => embedStep
  | .retrieve => retrieveStep

/-- Every command but RDREG is its body, ended by `finish`. -/
theorem exec_eq_finish (h : ∀ imm8, i ≠ .rdreg imm8) : exec i s = finish (bodyOf i s) := by
  cases i with
  | rdreg imm8 => exact absurd rfl (h imm8)
  | _ => rfl

/-- RDREG of a number no register has is its body too. -/
theorem exec_rdreg_of_none {imm8 : Byte} (h : readRegister s (byteOperand imm8) = none) :
    exec (.rdreg imm8) s = finish (bodyOf (.rdreg imm8) s) := by
  simp only [exec, execRdreg, h, bodyOf]

theorem exec_rdreg_of_some {imm8 : Byte} {v : Nat} (h : readRegister s (byteOperand imm8) = some v) :
    exec (.rdreg imm8) s = .next (s.respondQuietly v) := by
  simp only [exec, execRdreg, h]

/-- A command that gives a next state read a register, or its body answered, or its body hangs. -/
theorem exec_cases (h : exec i s = .next t) :
    (∃ imm8 v, i = .rdreg imm8 ∧ readRegister s (byteOperand imm8) = some v ∧ t = s.respondQuietly v) ∨
    (∃ a u, bodyOf i s = .done a u ∧ t = u.respond a) ∨
    (∃ u, bodyOf i s = .hang u ∧ t = { u with hung := true }) := by
  by_cases hread : ∃ imm8, i = .rdreg imm8
  · obtain ⟨imm8, rfl⟩ := hread
    cases hv : readRegister s (byteOperand imm8) with
    | some v =>
      rw [exec_rdreg_of_some hv, Host.Outcome.next.injEq] at h
      exact .inl ⟨imm8, v, rfl, hv, h.symm⟩
    | none =>
      rw [exec_rdreg_of_none hv] at h
      exact .inr (finish_eq_next.1 h)
  · rw [exec_eq_finish fun imm8 hi => hread ⟨imm8, hi⟩] at h
    exact .inr (finish_eq_next.1 h)

/-- A command leaves what its body leaves, where no response and no waiting for a port changes it. RDREG's body leaves
the state as it is, so what it leaves holds on RDREG's OK path too. -/
theorem exec_leaves {P H : State → Prop} (hbody : (bodyOf i s).leaves P H)
    (hrespond : ∀ u a, P u → P (u.respond a)) (hquiet : ∀ u v, P u → P (u.respondQuietly v))
    (hhang : ∀ u, H u → P { u with hung := true }) (h : exec i s = .next t) : P t := by
  rcases exec_cases h with ⟨imm8, v, rfl, _, rfl⟩ | ⟨a, u, hu, rfl⟩ | ⟨u, hu, rfl⟩
  · exact hquiet s v hbody
  · rw [hu] at hbody
    exact hrespond u a hbody
  · rw [hu] at hbody
    exact hhang u hbody

/-! ### The host's next move -/

/-- What each move of the host leads to, from the state in which it is already taken out of the inbox. -/
inductive HostMove.Leads (s : State) : HostMove → State → Prop
  | command {w : Word} {i : Instr} {t : State} (hdecode : decode w = .ok i) (hexec : exec i s = .next t) :
      Leads s (.command w) t
  | illegal {w : Word} {r : DecodeReject} (hdecode : decode w = .error r) :
      Leads s (.command w) (illegalCommand w s)
  | resetInput : Leads s .resetInput s.hardReset
  | attachImage {w h : Nat} {pixels : List Pixel} (hfits : imageFits w h pixels = true) :
      Leads s (.attachImage w h pixels)
        { s with imgw := w, imgh := h, image := Memory.layPixels [] 0 pixels }
  | writePixel {x y : Nat} {p : Pixel} (hin : s.inImage x y = true) :
      Leads s (.writePixel x y p) (s.setPixel x y p)
  | attachSource {name data : List Byte} (hfits : sourceFits name data = true) :
      Leads s (.attachSource name data) { s with srcName := name, srcData := data }
  | settleAnswers {answers : List PortAnswer} :
      Leads s (.settleAnswers answers) { s with answers := s.answers ++ answers }

/-- The outcome of a move already taken: `step` after `takeMove`. -/
def Taken.outcome : Taken → Host.Outcome State Fault Refusal
  | .command i s => exec i s
  | .settled o => o

theorem step_eq_outcome : step s = (takeMove s).outcome := by
  unfold step
  split <;> rename_i htaken <;> rw [htaken] <;> rfl

/-- `HostMove.Leads` is the graph of the model's `hostMove`, where it gives a next state. -/
theorem hostMove_outcome_eq_next : (hostMove m s).outcome = .next t ↔ m.Leads s t := by
  constructor
  · intro h
    cases m with
    | command w =>
      simp only [hostMove, takeWord] at h
      split at h
      · exact .command ‹_› h
      · cases h; exact .illegal ‹_›
    | resetInput => cases h; exact .resetInput
    | attachImage w h' pixels =>
      simp only [hostMove, attachImage, Taken.outcome] at h
      split at h <;> cases h
      exact .attachImage ‹_›
    | writePixel x y p =>
      simp only [hostMove, hostWritePixel, Taken.outcome] at h
      split at h <;> cases h
      exact .writePixel ‹_›
    | attachSource name data =>
      simp only [hostMove, attachSource, Taken.outcome] at h
      split at h <;> cases h
      exact .attachSource ‹_›
    | settleAnswers answers => cases h; exact .settleAnswers
  · intro h
    cases h with
    | command hdecode hexec =>
      simp only [hostMove, takeWord, hdecode]
      exact hexec
    | illegal hdecode => simp only [hostMove, takeWord, hdecode, Taken.outcome]
    | resetInput => rfl
    | attachImage hfits => simp only [hostMove, attachImage, hfits, if_true, Taken.outcome]
    | writePixel hin => simp only [hostMove, hostWritePixel, hin, if_true, Taken.outcome]
    | attachSource hfits => simp only [hostMove, attachSource, hfits, if_true, Taken.outcome]
    | settleAnswers => rfl

/-- The next move is taken unless the block hangs and the move is not the reset input (R255). -/
theorem takeMove_cons (hin : s.inbox = m :: rest) (hfree : s.hung = true → m = .resetInput) :
    takeMove s = hostMove m { s with inbox := rest } := by
  have htaken : ¬(s.hung = true ∧ m ≠ .resetInput) := fun ⟨hhung, hne⟩ => hne (hfree hhung)
  simp only [takeMove, hin, if_neg htaken]

/-- Everything a step can do: keep the state, or take the host's next move. -/
theorem step_cases (h : step s = .next t) :
    t = s ∨ ∃ m rest, s.inbox = m :: rest ∧ (s.hung = true → m = .resetInput) ∧
      m.Leads { s with inbox := rest } t := by
  rw [step_eq_outcome] at h
  cases hin : s.inbox with
  | nil =>
    simp only [takeMove, hin, Taken.outcome, Host.Outcome.next.injEq] at h
    exact .inl h.symm
  | cons m rest =>
    by_cases hfree : s.hung = true → m = .resetInput
    · rw [takeMove_cons hin hfree] at h
      exact .inr ⟨m, rest, rfl, hfree, hostMove_outcome_eq_next.1 h⟩
    · simp only [takeMove, hin, if_pos (Classical.not_imp.1 hfree), Taken.outcome,
        Host.Outcome.next.injEq] at h
      exact .inl h.symm

/-! ### A command word -/

/-- A word that decodes is run, with the word taken out of the inbox. -/
theorem step_command {w : Word} (hin : s.inbox = .command w :: rest) (hfree : s.hung = false)
    (hdecode : decode w = .ok i) : step s = exec i { s with inbox := rest } := by
  rw [step_eq_outcome, takeMove_cons hin fun hhung => absurd (hfree.symm.trans hhung) Bool.false_ne_true]
  simp only [hostMove, takeWord, hdecode, Taken.outcome]

/-- A word of the full 32 bits crosses the command port as it stands (30_encoding.md R70). -/
theorem tableWord_toNat (w : Word) : tableWord 32 w.toNat = w := by
  rw [tableWord, Nat.mod_eq_of_lt w.isLt, BitVec.ofNat_toNat, BitVec.setWidth_eq]

/-- Settles O4: the second half is the first at the state in which `withFetchWord` has put the word. -/
theorem stepRunsTheDecodedCommand : Obligations.StepRunsTheDecodedCommand := by
  unfold Obligations.StepRunsTheDecodedCommand
  refine ⟨fun s w rest i hin hfree hdecode => step_command hin hfree hdecode, fun s w i hdecode => ?_⟩
  rw [State.withFetchWord, tableWord_toNat]
  exact step_command (State.putCommand_inbox s w) (State.putCommand_hung s w) hdecode

end Sys2Proof.Machine
end

