-- ==== Sys2Proof/Proofs/Widths.lean ====
section
/-! SUPPORT. The registers stay within their widths (spec/00_scope.md R6; 45_capacity.md R171). The bound of CURX and
CURY rests on the cursor being inside the image (10_state.md R43 (b)), so the two are carried together through the
loops of EMBED and RETRIEVE. -/

namespace Sys2Proof.Machine

/-! ### What the pure functions are bounded by -/

/-- A mask enables at most eight bits. -/
theorem popcount_le (v : Byte) : popcount v ≤ 8 := List.countP_le_length

/-- The capacity fits CAPR for every image whose dimensions fit COORD_W (R171). -/
theorem capacity_lt {w h n : Nat} (hw : w < 2 ^ Config.coordW) (hh : h < 2 ^ Config.coordW) (hn : n ≤ 8) :
    capacity w h n < 2 ^ Config.capW := by
  have hpixels : w * h < 2 ^ Config.coordW * 2 ^ Config.coordW := Nat.mul_lt_mul'' hw hh
  have harea : 2 ^ Config.coordW * 2 ^ Config.coordW = 2 ^ 32 := rfl
  have hbits : w * h * 3 * n ≤ w * h * 3 * 8 := Nat.mul_le_mul_left _ hn
  have hcap : 2 ^ Config.capW = 2 ^ 34 := rfl
  rw [capacity, hcap]
  omega

/-- A number below 10^(d + 1) is written with at most d + 1 digits. -/
theorem decUpTo_length_le {k d v : Nat} (hv : v < 10 ^ (d + 1)) : (decUpTo k v).length ≤ d + 1 := by
  induction k generalizing d v with
  | zero => exact Nat.zero_le _
  | succ k ih =>
    unfold decUpTo
    split
    · exact Nat.le_add_left 1 d
    · cases d with
      | zero => omega
      | succ d =>
        have hfront : (decUpTo k (v / 10)).length ≤ d + 1 := ih (by rw [pow_succ] at hv; omega)
        simpa using hfront

/-- The numeral of a length that fits SIZE_W has at most ten digits. -/
theorem dec_length_le {v : Nat} (hv : v < 2 ^ Config.sizeW) : (dec v).length ≤ 10 :=
  decUpTo_length_le (d := 9) (hv.trans (by decide))

/-- The framed length fits FLEN for every source whose lengths fit SIZE_W (R6). -/
theorem framedLength_lt {name data : List Byte} (hname : name.length < 2 ^ Config.sizeW)
    (hdata : data.length < 2 ^ Config.sizeW) : framedLength name data < 2 ^ Config.flenW := by
  have hdigits := dec_length_le hdata
  have hsize : 2 ^ Config.sizeW = 2 ^ 32 := rfl
  have hflen : 2 ^ Config.flenW = 2 ^ 34 := rfl
  rw [hsize] at hname hdata
  rw [framedLength, hflen]
  omega

/-- A size string that parses stands for a value that fits SIZEV (44_payload_framer.md R161). -/
theorem parseSize_lt {text : List Byte} {v : Nat} (h : parseSize text = some v) : v < 2 ^ Config.sizeW := by
  simp only [parseSize] at h
  split at h <;> cases h
  rename_i hlegal
  obtain ⟨_, _, _, hle⟩ := hlegal
  exact Nat.lt_of_le_pred (Nat.two_pow_pos _) hle

/-! ### The invariant, and the updates that keep it -/

/-- The checked registers fit their widths and, in the walk over the image of EMBED and RETRIEVE, the cursor is legal
(R43 (b), (c)). A single command may start with a cursor that is not at (0, 0) before its first pixel. -/
def State.fits (walking : Bool) (s : State) : Prop :=
  s.widthsHold ∧ (walking = true → s.cursorInside ∧ s.cursorAtStart)

section
variable {s t : State} {a : Answer} {w : Bool}

@[simp] theorem State.fits_false : s.fits false ↔ s.widthsHold := by simp [State.fits]

theorem State.fits_releaseSink (hs : s.fits w) : s.releaseSink.fits w := by
  rcases s.releaseSink_cases with ⟨_, h⟩ | ⟨_, h⟩ <;> rw [h] <;> exact hs

theorem State.widthsHold_resetRegisters (hs : s.widthsHold) : s.resetRegisters.widthsHold := by
  obtain ⟨himage, _, _, hsource, _⟩ := hs
  have hzero (n : Nat) : 0 < 2 ^ n := Nat.two_pow_pos n
  exact ⟨himage, ⟨hzero _, hzero _⟩, ⟨hzero _, hzero _⟩, hsource, hzero _, hzero _⟩

theorem State.fits_idx (hs : s.fits w) {n : Nat} (hn : n < 2 ^ Config.sizeW) : State.fits w { s with idx := n } := by
  obtain ⟨⟨himage, hcursor, ⟨_, hsizev⟩, hrest⟩, hlegal⟩ := hs
  exact ⟨⟨himage, hcursor, ⟨hn, hsizev⟩, hrest⟩, hlegal⟩

theorem State.fits_sizev (hs : s.fits w) {n : Nat} (hn : n < 2 ^ Config.sizeW) :
    State.fits w { s with sizev := n } := by
  obtain ⟨⟨himage, hcursor, ⟨hidx, _⟩, hrest⟩, hlegal⟩ := hs
  exact ⟨⟨himage, hcursor, ⟨hidx, hn⟩, hrest⟩, hlegal⟩

theorem State.fits_capr (hs : s.fits w) : State.fits w { s with capr := imageCapacity s } := by
  obtain ⟨⟨⟨hw, hh⟩, hcursor, hframer, hsource, _, hflen⟩, hlegal⟩ := hs
  exact ⟨⟨⟨hw, hh⟩, hcursor, hframer, hsource, capacity_lt hw hh (popcount_le s.mask), hflen⟩, hlegal⟩

/-- The pre-check of EMBED loads CAPR and FLEN within their widths (R189). -/
theorem fits_loadEmbedSizes (hs : s.fits w) : (loadEmbedSizes s).fits w := by
  obtain ⟨⟨himage, hcursor, hframer, ⟨hname, hdata⟩, hcap, _⟩, hlegal⟩ := State.fits_capr hs
  exact ⟨⟨himage, hcursor, hframer, ⟨hname, hdata⟩, hcap, framedLength_lt hname hdata⟩, hlegal⟩

/-- A cursor back before its first pixel at (0, 0) is legal, wherever it stood. -/
theorem State.fits_clearCursor (hs : s.widthsHold) :
    State.fits w { s with curx := 0, cury := 0, issued := false, exh := false } := by
  obtain ⟨himage, _, hrest⟩ := hs
  exact ⟨⟨himage, ⟨Nat.two_pow_pos _, Nat.two_pow_pos _⟩, hrest⟩, fun _ => ⟨nofun, fun _ => ⟨rfl, rfl⟩⟩⟩

/-- In a traversal the cursor may move within the image, or to the row below it when it is exhausted there. -/
theorem State.fits_moveCursor (hs : s.fits w) (hissued : s.issued = true) {x y : Nat} {exhausted : Bool}
    (hx : x < s.imgw) (hy : y ≤ s.imgh) (hrow : exhausted = false → y < s.imgh) :
    State.fits w { s with curx := x, cury := y, exh := exhausted } := by
  obtain ⟨⟨⟨hw, hh⟩, _, hrest⟩, _⟩ := hs
  exact ⟨⟨⟨hw, hh⟩, ⟨hx.trans hw, hy.trans_lt hh⟩, hrest⟩,
    fun _ => ⟨fun _ hexh => ⟨hx, hrow hexh⟩, fun hnot => nomatch hissued.symm.trans hnot⟩⟩

/-! ### The cursor commands -/

/-- From inside the image the next position is in a column of the image, at most one row below it (R132). -/
theorem nextPosition_bounds (hx : s.curx < s.imgw) (hy : s.cury < s.imgh) :
    (nextPosition s).1 < s.imgw ∧ (nextPosition s).2 ≤ s.imgh := by
  unfold nextPosition
  split <;> dsimp only <;> omega

theorem cinitStep_keeps_fits : Keeps (State.fits w) (State.fits w) cinitStep :=
  fun _ hs => State.fits_clearCursor hs.1

/-- The first advance leaves the cursor where it stands: at (0, 0), where a legal cursor stands before its first pixel,
so that the pixel issued is one of the image (R133). -/
theorem firstAdvance_leaves_fits {reload : Bool} (hs : s.fits w) (hfresh : s.issued = false) :
    (firstAdvance reload s).leaves (State.fits w) (State.fits w) := by
  obtain ⟨hwidths, hlegal⟩ := hs
  refine Res.leaves_iff.2 ⟨fun a t h => ?_, fun t h => ?_⟩
  · rcases firstAdvance_cases h with ⟨_, _, rfl⟩ | ⟨hin, _, _, rfl⟩ | ⟨_, _, _, rfl⟩
    · exact ⟨hwidths, fun hw => ⟨fun _ => nofun, (hlegal hw).2⟩⟩
    · refine ⟨hwidths, fun hw => ⟨fun _ _ => ?_, nofun⟩⟩
      obtain ⟨hx, hy⟩ := (hlegal hw).2 hfresh
      have horigin : s.curx < s.imgw ∧ s.cury < s.imgh := by
        rw [hx, hy]
        exact State.inImage_iff.1 hin
      exact horigin
    · exact ⟨hwidths, hlegal⟩
  · obtain ⟨_, _, rfl⟩ := firstAdvance_hang h
    exact ⟨hwidths, hlegal⟩

/-- From a pixel of the image the move leads to a pixel of the image or reports exhaustion (R134, R135, R137). -/
theorem moveAndRead_leaves_fits {reload : Bool} (hs : s.fits w) (hissued : s.issued = true)
    (hpixel : s.curx < s.imgw ∧ s.cury < s.imgh) :
    (moveAndRead reload s).leaves (State.fits w) (State.fits w) := by
  obtain ⟨hx, hy⟩ := hpixel
  obtain ⟨hnx, hny⟩ := nextPosition_bounds hx hy
  refine Res.leaves_iff.2 ⟨fun a t h => ?_, fun t h => ?_⟩
  · rcases moveAndRead_cases h with ⟨_, _, rfl⟩ | ⟨hin, _, _, rfl⟩ | ⟨_, _, _, rfl⟩
    · exact State.fits_moveCursor hs hissued (exhausted := true) hnx hny nofun
    · exact State.fits_moveCursor hs hissued (exhausted := s.exh) hnx hny fun _ => (State.inImage_iff.1 hin).2
    · exact hs
  · obtain ⟨_, _, rfl⟩ := moveAndRead_hang h
    exact hs

/-- A WADV commits to the pixel under a legal cursor, then moves; before the first pixel it is the first advance. -/
theorem wadvStep_leaves_fits (hs : s.fits w) (hinside : s.cursorInside) :
    (wadvStep s).leaves (State.fits w) (State.fits w) := by
  have hcommitted : (s.afterCommit s.curx s.cury s.pxr).fits w := hs
  have hmoved (hexh : s.exh = false) (hissued : s.issued = true) :
      (moveAndRead true (s.afterCommit s.curx s.cury s.pxr)).leaves (State.fits w) (State.fits w) :=
    moveAndRead_leaves_fits hcommitted hissued (hinside hissued hexh)
  refine Res.leaves_iff.2 ⟨fun a t h => ?_, fun t h => ?_⟩
  · rcases wadvStep_cases h with ⟨_, _, rfl⟩ | ⟨_, hfresh, hfirst⟩ | ⟨hexh, hissued, _, _, hmove⟩ | ⟨_, _, _, _, _, rfl⟩
    · exact hs
    · exact (firstAdvance_leaves_fits hs hfresh).of_done hfirst
    · exact (hmoved hexh hissued).of_done hmove
    · exact hs
  · obtain ⟨hexh, ⟨hfresh, hfirst⟩ | ⟨_, _, _, rfl⟩ | ⟨hissued, _, _, hmove⟩⟩ := wadvStep_hang h
    · exact (firstAdvance_leaves_fits hs hfresh).of_hang hfirst
    · exact hs
    · exact (hmoved hexh hissued).of_hang hmove

theorem radvStep_leaves_fits (hs : s.fits w) (hinside : s.cursorInside) :
    (radvStep s).leaves (State.fits w) (State.fits w) := by
  refine Res.leaves_iff.2 ⟨fun a t h => ?_, fun t h => ?_⟩
  · rcases radvStep_cases h with ⟨_, _, rfl⟩ | ⟨_, hfresh, hfirst⟩ | ⟨hexh, hissued, hmove⟩
    · exact hs
    · exact (firstAdvance_leaves_fits hs hfresh).of_done hfirst
    · exact (moveAndRead_leaves_fits hs hissued (hinside hissued hexh)).of_done hmove
  · obtain ⟨hexh, ⟨hfresh, hfirst⟩ | ⟨hissued, hmove⟩⟩ := radvStep_hang h
    · exact (firstAdvance_leaves_fits hs hfresh).of_hang hfirst
    · exact (moveAndRead_leaves_fits hs hissued (hinside hissued hexh)).of_hang hmove

/-! ### The bit path, which none of these registers belongs to -/

theorem ldremStep_keeps_fits (imm8 : Byte) : Keeps (State.fits w) (State.fits w) (ldremStep imm8) := by
  intro s hs
  unfold ldremStep
  split <;> exact hs

theorem expbStep_keeps_fits : Keeps (State.fits w) (State.fits w) expbStep := fun _ hs => hs

theorem pembStep_keeps_fits : Keeps (State.fits w) (State.fits w) pembStep := by
  intro s hs
  unfold pembStep
  split <;> exact hs

theorem pextStep_keeps_fits : Keeps (State.fits w) (State.fits w) pextStep := by
  intro s hs
  unfold pextStep
  split <;> exact hs

theorem packbStep_keeps_fits : Keeps (State.fits w) (State.fits w) packbStep := by
  intro s hs
  unfold packbStep
  split <;> exact hs

/-! ### The framer -/

theorem finitStep_keeps_fits : Keeps (State.fits w) (State.fits w) finitStep := by
  intro s hs
  have hpos : 0 < 2 ^ Config.sizeW := Nat.two_pow_pos _
  exact State.fits_sizev (State.fits_idx (State.fits_releaseSink hs) hpos) hpos

/-- IDX runs at most to the length of the text it indexes (R156). -/
theorem fits_of_emitFrom {text : List Byte} {next : Component} (hs : s.fits w)
    (htext : text.length < 2 ^ Config.sizeW) (h : emitFrom text next s = .done a t) : t.fits w := by
  rcases emitFrom_cases h with ⟨b, hb, _, rfl⟩ | ⟨_, _, rfl⟩
  · obtain ⟨hidx, _⟩ := List.getElem?_eq_some_iff.1 hb
    exact State.fits_idx hs (Nat.lt_of_le_of_lt hidx htext)
  · exact State.fits_idx hs (Nat.two_pow_pos _)

theorem fnextStep_keeps_fits : Keeps (State.fits w) (State.fits w) fnextStep := by
  intro s hs
  have ⟨⟨_, _, _, ⟨hname, hdata⟩, _⟩, _⟩ := hs
  have hdigits : (dec s.srcData.length).length < 2 ^ Config.sizeW :=
    (dec_length_le hdata).trans_lt (by decide)
  refine Res.leaves_iff.2 ⟨fun a t h => ?_, fun t h => ?_⟩
  · rcases fnextStep_cases h with ⟨_, _, rfl⟩ | ⟨_, _, hemit⟩ | ⟨_, _, hemit⟩ | ⟨_, _, _, _, rfl⟩ |
      ⟨_, _, _, _, _, rfl⟩ | ⟨_, _, _, _, _, _, rfl⟩
    · exact hs
    · exact fits_of_emitFrom hs hname hemit
    · exact fits_of_emitFrom hs hdigits hemit
    · exact hs
    · exact hs
    · exact hs
  · obtain ⟨_, _, _, rfl⟩ := fnextStep_hang h
    exact hs

theorem fits_of_fputName (hs : s.fits w) (h : fputName s = .done a t) : t.fits w := by
  rcases fputName_cases h with ⟨_, _, rfl⟩ | ⟨_, _, _, rfl⟩ | ⟨_, _, _, rfl⟩ <;> exact hs

/-- SIZEV takes only what parses (R160, R161). -/
theorem fits_of_fputSize (hs : s.fits w) (h : fputSize s = .done a t) : t.fits w := by
  rcases fputSize_cases h with ⟨_, _, rfl⟩ | ⟨_, _, _, _, rfl⟩ | ⟨_, _, _, _, rfl⟩ | ⟨v, _, hparse, _, rfl⟩
  · exact hs
  · exact hs
  · exact hs
  · exact State.fits_sizev hs (parseSize_lt hparse)

theorem fits_of_fputRaw (hs : s.fits w) (h : fputRaw s = .done a t) : t.fits w := by
  have hwritten (ans : PortAnswer) : (s.afterWrite ans).fits w := hs
  rcases fputRaw_cases h with ⟨_, _, _, rfl⟩ | ⟨_, _, _, rfl⟩ | ⟨_, _, rfl⟩
  · have hclosed : (s.afterWrite .ok).sinkClose.fits w := hwritten .ok
    exact hclosed
  · exact hwritten .ok
  · exact hwritten .fail

theorem fputStep_keeps_fits : Keeps (State.fits w) (State.fits w) fputStep := by
  intro s hs
  refine Res.leaves_iff.2 ⟨fun a t h => ?_, fun t h => ?_⟩
  · rcases fputStep_cases h with ⟨_, _, rfl⟩ | ⟨_, _, _, rfl⟩ | ⟨_, _, _, hname⟩ | ⟨_, _, _, hsize⟩ | ⟨_, _, _, hraw⟩
    · exact hs
    · exact hs
    · exact fits_of_fputName hs hname
    · exact fits_of_fputSize hs hsize
    · exact fits_of_fputRaw hs hraw
  · obtain ⟨_, _, _, ⟨_, _, rfl⟩ | ⟨_, rfl⟩⟩ := fputStep_hang h <;> exact hs

/-! ### The two operations -/

/-- Both operations begin with CINIT, so where the cursor stood before does not matter to them (10_state.md R42). -/
theorem freshOperation_clearCursor :
    freshOperation { s with curx := 0, cury := 0, issued := false, exh := false } = freshOperation s := rfl

/-- From any cursor: EMBED walks the image with the cursor its own CINIT has made legal. -/
theorem embedStep_leaves_fits (hs : s.widthsHold) : (embedStep s).leaves (State.fits true) (State.fits true) := by
  have hwadv : Keeps (State.fits true) (State.fits true) wadvStep := fun u hu =>
    wadvStep_leaves_fits hu (hu.2 rfl).1
  have hkeeps := embedStep_keeps cinitStep_keeps_fits finitStep_keeps_fits (fun _ => fits_loadEmbedSizes)
    fnextStep_keeps_fits expbStep_keeps_fits hwadv pembStep_keeps_fits fun _ hu => hu
  have hcleared := hkeeps _ (State.fits_clearCursor hs)
  rwa [embedStep, freshOperation_clearCursor, ← embedStep] at hcleared

/-- From any cursor, as for EMBED. -/
theorem retrieveStep_leaves_fits (hs : s.widthsHold) :
    (retrieveStep s).leaves (State.fits true) (State.fits true) := by
  have hradv : Keeps (State.fits true) (State.fits true) radvStep := fun u hu =>
    radvStep_leaves_fits hu (hu.2 rfl).1
  have hkeeps := retrieveStep_keeps cinitStep_keeps_fits finitStep_keeps_fits hradv pextStep_keeps_fits
    packbStep_keeps_fits fputStep_keeps_fits fun _ => State.fits_releaseSink
  have hcleared := hkeeps _ (State.fits_clearCursor hs)
  rwa [retrieveStep, freshOperation_clearCursor, ← retrieveStep] at hcleared

/-! ### Every command and every move -/

theorem body_leaves_fits (i : Instr) (hs : s.widthsHold) (hinside : s.cursorInside) :
    (bodyOf i s).leaves (State.fits false) (State.fits false) := by
  have hfits : s.fits false := State.fits_false.2 hs
  have hweaken (u : State) (hu : u.fits true) : u.fits false := State.fits_false.2 hu.1
  cases i with
  | setmask | rdreg | ldpx | ldch | cdec | cenc | ldbyte => exact hfits
  | srst => exact State.fits_false.2 (State.widthsHold_resetRegisters (State.fits_releaseSink hfits).1)
  | expb => exact expbStep_keeps_fits s hfits
  | ldrem imm8 => exact ldremStep_keeps_fits imm8 s hfits
  | pemb => exact pembStep_keeps_fits s hfits
  | pext => exact pextStep_keeps_fits s hfits
  | packb => exact packbStep_keeps_fits s hfits
  | cinit => exact cinitStep_keeps_fits s hfits
  | wadv => exact wadvStep_leaves_fits hfits hinside
  | radv => exact radvStep_leaves_fits hfits hinside
  | finit => exact finitStep_keeps_fits s hfits
  | fnext => exact fnextStep_keeps_fits s hfits
  | fput => exact fputStep_keeps_fits s hfits
  | cap => exact State.fits_capr hfits
  | embed => exact (embedStep_leaves_fits hs).mono hweaken
  | retrieve => exact (retrieveStep_leaves_fits hs).mono hweaken

theorem exec_widthsHold {i : Instr} (hs : s.widthsHold) (hinside : s.cursorInside) (h : exec i s = .next t) :
    t.widthsHold :=
  State.fits_false.1 <|
    exec_leaves (body_leaves_fits i hs hinside) (fun _ _ hu => hu) (fun _ _ hu => hu) (fun _ hu => hu) h

theorem widthsHold_attachImage {x y : Nat} {pixels : List Pixel} (hs : s.widthsHold)
    (hfits : imageFits x y pixels = true) :
    State.widthsHold { s with imgw := x, imgh := y, image := Memory.layPixels [] 0 pixels } := by
  simp only [imageFits, Bool.and_eq_true, decide_eq_true_eq] at hfits
  obtain ⟨hdims, _⟩ := hfits
  obtain ⟨_, hrest⟩ := hs
  exact ⟨hdims, hrest⟩

theorem widthsHold_attachSource {name data : List Byte} (hs : s.widthsHold) (hfits : sourceFits name data = true) :
    State.widthsHold { s with srcName := name, srcData := data } := by
  simp only [sourceFits, Bool.and_eq_true, decide_eq_true_eq] at hfits
  obtain ⟨himage, hcursor, hframer, _, hsizes⟩ := hs
  exact ⟨himage, hcursor, hframer, hfits, hsizes⟩

theorem HostMove.Leads.widthsHold {m : HostMove} (h : m.Leads s t) (hs : s.widthsHold) (hinside : s.cursorInside) :
    t.widthsHold := by
  cases h with
  | command _ hexec => exact exec_widthsHold hs hinside hexec
  | illegal => exact hs
  | resetInput =>
    have hreset : s.resetRegisters.widthsHold := State.widthsHold_resetRegisters hs
    exact hreset
  | attachImage hfits => exact widthsHold_attachImage hs hfits
  | writePixel => exact hs
  | attachSource hfits => exact widthsHold_attachSource hs hfits
  | settleAnswers => exact hs

end

/-- Settles O59: a step keeps the state or takes a move, and every move keeps the widths. Taking the move out of the
inbox touches no register. -/
theorem widthsStayHeld : Obligations.WidthsStayHeld := by
  unfold Obligations.WidthsStayHeld
  intro s t hs hinside h
  rcases step_cases h with rfl | ⟨m, rest, _, _, hleads⟩
  · exact hs
  · exact hleads.widthsHold hs hinside

end Sys2Proof.Machine
end

