-- ==== Sys2Proof/Proofs/Frames.lean ====
section
/-! SUPPORT. What each command may change (spec/10_state.md R41), said once as a blank: `s.forget i` is `s` with
what the command `i` may write blanked, so that an equation between two blanked states is the command's frame. The
response, STATUS and a pending access are `exec`'s, not the body's, and are blanked apart. -/

namespace Sys2Proof.Machine

/-! ### The blanks -/

/-- The state without what `exec` writes when it ends a body: STATUS, the response, a pending access. -/
def State.forgetOutcome (s : State) : State := { s with status := 0#11, responses := [], hung := false }

/-- The state without what the body of a command may write (10_state.md R41, R42). -/
def State.forget : Instr → State → State
  | .setmask _, s => { s with mask := 0#8 }
  | .rdreg _, s => s
  | .srst, s =>
    { State.reset with
      imgw := s.imgw, imgh := s.imgh, image := s.image, srcName := s.srcName, srcData := s.srcData
      inbox := s.inbox, responses := s.responses, hung := s.hung }
  | .ldpx _, s => { s with pxr := 0#24 }
  | .ldch _, s => { s with chr := 0#24 }
  | .cdec, s => { s with chr := 0#24 }
  | .cenc, s => { s with pxr := 0#24 }
  | .ldbyte _, s => { s with byter := 0#8 }
  | .expb, s => { s with bq := [] }
  | .ldrem _, s => { s with brem := 0 }
  | .pemb, s => { s with pxr := 0#24, bq := [], brem := 0, cnt := 0 }
  | .pext, s => { s with aq := [] }
  | .packb, s => { s with byter := 0#8, aq := [] }
  | .cinit, s =>
    { s with curx := 0, cury := 0, issued := false, exh := false, brem := 0, cnt := 0, bq := [], aq := [] }
  | .wadv, s =>
    { s with
      curx := 0, cury := 0, issued := false, exh := false, pxr := 0#24, brem := 0
      image := [], answers := [], ports := [] }
  | .radv, s =>
    { s with
      curx := 0, cury := 0, issued := false, exh := false, pxr := 0#24, answers := [], ports := [] }
  | .finit, s =>
    { s with
      comp := .fileName, idx := 0, rcnt := 0, sizev := 0, sinkopen := false, done := false, failed := false
      send := false, namebuf := [], sizebuf := [], ports := [] }
  | .fnext, s =>
    { s with byter := 0#8, comp := .fileName, idx := 0, rcnt := 0, send := false, answers := [], ports := [] }
  | .fput, s =>
    { s with
      comp := .fileName, rcnt := 0, sizev := 0, sinkopen := false, done := false, failed := false
      namebuf := [], sizebuf := [], answers := [], ports := [] }
  | .cap, s => { s with capr := 0 }
  | .embed, s =>
    { s with
      curx := 0, cury := 0, issued := false, exh := false
      pxr := 0#24, byter := 0#8, bq := [], aq := [], brem := 0, cnt := 0
      comp := .fileName, idx := 0, rcnt := 0, sizev := 0, sinkopen := false, done := false, failed := false
      send := false, namebuf := [], sizebuf := [], capr := 0, flen := 0
      image := [], answers := [], ports := [] }
  | .retrieve, s =>
    { s with
      curx := 0, cury := 0, issued := false, exh := false
      pxr := 0#24, byter := 0#8, bq := [], aq := [], brem := 0, cnt := 0
      comp := .fileName, idx := 0, rcnt := 0, sizev := 0, sinkopen := false, done := false, failed := false
      send := false, namebuf := [], sizebuf := [], answers := [], ports := [] }

/-- The two states differ in nothing but what the command's body may write. -/
def SameBut (i : Instr) (s t : State) : Prop := t.forget i = s.forget i

section
variable {i j : Instr} {s t : State} {a : Answer}

/-- A command that may write all that another may write inherits the other's frame. -/
theorem SameBut.widen (habsorb : ∀ u : State, (u.forget i).forget j = u.forget j) (h : SameBut i s t) :
    SameBut j s t :=
  calc t.forget j = (t.forget i).forget j := (habsorb t).symm
    _ = (s.forget i).forget j := congrArg (State.forget j) h
    _ = s.forget j := habsorb s

/-- What the command may not write reads as before. -/
theorem SameBut.keeps {α : Type} (h : SameBut i s t) (f : State → α) (hf : ∀ u : State, f (u.forget i) = f u) :
    f t = f s :=
  calc f t = f (t.forget i) := (hf t).symm
    _ = f (s.forget i) := congrArg f h
    _ = f s := hf s

/-! ### The frame of each step -/

theorem expbStep_frame : (expbStep s).leaves (SameBut .expb s) (SameBut .expb s) := rfl

theorem cinitStep_frame : (cinitStep s).leaves (SameBut .cinit s) (SameBut .cinit s) := rfl

theorem ldremStep_frame {imm8 : Byte} :
    (ldremStep imm8 s).leaves (SameBut (.ldrem imm8) s) (SameBut (.ldrem imm8) s) := by
  unfold ldremStep
  split <;> exact rfl

theorem pembStep_frame : (pembStep s).leaves (SameBut .pemb s) (SameBut .pemb s) := by
  unfold pembStep
  split <;> exact rfl

theorem pextStep_frame : (pextStep s).leaves (SameBut .pext s) (SameBut .pext s) := by
  unfold pextStep
  split <;> exact rfl

theorem packbStep_frame : (packbStep s).leaves (SameBut .packb s) (SameBut .packb s) := by
  unfold packbStep
  split <;> exact rfl

theorem finitStep_frame : (finitStep s).leaves (SameBut .finit s) (SameBut .finit s) := by
  unfold finitStep
  rcases s.releaseSink_cases with ⟨_, h⟩ | ⟨_, h⟩ <;> rw [h] <;> exact rfl

theorem srstStep_frame : (srstStep s).leaves (SameBut .srst s) (SameBut .srst s) := by
  unfold srstStep
  rcases s.releaseSink_cases with ⟨_, h⟩ | ⟨_, h⟩ <;> rw [h] <;> exact rfl

/-- The command whose advance reloads the budget, or does not (R134, R135). -/
def advanceOf (reload : Bool) : Instr := if reload then .wadv else .radv

theorem firstAdvance_frame {reload : Bool} :
    (firstAdvance reload s).leaves (SameBut (advanceOf reload) s) (SameBut (advanceOf reload) s) := by
  refine Res.leaves_iff.2 ⟨fun a t h => ?_, fun t h => ?_⟩
  · rcases firstAdvance_cases h with ⟨_, _, rfl⟩ | ⟨_, _, _, rfl⟩ | ⟨_, _, _, rfl⟩ <;> cases reload <;> exact rfl
  · obtain ⟨_, _, rfl⟩ := firstAdvance_hang h
    cases reload <;> exact rfl

theorem moveAndRead_frame {reload : Bool} :
    (moveAndRead reload s).leaves (SameBut (advanceOf reload) s) (SameBut (advanceOf reload) s) := by
  refine Res.leaves_iff.2 ⟨fun a t h => ?_, fun t h => ?_⟩
  · rcases moveAndRead_cases h with ⟨_, _, rfl⟩ | ⟨_, _, _, rfl⟩ | ⟨_, _, _, rfl⟩ <;> cases reload <;> exact rfl
  · obtain ⟨_, _, rfl⟩ := moveAndRead_hang h
    cases reload <;> exact rfl

theorem afterCommit_frame {x y : Nat} {p : Pixel} : SameBut .wadv s (s.afterCommit x y p) := rfl

theorem wadvStep_frame : (wadvStep s).leaves (SameBut .wadv s) (SameBut .wadv s) := by
  refine Res.leaves_iff.2 ⟨fun a t h => ?_, fun t h => ?_⟩
  · rcases wadvStep_cases h with ⟨_, _, rfl⟩ | ⟨_, _, hfirst⟩ | ⟨_, _, _, _, hmove⟩ | ⟨_, _, _, _, _, rfl⟩
    · exact rfl
    · exact firstAdvance_frame.of_done hfirst
    · exact (moveAndRead_frame.of_done hmove).trans afterCommit_frame
    · exact rfl
  · obtain ⟨_, ⟨_, hfirst⟩ | ⟨_, _, _, rfl⟩ | ⟨_, _, _, hmove⟩⟩ := wadvStep_hang h
    · exact firstAdvance_frame.of_hang hfirst
    · exact rfl
    · exact (moveAndRead_frame.of_hang hmove).trans afterCommit_frame

theorem radvStep_frame : (radvStep s).leaves (SameBut .radv s) (SameBut .radv s) := by
  refine Res.leaves_iff.2 ⟨fun a t h => ?_, fun t h => ?_⟩
  · rcases radvStep_cases h with ⟨_, _, rfl⟩ | ⟨_, _, hfirst⟩ | ⟨_, _, hmove⟩
    · exact rfl
    · exact firstAdvance_frame.of_done hfirst
    · exact moveAndRead_frame.of_done hmove
  · obtain ⟨_, ⟨_, hfirst⟩ | ⟨_, hmove⟩⟩ := radvStep_hang h
    · exact firstAdvance_frame.of_hang hfirst
    · exact moveAndRead_frame.of_hang hmove

theorem emitFrom_frame {text : List Byte} {next : Component} (h : emitFrom text next s = .done a t) :
    SameBut .fnext s t := by
  rcases emitFrom_cases h with ⟨_, _, _, rfl⟩ | ⟨_, _, rfl⟩ <;> exact rfl

theorem fnextStep_frame : (fnextStep s).leaves (SameBut .fnext s) (SameBut .fnext s) := by
  refine Res.leaves_iff.2 ⟨fun a t h => ?_, fun t h => ?_⟩
  · rcases fnextStep_cases h with ⟨_, _, rfl⟩ | ⟨_, _, hemit⟩ | ⟨_, _, hemit⟩ | ⟨_, _, _, _, rfl⟩ |
      ⟨_, _, _, _, _, rfl⟩ | ⟨_, _, _, _, _, _, rfl⟩
    · exact rfl
    · exact emitFrom_frame hemit
    · exact emitFrom_frame hemit
    · exact rfl
    · exact rfl
    · exact rfl
  · obtain ⟨_, _, _, rfl⟩ := fnextStep_hang h
    exact rfl

theorem fputStep_frame : (fputStep s).leaves (SameBut .fput s) (SameBut .fput s) := by
  refine Res.leaves_iff.2 ⟨fun a t h => ?_, fun t h => ?_⟩
  · rcases fputStep_cases h with ⟨_, _, rfl⟩ | ⟨_, _, _, rfl⟩ | ⟨_, _, _, hname⟩ | ⟨_, _, _, hsize⟩ | ⟨_, _, _, hraw⟩
    · exact rfl
    · exact rfl
    · rcases fputName_cases hname with ⟨_, _, rfl⟩ | ⟨_, _, _, rfl⟩ | ⟨_, _, _, rfl⟩ <;> exact rfl
    · rcases fputSize_cases hsize with ⟨_, _, rfl⟩ | ⟨_, _, _, _, rfl⟩ | ⟨_, _, _, _, rfl⟩ | ⟨_, _, _, _, rfl⟩ <;>
        exact rfl
    · rcases fputRaw_cases hraw with ⟨_, _, _, rfl⟩ | ⟨_, _, _, rfl⟩ | ⟨_, _, rfl⟩ <;>
        simp [SameBut, State.forget, State.afterWrite]
  · obtain ⟨_, _, _, ⟨_, _, rfl⟩ | ⟨_, rfl⟩⟩ := fputStep_hang h <;> exact rfl

/-! ### The frame of EMBED and RETRIEVE, from the frames of their steps -/

/-- A step that may write no more than `j` may keeps `j`'s frame. -/
theorem keeps_sameBut {part : State → Res Answer} (habsorb : ∀ u : State, (u.forget i).forget j = u.forget j)
    (hpart : ∀ u, (part u).leaves (SameBut i u) (SameBut i u)) : Keeps (SameBut j s) (SameBut j s) part :=
  fun u hu => (hpart u).mono fun _ ht => (ht.widen habsorb).trans hu

theorem embedStep_frame : (embedStep s).leaves (SameBut .embed s) (SameBut .embed s) := by
  have hsizes (u : State) : SameBut .embed u (loadEmbedSizes u) := rfl
  have hclose (u : State) : SameBut .embed u u.srcClose := rfl
  exact embedStep_keeps (keeps_sameBut (fun _ => rfl) fun _ => cinitStep_frame)
    (keeps_sameBut (fun _ => rfl) fun _ => finitStep_frame) (fun u hu => (hsizes u).trans hu)
    (keeps_sameBut (fun _ => rfl) fun _ => fnextStep_frame) (keeps_sameBut (fun _ => rfl) fun _ => expbStep_frame)
    (keeps_sameBut (fun _ => rfl) fun _ => wadvStep_frame) (keeps_sameBut (fun _ => rfl) fun _ => pembStep_frame)
    (fun u hu => (hclose u).trans hu) s rfl

theorem State.releaseSink_frame : SameBut .fput s s.releaseSink := by
  rcases s.releaseSink_cases with ⟨_, h⟩ | ⟨_, h⟩ <;> rw [h] <;> exact rfl

theorem retrieveStep_frame : (retrieveStep s).leaves (SameBut .retrieve s) (SameBut .retrieve s) :=
  retrieveStep_keeps (keeps_sameBut (fun _ => rfl) fun _ => cinitStep_frame)
    (keeps_sameBut (fun _ => rfl) fun _ => finitStep_frame) (keeps_sameBut (fun _ => rfl) fun _ => radvStep_frame)
    (keeps_sameBut (fun _ => rfl) fun _ => pextStep_frame) (keeps_sameBut (fun _ => rfl) fun _ => packbStep_frame)
    (keeps_sameBut (fun _ => rfl) fun _ => fputStep_frame)
    (fun _ hu => (State.releaseSink_frame.widen fun _ => rfl).trans hu) s rfl

/-! ### Every command -/

/-- The body of a command changes nothing but what the register table lets it write (R41). -/
theorem body_frame (i : Instr) (s : State) : (bodyOf i s).leaves (SameBut i s) (SameBut i s) := by
  cases i with
  | setmask | rdreg | ldpx | ldch | cdec | cenc | ldbyte | expb | cinit | cap => exact rfl
  | srst => exact srstStep_frame
  | ldrem => exact ldremStep_frame
  | pemb => exact pembStep_frame
  | pext => exact pextStep_frame
  | packb => exact packbStep_frame
  | wadv => exact wadvStep_frame
  | radv => exact radvStep_frame
  | finit => exact finitStep_frame
  | fnext => exact fnextStep_frame
  | fput => exact fputStep_frame
  | embed => exact embedStep_frame
  | retrieve => exact retrieveStep_frame

/-- A property of registers the command may not write is kept by its body. -/
theorem body_keeps {P : State → Prop} (i : Instr) (hP : ∀ u : State, P (u.forget i) = P u) : Keeps P P (bodyOf i) :=
  fun s hs => (body_frame i s).mono fun _ ht => (ht.keeps P hP).symm ▸ hs

/-- Ending a body touches nothing but the outcome. -/
theorem forgetOutcome_forget (status : BitVec 11) (responses : List Response) (hung : Bool) :
    (State.forget i { s with status := status, responses := responses, hung := hung }).forgetOutcome =
      (s.forget i).forgetOutcome := by
  cases i <;> exact rfl

/-- A command changes nothing but its outcome and what the register table lets it write. -/
theorem exec_frame (h : exec i s = .next t) : (t.forget i).forgetOutcome = (s.forget i).forgetOutcome := by
  refine exec_leaves (P := fun u => (u.forget i).forgetOutcome = (s.forget i).forgetOutcome)
    ((body_frame i s).mono fun _ hu => congrArg State.forgetOutcome hu)
    (fun u a hu => ?_) (fun u v hu => ?_) (fun u hu => ?_) h
  · exact (forgetOutcome_forget ..).trans hu
  · exact (forgetOutcome_forget ..).trans hu
  · exact (forgetOutcome_forget ..).trans hu

/-- What neither the command nor its outcome may write reads as before. -/
theorem exec_keeps {α : Type} (h : exec i s = .next t) (f : State → α)
    (hf : ∀ u : State, f (u.forget i).forgetOutcome = f u) : f t = f s :=
  calc f t = f (t.forget i).forgetOutcome := (hf t).symm
    _ = f (s.forget i).forgetOutcome := congrArg f (exec_frame h)
    _ = f s := hf s

end

/-- Settles O54: under every command but its writers a register keeps its value, by the command's frame. -/
theorem registersHaveTheirWriters : Obligations.RegistersHaveTheirWriters := by
  unfold Obligations.RegistersHaveTheirWriters
  intro i s t h hsrst
  refine ⟨fun hne => ?mask, ?outside, fun hne => ?cursor, fun hne => ?pxr, fun hne => ?chr, fun hne => ?byter,
    fun hne => ?bq, fun hne => ?aq, fun hne => ?brem, fun hne => ?cnt, fun hne => ?progress, fun hne => ?idx,
    fun hne => ?sink, fun hne => ?send, fun hne => ?capr, fun hne => ?flen⟩
  case mask =>
    cases i with
    | setmask m => exact ⟨m, rfl⟩
    | srst => exact absurd rfl hsrst
    | _ => exact absurd (exec_keeps h State.mask fun _ => rfl) hne
  case outside =>
    have houtside := exec_keeps h (fun u => (u.imgw, u.imgh, u.srcName, u.srcData, u.inbox)) fun _ => by
      cases i <;> exact rfl
    simpa only [Prod.mk.injEq] using houtside
  case cursor =>
    cases i with
    | cinit | wadv | radv | embed | retrieve => simp
    | srst => exact absurd rfl hsrst
    | _ => exact absurd (exec_keeps h (fun u => (u.curx, u.cury, u.issued, u.exh)) fun _ => rfl) hne
  case pxr =>
    cases i with
    | cenc | pemb | wadv | radv | embed | retrieve => simp
    | ldpx p => exact .inr ⟨p, rfl⟩
    | srst => exact absurd rfl hsrst
    | _ => exact absurd (exec_keeps h State.pxr fun _ => rfl) hne
  case chr =>
    cases i with
    | cdec => exact .inl rfl
    | ldch v => exact .inr ⟨v, rfl⟩
    | srst => exact absurd rfl hsrst
    | _ => exact absurd (exec_keeps h State.chr fun _ => rfl) hne
  case byter =>
    cases i with
    | fnext | packb | embed | retrieve => simp
    | ldbyte b => exact .inr ⟨b, rfl⟩
    | srst => exact absurd rfl hsrst
    | _ => exact absurd (exec_keeps h State.byter fun _ => rfl) hne
  case bq =>
    cases i with
    | expb | pemb | cinit | embed | retrieve => simp
    | srst => exact absurd rfl hsrst
    | _ => exact absurd (exec_keeps h State.bq fun _ => rfl) hne
  case aq =>
    cases i with
    | pext | packb | cinit | embed | retrieve => simp
    | srst => exact absurd rfl hsrst
    | _ => exact absurd (exec_keeps h State.aq fun _ => rfl) hne
  case brem =>
    cases i with
    | pemb | wadv | cinit | embed | retrieve => simp
    | ldrem r => exact .inr ⟨r, rfl⟩
    | srst => exact absurd rfl hsrst
    | _ => exact absurd (exec_keeps h State.brem fun _ => rfl) hne
  case cnt =>
    cases i with
    | pemb | cinit | embed | retrieve => simp
    | srst => exact absurd rfl hsrst
    | _ => exact absurd (exec_keeps h State.cnt fun _ => rfl) hne
  case progress =>
    cases i with
    | finit | fnext | fput | embed | retrieve => simp
    | srst => exact absurd rfl hsrst
    | _ => exact absurd (exec_keeps h (fun u => (u.comp, u.rcnt)) fun _ => rfl) hne
  case idx =>
    cases i with
    | finit | fnext | embed | retrieve => simp
    | srst => exact absurd rfl hsrst
    | _ => exact absurd (exec_keeps h State.idx fun _ => rfl) hne
  case sink =>
    cases i with
    | finit | fput | embed | retrieve => simp
    | srst => exact absurd rfl hsrst
    | _ =>
      exact absurd (exec_keeps h
        (fun u => (u.sizev, u.sinkopen, u.done, u.failed, u.namebuf, u.sizebuf)) fun _ => rfl) hne
  case send =>
    cases i with
    | finit | fnext | embed | retrieve => simp
    | srst => exact absurd rfl hsrst
    | _ => exact absurd (exec_keeps h State.send fun _ => rfl) hne
  case capr =>
    cases i with
    | cap | embed => simp
    | srst => exact absurd rfl hsrst
    | _ => exact absurd (exec_keeps h State.capr fun _ => rfl) hne
  case flen =>
    cases i with
    | embed => rfl
    | srst => exact absurd rfl hsrst
    | _ => exact absurd (exec_keeps h State.flen fun _ => rfl) hne

end Sys2Proof.Machine
end

