-- ==== Sys2Proof/Proofs/Legality.lean ====
section
/-! SUPPORT. The invariants of spec/10_state.md R43: the bounds of the bit path (a), the cursor (b), (c) and the
framer's flags (e). Each is proved of the commands that write its registers; every other command keeps it by its frame. -/

namespace Sys2Proof.Machine

section
variable {s t : State} {a : Answer} {inside : Prop}

/-! ### EMBED and RETRIEVE, from the primitive commands -/

/-- What every primitive command keeps, with EMBED's sizes and the releases, EMBED and RETRIEVE keep too. -/
theorem body_keeps_of_primitive {P : State → Prop}
    (hprimitive : ∀ i : Instr, i ≠ .embed → i ≠ .retrieve → Keeps P P (bodyOf i))
    (hsizes : ∀ u, P u → P (loadEmbedSizes u)) (hclose : ∀ u, P u → P u.srcClose)
    (hrelease : ∀ u, P u → P u.releaseSink) (i : Instr) : Keeps P P (bodyOf i) := by
  have hstep (j : Instr) (hembed : j ≠ .embed := by decide) (hretrieve : j ≠ .retrieve := by decide) :
      Keeps P P (bodyOf j) := hprimitive j hembed hretrieve
  by_cases hembed : i = .embed
  · subst hembed
    exact embedStep_keeps (hstep .cinit) (hstep .finit) hsizes (hstep .fnext) (hstep .expb) (hstep .wadv)
      (hstep .pemb) hclose
  by_cases hretrieve : i = .retrieve
  · subst hretrieve
    exact retrieveStep_keeps (hstep .cinit) (hstep .finit) (hstep .radv) (hstep .pext) (hstep .packb) (hstep .fput)
      hrelease
  exact hprimitive i hembed hretrieve

/-! ### R43 (a): the bit path -/

/-- A byte is queued as eight bits (20_memory.md R61). -/
theorem expand_length (b : Byte) : (expand b).length = 8 := rfl

/-- A pixel has at most 24 enabled slots (R31). -/
theorem slotCount_le (mask : Byte) : slotCount mask ≤ 24 := Nat.mul_le_mul_left 3 (popcount_le mask)

/-- A pixel yields one bit for each enabled slot (42_bit_extractor.md R121). -/
theorem extract_length (p : Pixel) (mask : Byte) : (extract p mask).length = slotCount mask := by
  simp [extract, slots, slotCount, enabledIndices, popcount, List.countP_eq_length_filter]
  omega

theorem State.bitPathBounded_brem (hs : s.bitPathBounded) {n : Nat} (hn : n ≤ 24) :
    State.bitPathBounded { s with brem := n } := by
  obtain ⟨hbq, haq, _, hcnt⟩ := hs
  exact ⟨hbq, haq, hn, hcnt⟩

theorem State.bitPathBounded_aq (hs : s.bitPathBounded) {q : List Bool} (hq : q.length ≤ 31) :
    State.bitPathBounded { s with aq := q } := by
  obtain ⟨hbq, _, hrest⟩ := hs
  exact ⟨hbq, hq, hrest⟩

/-- An empty bit path is within its bounds. -/
theorem State.bitPathBounded_of_empty (hbq : s.bq = []) (haq : s.aq = []) (hbrem : s.brem = 0) (hcnt : s.cnt = 0) :
    s.bitPathBounded := by
  simp [State.bitPathBounded, hbq, haq, hbrem, hcnt]

theorem yieldBudget_le (hs : s.bitPathBounded) (reload : Bool) : yieldBudget reload s ≤ 24 := by
  obtain ⟨_, _, hbrem, _⟩ := hs
  cases reload
  · exact hbrem
  · exact slotCount_le s.mask

theorem exhaustedBudget_le (hs : s.bitPathBounded) (reload : Bool) : exhaustedBudget reload s ≤ 24 := by
  obtain ⟨_, _, hbrem, _⟩ := hs
  cases reload
  · exact hbrem
  · exact Nat.zero_le 24

theorem expbStep_keeps_bitPath : Keeps State.bitPathBounded State.bitPathBounded expbStep := by
  rintro s ⟨_, haq, hrest⟩
  exact ⟨(expand_length s.byter).le, haq, hrest⟩

theorem ldremStep_keeps_bitPath (imm8 : Byte) :
    Keeps State.bitPathBounded State.bitPathBounded (ldremStep imm8) := by
  intro s hs
  unfold ldremStep
  split
  · exact hs
  · rename_i hlegal
    exact State.bitPathBounded_brem hs (Nat.not_lt.1 hlegal)

/-- PEMB takes from BQ no more than the budget has left (R107). -/
theorem pembStep_keeps_bitPath : Keeps State.bitPathBounded State.bitPathBounded pembStep := by
  intro s hs
  have ⟨hbq, haq, hbrem, _⟩ := hs
  unfold pembStep
  split
  · exact hs
  · have hrest : (s.bq.drop (min s.bq.length s.brem)).length ≤ 8 := by rw [List.length_drop]; omega
    exact ⟨hrest, haq, (Nat.sub_le ..).trans hbrem, (Nat.min_le_left ..).trans hbq⟩

/-- PEXT appends only what fits AQ (R122). -/
theorem pextStep_keeps_bitPath : Keeps State.bitPathBounded State.bitPathBounded pextStep := by
  intro s hs
  unfold pextStep
  split
  · exact hs
  · rename_i hroom
    have hfits : (s.aq ++ extract s.pxr s.mask).length ≤ 31 := by
      rw [List.length_append, extract_length]
      exact Nat.not_lt.1 hroom
    exact State.bitPathBounded_aq hs hfits

theorem packbStep_keeps_bitPath : Keeps State.bitPathBounded State.bitPathBounded packbStep := by
  intro s hs
  have ⟨_, haq, _⟩ := hs
  unfold packbStep
  split
  · exact hs
  · have hrest : (s.aq.drop 8).length ≤ 31 := by rw [List.length_drop]; omega
    exact State.bitPathBounded_aq hs hrest

theorem cinitStep_keeps_bitPath : Keeps State.bitPathBounded State.bitPathBounded cinitStep :=
  fun _ _ => State.bitPathBounded_of_empty rfl rfl rfl rfl

theorem firstAdvance_keeps_bitPath (reload : Bool) :
    Keeps State.bitPathBounded State.bitPathBounded (firstAdvance reload) := by
  refine keeps_iff.2 fun s hs => ⟨fun a t h => ?_, fun t h => ?_⟩
  · rcases firstAdvance_cases h with ⟨_, _, rfl⟩ | ⟨_, _, _, rfl⟩ | ⟨_, _, _, rfl⟩
    · exact State.bitPathBounded_brem hs (exhaustedBudget_le hs reload)
    · exact State.bitPathBounded_brem hs (yieldBudget_le hs reload)
    · exact hs
  · obtain ⟨_, _, rfl⟩ := firstAdvance_hang h
    exact hs

theorem moveAndRead_keeps_bitPath (reload : Bool) :
    Keeps State.bitPathBounded State.bitPathBounded (moveAndRead reload) := by
  refine keeps_iff.2 fun s hs => ⟨fun a t h => ?_, fun t h => ?_⟩
  · rcases moveAndRead_cases h with ⟨_, _, rfl⟩ | ⟨_, _, _, rfl⟩ | ⟨_, _, _, rfl⟩
    · exact State.bitPathBounded_brem hs (exhaustedBudget_le hs reload)
    · exact State.bitPathBounded_brem hs (yieldBudget_le hs reload)
    · exact hs
  · obtain ⟨_, _, rfl⟩ := moveAndRead_hang h
    exact hs

theorem wadvStep_keeps_bitPath : Keeps State.bitPathBounded State.bitPathBounded wadvStep := by
  refine keeps_iff.2 fun s hs => ?_
  have hcommitted : (s.afterCommit s.curx s.cury s.pxr).bitPathBounded := hs
  refine ⟨fun a t h => ?_, fun t h => ?_⟩
  · rcases wadvStep_cases h with ⟨_, _, rfl⟩ | ⟨_, _, hfirst⟩ | ⟨_, _, _, _, hmove⟩ | ⟨_, _, _, _, _, rfl⟩
    · exact hs
    · exact (firstAdvance_keeps_bitPath true s hs).of_done hfirst
    · exact (moveAndRead_keeps_bitPath true _ hcommitted).of_done hmove
    · exact hs
  · obtain ⟨_, ⟨_, hfirst⟩ | ⟨_, _, _, rfl⟩ | ⟨_, _, _, hmove⟩⟩ := wadvStep_hang h
    · exact (firstAdvance_keeps_bitPath true s hs).of_hang hfirst
    · exact hs
    · exact (moveAndRead_keeps_bitPath true _ hcommitted).of_hang hmove

theorem body_keeps_bitPath (i : Instr) : Keeps State.bitPathBounded State.bitPathBounded (bodyOf i) := by
  refine body_keeps_of_primitive (fun j hembed hretrieve => ?_) (fun _ hu => hu) (fun _ hu => hu)
    (fun u hu => (State.releaseSink_frame.keeps State.bitPathBounded fun _ => rfl).symm ▸ hu) i
  cases j with
  | srst => exact fun _ _ => State.bitPathBounded_of_empty rfl rfl rfl rfl
  | expb => exact expbStep_keeps_bitPath
  | ldrem imm8 => exact ldremStep_keeps_bitPath imm8
  | pemb => exact pembStep_keeps_bitPath
  | pext => exact pextStep_keeps_bitPath
  | packb => exact packbStep_keeps_bitPath
  | cinit => exact cinitStep_keeps_bitPath
  | wadv => exact wadvStep_keeps_bitPath
  | embed => exact absurd rfl hembed
  | retrieve => exact absurd rfl hretrieve
  | _ => exact body_keeps _ fun _ => rfl

/-! ### R43 (b), (c): the cursor -/

/-- R43 (c), and (b) where the host lets it hold (`inside`). -/
def State.cursorLegal (inside : Prop) (s : State) : Prop := s.cursorAtStart ∧ (inside → s.cursorInside)

/-- A cursor before its first pixel at (0, 0) is legal. -/
theorem State.cursorLegal_of_start (hx : s.curx = 0) (hy : s.cury = 0) (hfresh : s.issued = false) :
    s.cursorLegal inside :=
  ⟨fun _ => ⟨hx, hy⟩, fun _ hissued => nomatch hfresh.symm.trans hissued⟩

/-- A cursor on a pixel of the image is legal. -/
theorem State.cursorLegal_of_inImage (hissued : s.issued = true) (hin : s.inImage s.curx s.cury = true) :
    s.cursorLegal inside :=
  ⟨fun hfresh => absurd (hfresh.symm.trans hissued) nofun, fun _ _ _ => State.inImage_iff.1 hin⟩

/-- An exhausted cursor is legal wherever its traversal ended. -/
theorem State.cursorLegal_of_exhausted (hstart : s.cursorAtStart) (hexh : s.exh = true) : s.cursorLegal inside :=
  ⟨hstart, fun _ _ hnot => nomatch hnot.symm.trans hexh⟩

/-- The first pixel is the one under the cursor, which stands at (0, 0) (R133). -/
theorem firstAdvance_leaves_cursor {reload : Bool} (hs : s.cursorLegal inside) (hfresh : s.issued = false) :
    (firstAdvance reload s).leaves (State.cursorLegal inside) (State.cursorLegal inside) := by
  have ⟨hstart, _⟩ := hs
  obtain ⟨hx, hy⟩ := hstart hfresh
  refine Res.leaves_iff.2 ⟨fun a t h => ?_, fun t h => ?_⟩
  · rcases firstAdvance_cases h with ⟨_, _, rfl⟩ | ⟨hin, _, _, rfl⟩ | ⟨_, _, _, rfl⟩
    · exact State.cursorLegal_of_exhausted hstart rfl
    · have hcursor : s.inImage s.curx s.cury = true := by rw [hx, hy]; exact hin
      exact State.cursorLegal_of_inImage rfl hcursor
    · exact hs
  · obtain ⟨_, _, rfl⟩ := firstAdvance_hang h
    exact hs

/-- The cursor moves only to a pixel that was read, or the traversal is over (R134, R135). -/
theorem moveAndRead_leaves_cursor {reload : Bool} (hs : s.cursorLegal inside) (hissued : s.issued = true) :
    (moveAndRead reload s).leaves (State.cursorLegal inside) (State.cursorLegal inside) := by
  refine Res.leaves_iff.2 ⟨fun a t h => ?_, fun t h => ?_⟩
  · rcases moveAndRead_cases h with ⟨_, _, rfl⟩ | ⟨hin, _, _, rfl⟩ | ⟨_, _, _, rfl⟩
    · exact State.cursorLegal_of_exhausted (fun hfresh => nomatch hfresh.symm.trans hissued) rfl
    · exact State.cursorLegal_of_inImage hissued hin
    · exact hs
  · obtain ⟨_, _, rfl⟩ := moveAndRead_hang h
    exact hs

theorem wadvStep_keeps_cursor : Keeps (State.cursorLegal inside) (State.cursorLegal inside) wadvStep := by
  refine keeps_iff.2 fun s hs => ?_
  have hcommitted : (s.afterCommit s.curx s.cury s.pxr).cursorLegal inside := hs
  refine ⟨fun a t h => ?_, fun t h => ?_⟩
  · rcases wadvStep_cases h with ⟨_, _, rfl⟩ | ⟨_, hfresh, hfirst⟩ | ⟨_, hissued, _, _, hmove⟩ | ⟨_, _, _, _, _, rfl⟩
    · exact hs
    · exact (firstAdvance_leaves_cursor hs hfresh).of_done hfirst
    · exact (moveAndRead_leaves_cursor hcommitted hissued).of_done hmove
    · exact hs
  · obtain ⟨_, ⟨hfresh, hfirst⟩ | ⟨_, _, _, rfl⟩ | ⟨hissued, _, _, hmove⟩⟩ := wadvStep_hang h
    · exact (firstAdvance_leaves_cursor hs hfresh).of_hang hfirst
    · exact hs
    · exact (moveAndRead_leaves_cursor hcommitted hissued).of_hang hmove

theorem radvStep_keeps_cursor : Keeps (State.cursorLegal inside) (State.cursorLegal inside) radvStep := by
  refine keeps_iff.2 fun s hs => ⟨fun a t h => ?_, fun t h => ?_⟩
  · rcases radvStep_cases h with ⟨_, _, rfl⟩ | ⟨_, hfresh, hfirst⟩ | ⟨_, hissued, hmove⟩
    · exact hs
    · exact (firstAdvance_leaves_cursor hs hfresh).of_done hfirst
    · exact (moveAndRead_leaves_cursor hs hissued).of_done hmove
  · obtain ⟨_, ⟨hfresh, hfirst⟩ | ⟨hissued, hmove⟩⟩ := radvStep_hang h
    · exact (firstAdvance_leaves_cursor hs hfresh).of_hang hfirst
    · exact (moveAndRead_leaves_cursor hs hissued).of_hang hmove

theorem body_keeps_cursor (i : Instr) : Keeps (State.cursorLegal inside) (State.cursorLegal inside) (bodyOf i) := by
  refine body_keeps_of_primitive (fun j hembed hretrieve => ?_) (fun _ hu => hu) (fun _ hu => hu)
    (fun u hu => (State.releaseSink_frame.keeps (State.cursorLegal inside) fun _ => rfl).symm ▸ hu) i
  cases j with
  | srst => exact fun _ _ => State.cursorLegal_of_start rfl rfl rfl
  | cinit => exact fun _ _ => State.cursorLegal_of_start rfl rfl rfl
  | wadv => exact wadvStep_keeps_cursor
  | radv => exact radvStep_keeps_cursor
  | embed => exact absurd rfl hembed
  | retrieve => exact absurd rfl hretrieve
  | _ => exact body_keeps _ fun _ => rfl

/-! ### R43 (e): the framer's flags -/

/-- A released framer, with no flag set, has its flags apart. -/
theorem State.framerFlagsApart_of_clear (hopen : s.sinkopen = false) (hdone : s.done = false) :
    s.framerFlagsApart := by
  simp [State.framerFlagsApart, hopen, hdone]

theorem State.framerFlagsApart_releaseSink (hs : s.framerFlagsApart) : s.releaseSink.framerFlagsApart := by
  rcases s.releaseSink_cases with ⟨_, h⟩ | ⟨_, h⟩ <;> rw [h]
  · exact ⟨hs.1, nofun⟩
  · exact hs

/-- FPUT sets one of its flags only while neither DONE nor FAILED is set, and ends the sink with them (R160). -/
theorem fputStep_keeps_flags : Keeps State.framerFlagsApart State.framerFlagsApart fputStep := by
  refine keeps_iff.2 fun s hs => ⟨fun a t h => ?_, fun t h => ?_⟩
  · rcases fputStep_cases h with ⟨_, _, rfl⟩ | ⟨_, _, _, rfl⟩ | ⟨hdone, hfailed, _, hname⟩ | ⟨hdone, _, _, hsize⟩ |
      ⟨_, hfailed, _, hraw⟩
    · exact hs
    · exact hs
    · rcases fputName_cases hname with ⟨_, _, rfl⟩ | ⟨_, _, _, rfl⟩ | ⟨_, _, _, rfl⟩
      · exact hs
      · exact ⟨hs.1, fun _ => ⟨hdone, hfailed⟩⟩
      · exact hs
    · rcases fputSize_cases hsize with ⟨_, _, rfl⟩ | ⟨_, _, _, _, rfl⟩ | ⟨_, _, hclosed, _, rfl⟩ | ⟨v, _, _, _, rfl⟩
      · exact hs
      · exact State.framerFlagsApart_of_clear rfl hdone
      · exact State.framerFlagsApart_of_clear hclosed hdone
      · exact hs
    · rcases fputRaw_cases hraw with ⟨_, _, _, rfl⟩ | ⟨_, _, _, rfl⟩ | ⟨_, _, rfl⟩
      · exact ⟨fun ⟨_, hfail⟩ => absurd (hfailed.symm.trans hfail) nofun, nofun⟩
      · exact hs
      · exact hs
  · obtain ⟨_, _, _, ⟨_, _, rfl⟩ | ⟨_, rfl⟩⟩ := fputStep_hang h <;> exact hs

theorem body_keeps_flags (i : Instr) : Keeps State.framerFlagsApart State.framerFlagsApart (bodyOf i) := by
  refine body_keeps_of_primitive (P := State.framerFlagsApart) (fun j hembed hretrieve => ?_) (fun _ hu => hu)
    (fun _ hu => hu) (fun _ => State.framerFlagsApart_releaseSink) i
  cases j with
  | srst => exact fun _ _ => State.framerFlagsApart_of_clear rfl rfl
  | finit => exact fun _ _ => State.framerFlagsApart_of_clear rfl rfl
  | fput => exact fputStep_keeps_flags
  | embed => exact absurd rfl hembed
  | retrieve => exact absurd rfl hretrieve
  | _ => exact body_keeps _ fun _ => rfl

/-! ### Every command and every move -/

/-- The invariants that every step keeps, with R43 (b) where the host lets it hold (`inside`). -/
def State.legal (inside : Prop) (s : State) : Prop :=
  s.bitPathBounded ∧ s.cursorLegal inside ∧ s.framerFlagsApart

theorem State.legal_iff : s.legal inside ↔ s.registersLegal ∧ (inside → s.cursorInside) := by
  unfold State.legal State.cursorLegal State.registersLegal
  tauto

theorem body_keeps_legal (i : Instr) : Keeps (State.legal inside) (State.legal inside) (bodyOf i) := by
  rintro s ⟨hbits, hcursor, hflags⟩
  have hbits' := body_keeps_bitPath i s hbits
  have hcursor' := body_keeps_cursor i s hcursor
  have hflags' := body_keeps_flags i s hflags
  exact Res.leaves_iff.2 ⟨fun _ _ h => ⟨hbits'.of_done h, hcursor'.of_done h, hflags'.of_done h⟩,
    fun _ h => ⟨hbits'.of_hang h, hcursor'.of_hang h, hflags'.of_hang h⟩⟩

theorem exec_legal {i : Instr} (hs : s.legal inside) (h : exec i s = .next t) : t.legal inside :=
  exec_leaves (body_keeps_legal i s hs) (fun _ _ hu => hu) (fun _ _ hu => hu) (fun _ hu => hu) h

/-- A new image leaves the cursor legal when no traversal is under way (70_reset_and_hazards.md R247). -/
theorem State.cursorLegal_attach {w h : Nat} {image : Memory} (hs : s.cursorLegal inside)
    (hidle : inside → s.issued = false ∨ s.exh = true) :
    State.cursorLegal inside { s with imgw := w, imgh := h, image := image } := by
  obtain ⟨hstart, _⟩ := hs
  refine ⟨hstart, fun hin hissued hexh => ?_⟩
  rcases hidle hin with hfresh | hover
  · exact nomatch hfresh.symm.trans hissued
  · exact nomatch hexh.symm.trans hover

theorem HostMove.Leads.legal {m : HostMove} (h : m.Leads s t) (hs : s.legal inside)
    (hidle : ∀ x y pixels, m = .attachImage x y pixels → inside → s.issued = false ∨ s.exh = true) :
    t.legal inside := by
  cases h with
  | command _ hexec => exact exec_legal hs hexec
  | illegal => exact hs
  | resetInput =>
    exact ⟨State.bitPathBounded_of_empty rfl rfl rfl rfl, State.cursorLegal_of_start rfl rfl rfl,
      State.framerFlagsApart_of_clear rfl rfl⟩
  | attachImage =>
    obtain ⟨hbits, hcursor, hflags⟩ := hs
    exact ⟨hbits, State.cursorLegal_attach hcursor (hidle _ _ _ rfl), hflags⟩
  | writePixel => exact hs
  | attachSource => exact hs
  | settleAnswers => exact hs

end

/-- Settles O57: a step keeps the state or takes a move, and every move keeps the invariants; R43 (b) is carried where
it holds before and the host keeps its duty. -/
theorem registersStayLegal : Obligations.RegistersStayLegal := by
  unfold Obligations.RegistersStayLegal
  intro s t hlegal h
  have hs : s.legal (s.cursorInside ∧ s.hostKeepsImage) := State.legal_iff.2 ⟨hlegal, And.left⟩
  have ht : t.legal (s.cursorInside ∧ s.hostKeepsImage) := by
    rcases step_cases h with rfl | ⟨m, rest, hinbox, _, hleads⟩
    · exact hs
    · refine hleads.legal hs fun x y pixels hm hinside => ?_
      obtain ⟨_, hduty⟩ := hinside
      exact hduty x y pixels (by rw [hinbox, hm]; rfl)
  obtain ⟨hregisters, hcursor⟩ := State.legal_iff.1 ht
  exact ⟨hregisters, fun hinside hduty => hcursor ⟨hinside, hduty⟩⟩

/-- Settles O60: at reset the bit path is empty, the cursor is at its start, no flag is set, the image and the source
are empty and no answer is scheduled. -/
theorem resetIsLegal : Obligations.ResetIsLegal := by
  unfold Obligations.ResetIsLegal
  have hregisters : State.reset.registersLegal :=
    ⟨State.bitPathBounded_of_empty rfl rfl rfl rfl, fun _ => ⟨rfl, rfl⟩, State.framerFlagsApart_of_clear rfl rfl⟩
  have hpos (n : Nat) : 0 < 2 ^ n := Nat.two_pow_pos n
  have hwidths : State.reset.widthsHold :=
    ⟨⟨hpos _, hpos _⟩, ⟨hpos _, hpos _⟩, ⟨hpos _, hpos _⟩, ⟨hpos _, hpos _⟩, hpos _, hpos _⟩
  exact ⟨hregisters, nofun, ⟨State.reset_image_wf, nofun⟩, hwidths, nofun⟩

end Sys2Proof.Machine
end

