-- ==== Sys2Proof/Proofs/AttachedImage.lean ====
section
/-! SUPPORT. An image as attached (spec/70_reset_and_hazards.md R243) and its first pixel (spec/43_pixel_cursor.md
R133). -/

namespace Sys2Proof.Machine

section
variable {s : State} {m : Memory}

/-! ### Pixels in memory -/

/-- Packing the three channels of a pixel gives the pixel back (40_channel_codec.md R92). -/
theorem encodePixel_decodePixel (p : Pixel) : encodePixel (decodePixel p) = p := by
  apply BitVec.eq_of_getLsbD_eq
  intro i hi
  simp only [encodePixel, decodePixel, BitVec.getLsbD_append, BitVec.getLsbD_extractLsb']
  by_cases h8 : i < 8
  · simp [h8, show ¬16 ≤ i by omega]
  · by_cases h16 : i < 16
    · simp [h8, h16, show i - 8 < 8 by omega, show 8 + (i - 8) = i by omega]
    · simp [h16, show i - 16 < 8 by omega, show 16 + (i - 16) = i by omega]

/-- A pixel just written reads as written. -/
theorem Memory.readPixel_writePixel_self (hm : m.wf = true) (a : Nat) (p : Pixel) :
    (m.writePixel a p).readPixel a = p := by
  have hred : (m.write a (decodePixel p).red).wf = true := Memory.wf_write hm _ _
  have hgreen : ((m.write a (decodePixel p).red).write (a + 1) (decodePixel p).green).wf = true :=
    Memory.wf_write hred _ _
  unfold Memory.readPixel Memory.writePixel
  dsimp only
  rw [Memory.read_write_self hgreen, Memory.read_write_other hgreen _ (by omega),
    Memory.read_write_other hgreen _ (by omega), Memory.read_write_self hred,
    Memory.read_write_other hred _ (by omega), Memory.read_write_self hm]
  exact encodePixel_decodePixel p

/-- Writing a pixel leaves every byte below it alone. -/
theorem Memory.read_writePixel_of_lt (hm : m.wf = true) {a k : Nat} (p : Pixel) (hk : k < a) :
    (m.writePixel a p).read k = m.read k := by
  have hred : (m.write a (decodePixel p).red).wf = true := Memory.wf_write hm _ _
  have hgreen : ((m.write a (decodePixel p).red).write (a + 1) (decodePixel p).green).wf = true :=
    Memory.wf_write hred _ _
  unfold Memory.writePixel
  rw [Memory.read_write_other hgreen _ (by omega), Memory.read_write_other hred _ (by omega),
    Memory.read_write_other hm _ (by omega)]

/-- Laying pixels out leaves every byte below the first alone. -/
theorem Memory.read_layPixels_of_lt (hm : m.wf = true) {a k : Nat} (pixels : List Pixel) (hk : k < a) :
    (m.layPixels a pixels).read k = m.read k := by
  induction pixels generalizing m a with
  | nil => rfl
  | cons p rest ih =>
    calc ((m.writePixel a p).layPixels (a + 3) rest).read k
        = (m.writePixel a p).read k := ih (Memory.wf_writePixel hm a p) (by omega)
      _ = m.read k := Memory.read_writePixel_of_lt hm p hk

/-- Pixels laid out from an address on read back in order, three bytes apart (20_memory.md R50). -/
theorem Memory.readPixel_layPixels (hm : m.wf = true) (a : Nat) {pixels : List Pixel} {j : Nat} {p : Pixel}
    (hp : pixels[j]? = some p) : (m.layPixels a pixels).readPixel (a + 3 * j) = p := by
  induction pixels generalizing m a j with
  | nil => cases hp
  | cons q rest ih =>
    have hwritten : (m.writePixel a q).wf = true := Memory.wf_writePixel hm a q
    cases j with
    | zero =>
      obtain rfl : q = p := by simpa using hp
      have hbelow (k : Nat) (hk : k < 3) :
          ((m.writePixel a q).layPixels (a + 3) rest).read (a + k) = (m.writePixel a q).read (a + k) :=
        Memory.read_layPixels_of_lt hwritten rest (by omega)
      calc ((m.writePixel a q).layPixels (a + 3) rest).readPixel a
          = (m.writePixel a q).readPixel a := by
            simp only [Memory.readPixel, hbelow 1 (by omega), hbelow 2 (by omega),
              show Memory.read _ a = _ from hbelow 0 (by omega), Nat.add_zero]
        _ = q := Memory.readPixel_writePixel_self hm a q
    | succ j =>
      have hplace : a + 3 * (j + 1) = a + 3 + 3 * j := by omega
      rw [hplace]
      exact ih hwritten (a + 3) (by simpa using hp)

/-! ### Attaching an image -/

theorem step_attachImage {rest : List HostMove} {w h : Nat} {pixels : List Pixel}
    (hin : s.inbox = .attachImage w h pixels :: rest) (hfree : s.hung = false)
    (hfits : imageFits w h pixels = true) :
    step s = .next { s with inbox := rest, imgw := w, imgh := h, image := Memory.layPixels [] 0 pixels } := by
  rw [step_eq_outcome, takeMove_cons hin fun hhung => absurd (hfree.symm.trans hhung) Bool.false_ne_true]
  exact hostMove_outcome_eq_next.2 (.attachImage hfits)

/-- Settles O8: the image laid out from address 0 holds pixel j at address 3·j. -/
theorem attachedImageIsRead : Obligations.AttachedImageIsRead := by
  unfold Obligations.AttachedImageIsRead
  intro s w h pixels rest hin hfree hw hh hlen
  have hfits : imageFits w h pixels = true := by
    simp only [imageFits, Bool.and_eq_true, decide_eq_true_eq]
    exact ⟨⟨hw, hh⟩, hlen⟩
  refine ⟨_, step_attachImage hin hfree hfits, fun x y p _ _ hp => ?_⟩
  have hread := Memory.readPixel_layPixels (m := []) rfl 0 hp
  rwa [Nat.zero_add] at hread

/-! ### The first advance -/

/-- The answer OK clears STATUS (10_state.md R40; 60_exceptions.md R210). -/
theorem State.respond_okWith (v : Nat) : s.respond (okWith v) =
    { s with status := 0#11, responses := s.responses ++ [⟨.ok, v⟩] } := by
  have hstatus : statusWord .ok none false = 0#11 := by decide
  rw [← hstatus]
  rfl

/-- EXHAUSTED in STATUS (10_state.md R40; 60_exceptions.md R210). -/
theorem State.respond_exhausted : s.respond exhaustedAnswer =
    { s with status := 0x010#11, responses := s.responses ++ [⟨.exhausted, 0⟩] } := by
  have hstatus : statusWord .exhausted none false = 0x010#11 := by decide
  rw [← hstatus]
  rfl

theorem firstAdvance_of_empty {reload : Bool} (hempty : s.imgw = 0 ∨ s.imgh = 0) :
    firstAdvance reload s = .done exhaustedAnswer { s with exh := true, brem := exhaustedBudget reload s } :=
  if_pos hempty

theorem imgGet_of_ok {x y : Nat} (hin : s.inImage x y = true) (hok : s.nextAccessOk) :
    imgGet x y s = .done (some (s.pixelAt x y)) (s.afterGet x y .ok) :=
  imgGet_eq_done.2 ⟨hin, .inl ⟨rfl, hok, rfl⟩⟩

theorem firstAdvance_of_ok {reload : Bool} (hw : 0 < s.imgw) (hh : 0 < s.imgh) (hok : s.nextAccessOk) :
    firstAdvance reload s = .done (okWith (s.pixelAt 0 0).toNat)
      { s.afterGet 0 0 .ok with pxr := s.pixelAt 0 0, issued := true, brem := yieldBudget reload s } := by
  have hpixels : ¬(s.imgw = 0 ∨ s.imgh = 0) := by omega
  rw [firstAdvance, if_neg hpixels, imgGet_of_ok (State.inImage_iff.2 ⟨hw, hh⟩) hok]
  rfl

theorem wadvStep_of_fresh (hexh : s.exh = false) (hfresh : s.issued = false) :
    wadvStep s = firstAdvance true s := by
  simp only [wadvStep, hexh, hfresh, Bool.false_eq_true, if_false]

theorem radvStep_of_fresh (hexh : s.exh = false) (hfresh : s.issued = false) :
    radvStep s = firstAdvance false s := by
  simp only [radvStep, hexh, hfresh, Bool.false_eq_true, if_false]

end

/-- Settles O25: before its first pixel either cursor command is the first advance, which reads the pixel at (0, 0) or
finds the image empty. -/
theorem firstAdvanceYieldsTheOrigin : Obligations.FirstAdvanceYieldsTheOrigin := by
  unfold Obligations.FirstAdvanceYieldsTheOrigin
  intro s hexh hfresh
  have hwadv : exec .wadv s = finish (firstAdvance true s) := congrArg finish (wadvStep_of_fresh hexh hfresh)
  have hradv : exec .radv s = finish (firstAdvance false s) := congrArg finish (radvStep_of_fresh hexh hfresh)
  rw [hwadv, hradv]
  refine ⟨fun hw hh hok => ?_, fun hempty => ?_⟩
  · rw [firstAdvance_of_ok hw hh hok, firstAdvance_of_ok hw hh hok, finish_done, finish_done, State.respond_okWith,
      State.respond_okWith, yieldBudget_wadv, yieldBudget_radv]
    exact ⟨rfl, rfl⟩
  · rw [firstAdvance_of_empty hempty, firstAdvance_of_empty hempty, finish_done, finish_done,
      State.respond_exhausted, State.respond_exhausted]
    exact ⟨rfl, rfl⟩

end Sys2Proof.Machine
end

