-- ==== Sys2Proof/Proofs/Outcomes.lean ====
section
/-! SUPPORT. How a command's answer accounts for its accesses (spec/60_exceptions.md R211, R212, R216): it is IO_FAILURE
exactly when an access failed, which is then the last one before the release, and PORT names it. -/

namespace Sys2Proof.Machine

section
variable {s₀ s t u : State} {a b : Answer} {i : Instr} {e : Option Answer} {k : Nat}

/-! ### The fields of STATUS (10_state.md R40) -/

theorem statusWord_code (c : Code) (p : Option Port) (z : Bool) : (statusWord c p z).extractLsb' 0 8 = c.byte := by
  apply BitVec.eq_of_getLsbD_eq
  intro j hj
  simp only [statusWord, BitVec.getLsbD_extractLsb', BitVec.getLsbD_append, Nat.zero_add, hj, if_true,
    show j < 2 + 8 by omega, decide_true, Bool.true_and]

theorem statusWord_port (c : Code) (p : Option Port) (z : Bool) : (statusWord c p z).extractLsb' 8 2 = portBits p := by
  apply BitVec.eq_of_getLsbD_eq
  intro j hj
  simp only [statusWord, BitVec.getLsbD_extractLsb', BitVec.getLsbD_append, show ¬8 + j < 8 by omega,
    show 8 + j < 2 + 8 by omega, hj, if_true, if_false, Nat.add_sub_cancel_left, decide_true, Bool.true_and]

theorem statusWord_zcap (c : Code) (p : Option Port) (z : Bool) : (statusWord c p z).getLsbD 10 = z := by
  rw [statusWord, BitVec.getLsbD_append, if_neg (by decide)]
  cases z <;> rfl

/-! ### The record of the ports -/

/-- No access of the record since `s₀` failed. -/
def State.quietSince (s₀ s : State) : Prop :=
  ∃ uses, s.ports = s₀.ports ++ uses ∧ ∀ u ∈ uses, u.failedPort = none

theorem State.quietSince_refl (s : State) : s.quietSince s :=
  ⟨[], (List.append_nil _).symm, nofun⟩

theorem State.quietSince.use {use : PortUse} (h : s₀.quietSince s) (hports : t.ports = s.ports ++ [use])
    (huse : use.failedPort = none) : s₀.quietSince t := by
  obtain ⟨uses, hs, hquiet⟩ := h
  refine ⟨uses ++ [use], by rw [hports, hs, List.append_assoc], fun u hu => ?_⟩
  rcases List.mem_append.1 hu with hold | hnew
  · exact hquiet u hold
  · rw [List.mem_singleton.1 hnew, huse]

theorem State.quietSince.releaseSink (h : s₀.quietSince s) : s₀.quietSince s.releaseSink := by
  rcases s.releaseSink_cases with ⟨_, hs⟩ | ⟨_, hs⟩ <;> rw [hs]
  · exact h.use (use := .sinkClose) rfl rfl
  · exact h

/-- What a primitive command's answer says of the accesses since `s₀`: none failed, or the last did and the answer is
IO_FAILURE with its port (R212, R216). ZCAP is EMBED's alone. -/
inductive Answer.Accounts (s₀ : State) (a : Answer) (t : State) : Prop
  | quiet (hcode : a.code ≠ .ioFailure) (hport : a.port = none) (hzcap : a.zcap = false) (hquiet : s₀.quietSince t)
  | failed {s : State} {failing : PortUse} {port : Port} (hcode : a.code = .ioFailure) (hport : a.port = some port)
      (hzcap : a.zcap = false) (hquiet : s₀.quietSince s) (hports : t.ports = s.ports ++ [failing])
      (hfailing : failing.failedPort = some port)

theorem Answer.Accounts.quietSince (h : a.Accounts s₀ t) (hcode : a.code ≠ .ioFailure) : s₀.quietSince t := by
  cases h with
  | quiet _ _ _ hquiet => exact hquiet
  | failed hio => exact absurd hio hcode

/-- An answer OK after no failed access. -/
theorem Answer.Accounts.okWith {v : Nat} (h : s₀.quietSince t) : (okWith v).Accounts s₀ t :=
  .quiet nofun rfl rfl h

/-- The answer IO_FAILURE of the access just made. -/
theorem State.quietSince.ioFailure {failing : PortUse} {port : Port} (h : s₀.quietSince s)
    (hports : t.ports = s.ports ++ [failing]) (hfailing : failing.failedPort = some port) (v : Nat) :
    (ioFailure port v).Accounts s₀ t :=
  .failed rfl rfl rfl h hports hfailing

/-! ### The primitive commands -/

theorem firstAdvance_accounts {reload : Bool} (hs : s₀.quietSince s) (h : firstAdvance reload s = .done a t) :
    a.Accounts s₀ t := by
  rcases firstAdvance_cases h with ⟨_, rfl, rfl⟩ | ⟨_, _, rfl, rfl⟩ | ⟨_, _, rfl, rfl⟩
  · exact .quiet nofun rfl rfl hs
  · exact .okWith (hs.use (use := .imgGet 0 0 .ok) rfl rfl)
  · exact hs.ioFailure rfl rfl 0

theorem moveAndRead_accounts {reload : Bool} (hs : s₀.quietSince s) (h : moveAndRead reload s = .done a t) :
    a.Accounts s₀ t := by
  rcases moveAndRead_cases h with ⟨_, rfl, rfl⟩ | ⟨_, _, rfl, rfl⟩ | ⟨_, _, rfl, rfl⟩
  · exact .quiet nofun rfl rfl hs
  · exact .okWith (hs.use (use := .imgGet _ _ .ok) rfl rfl)
  · exact hs.ioFailure rfl rfl 0

theorem wadvStep_accounts (hs : s₀.quietSince s) (h : wadvStep s = .done a t) : a.Accounts s₀ t := by
  have hcommitted : s₀.quietSince (s.afterCommit s.curx s.cury s.pxr) :=
    hs.use (use := .imgSet s.curx s.cury s.pxr .ok) rfl rfl
  rcases wadvStep_cases h with ⟨_, rfl, rfl⟩ | ⟨_, _, hfirst⟩ | ⟨_, _, _, _, hmove⟩ | ⟨_, _, _, _, rfl, rfl⟩
  · exact .quiet nofun rfl rfl hs
  · exact firstAdvance_accounts hs hfirst
  · exact moveAndRead_accounts hcommitted hmove
  · exact hs.ioFailure rfl rfl 0

theorem radvStep_accounts (hs : s₀.quietSince s) (h : radvStep s = .done a t) : a.Accounts s₀ t := by
  rcases radvStep_cases h with ⟨_, rfl, rfl⟩ | ⟨_, _, hfirst⟩ | ⟨_, _, hmove⟩
  · exact .quiet nofun rfl rfl hs
  · exact firstAdvance_accounts hs hfirst
  · exact moveAndRead_accounts hs hmove

theorem emitFrom_accounts {text : List Byte} {next : Component} (hs : s₀.quietSince s)
    (h : emitFrom text next s = .done a t) : a.Accounts s₀ t := by
  rcases emitFrom_cases h with ⟨_, _, rfl, rfl⟩ | ⟨_, rfl, rfl⟩ <;> exact .okWith hs

theorem fnextStep_accounts (hs : s₀.quietSince s) (h : fnextStep s = .done a t) : a.Accounts s₀ t := by
  have hread : s₀.quietSince (s.afterRead .ok) := hs.use (use := .srcRead s.rcnt .ok) rfl rfl
  rcases fnextStep_cases h with ⟨_, rfl, rfl⟩ | ⟨_, _, hemit⟩ | ⟨_, _, hemit⟩ | ⟨_, _, _, rfl, rfl⟩ |
    ⟨_, _, _, _, rfl, rfl⟩ | ⟨_, _, _, _, _, rfl, rfl⟩
  · exact .quiet nofun rfl rfl hs
  · exact emitFrom_accounts hs hemit
  · exact emitFrom_accounts hs hemit
  · exact hs.ioFailure rfl rfl s.rcnt
  · exact .quiet nofun rfl rfl hread
  · exact .okWith hread

theorem fputName_accounts (hs : s₀.quietSince s) (h : fputName s = .done a t) : a.Accounts s₀ t := by
  rcases fputName_cases h with ⟨_, rfl, rfl⟩ | ⟨_, _, rfl, rfl⟩ | ⟨_, _, rfl, rfl⟩
  · exact .okWith hs
  · exact .okWith (hs.use (use := .sinkOpen s.namebuf .ok) rfl rfl)
  · exact hs.ioFailure rfl rfl 0

theorem fputSize_accounts (hs : s₀.quietSince s) (h : fputSize s = .done a t) : a.Accounts s₀ t := by
  rcases fputSize_cases h with ⟨_, rfl, rfl⟩ | ⟨_, _, _, rfl, rfl⟩ | ⟨_, _, _, rfl, rfl⟩ | ⟨v, _, _, rfl, rfl⟩
  · exact .okWith hs
  · exact .quiet nofun rfl rfl (hs.use (use := .sinkDiscard) rfl rfl)
  · exact .quiet nofun rfl rfl hs
  · exact .okWith hs

theorem fputRaw_accounts (hs : s₀.quietSince s) (h : fputRaw s = .done a t) : a.Accounts s₀ t := by
  have hwritten : s₀.quietSince (s.afterWrite .ok) := hs.use (use := .sinkWrite s.byter .ok) rfl rfl
  rcases fputRaw_cases h with ⟨_, _, rfl, rfl⟩ | ⟨_, _, rfl, rfl⟩ | ⟨_, rfl, rfl⟩
  · exact .quiet nofun rfl rfl (hwritten.use (use := .sinkClose) rfl rfl)
  · exact .okWith hwritten
  · exact hs.ioFailure rfl rfl s.rcnt

theorem fputStep_accounts (hs : s₀.quietSince s) (h : fputStep s = .done a t) : a.Accounts s₀ t := by
  rcases fputStep_cases h with ⟨_, rfl, rfl⟩ | ⟨_, _, rfl, rfl⟩ | ⟨_, _, _, hname⟩ | ⟨_, _, _, hsize⟩ | ⟨_, _, _, hraw⟩
  · exact .quiet nofun rfl rfl hs
  · exact .quiet nofun rfl rfl hs
  · exact fputName_accounts hs hname
  · exact fputSize_accounts hs hsize
  · exact fputRaw_accounts hs hraw

theorem finitStep_accounts (hs : s₀.quietSince s) (h : finitStep s = .done a t) : a.Accounts s₀ t := by
  obtain ⟨rfl, rfl⟩ := Res.done.inj h
  have hreleased := hs.releaseSink
  exact .okWith hreleased

/-- Every command but EMBED and RETRIEVE accounts for its accesses with nothing after the failing one. -/
theorem primitive_accounts (hembed : i ≠ .embed) (hretrieve : i ≠ .retrieve) (h : bodyOf i s = .done a t) :
    a.Accounts s t := by
  have hs := s.quietSince_refl
  cases i with
  | setmask | ldpx | ldch | cdec | cenc | ldbyte | expb | cinit | cap =>
    obtain ⟨rfl, rfl⟩ := Res.done.inj h
    exact .okWith hs
  | rdreg =>
    obtain ⟨rfl, rfl⟩ := Res.done.inj h
    exact .quiet nofun rfl rfl hs
  | srst =>
    obtain ⟨rfl, rfl⟩ := Res.done.inj h
    have hreleased := hs.releaseSink
    exact .okWith hreleased
  | ldrem imm8 =>
    rcases ldremStep_cases h with ⟨_, rfl, rfl⟩ | ⟨_, rfl, rfl⟩
    · exact .quiet nofun rfl rfl hs
    · exact .okWith hs
  | pemb =>
    rcases pembStep_cases h with ⟨_, rfl, rfl⟩ | ⟨_, rfl, rfl⟩
    · exact .quiet nofun rfl rfl hs
    · exact .okWith hs
  | pext =>
    rcases pextStep_cases h with ⟨_, rfl, rfl⟩ | ⟨_, rfl, rfl⟩
    · exact .quiet nofun rfl rfl hs
    · exact .okWith hs
  | packb =>
    rcases packbStep_cases h with ⟨_, rfl, rfl⟩ | ⟨_, rfl, rfl⟩
    · exact .quiet nofun rfl rfl hs
    · exact .okWith hs
  | wadv => exact wadvStep_accounts hs h
  | radv => exact radvStep_accounts hs h
  | finit => exact finitStep_accounts hs h
  | fnext => exact fnextStep_accounts hs h
  | fput => exact fputStep_accounts hs h
  | embed => exact absurd rfl hembed
  | retrieve => exact absurd rfl hretrieve

/-! ### The sink of a RETRIEVE -/

/-- SINKOPEN says whether a sink was opened in the record since `s₀`. -/
def State.sinkTracked (s₀ s : State) : Prop :=
  ∃ uses, s.ports = s₀.ports ++ uses ∧ (s.sinkopen = true ↔ ∃ name, .sinkOpen name .ok ∈ uses)

theorem State.sinkTracked.use {use : PortUse} (h : s₀.sinkTracked s) (hports : t.ports = s.ports ++ [use])
    (huse : ∀ name, use ≠ .sinkOpen name .ok) (hopen : t.sinkopen = s.sinkopen) : s₀.sinkTracked t := by
  obtain ⟨uses, hs, hiff⟩ := h
  refine ⟨uses ++ [use], by rw [hports, hs, List.append_assoc], ?_⟩
  have hsame (name : List Byte) : .sinkOpen name .ok ∈ uses ++ [use] ↔ .sinkOpen name .ok ∈ uses := by
    simp [(huse name).symm]
  simp only [hopen, hiff, hsame]

/-- Opening the sink sets SINKOPEN (44_payload_framer.md R160). -/
theorem State.sinkTracked.opened {name : List Byte} (h : s₀.sinkTracked s)
    (hports : t.ports = s.ports ++ [.sinkOpen name .ok]) (hopen : t.sinkopen = true) : s₀.sinkTracked t := by
  obtain ⟨uses, hs, _⟩ := h
  exact ⟨uses ++ [.sinkOpen name .ok], by rw [hports, hs, List.append_assoc],
    iff_of_true hopen ⟨name, List.mem_append_right _ (List.mem_singleton.2 rfl)⟩⟩

theorem firstAdvance_sinkTracked {reload : Bool} (hs : s₀.sinkTracked s) (h : firstAdvance reload s = .done a t) :
    s₀.sinkTracked t := by
  rcases firstAdvance_cases h with ⟨_, _, rfl⟩ | ⟨_, _, _, rfl⟩ | ⟨_, _, _, rfl⟩
  · exact hs
  · exact hs.use (use := .imgGet 0 0 .ok) rfl nofun rfl
  · exact hs.use (use := .imgGet 0 0 .fail) rfl nofun rfl

theorem moveAndRead_sinkTracked {reload : Bool} (hs : s₀.sinkTracked s) (h : moveAndRead reload s = .done a t) :
    s₀.sinkTracked t := by
  rcases moveAndRead_cases h with ⟨_, _, rfl⟩ | ⟨_, _, _, rfl⟩ | ⟨_, _, _, rfl⟩
  · exact hs
  · exact hs.use (use := .imgGet _ _ .ok) rfl nofun rfl
  · exact hs.use (use := .imgGet _ _ .fail) rfl nofun rfl

theorem radvStep_sinkTracked (hs : s₀.sinkTracked s) (h : radvStep s = .done a t) : s₀.sinkTracked t := by
  rcases radvStep_cases h with ⟨_, _, rfl⟩ | ⟨_, _, hfirst⟩ | ⟨_, _, hmove⟩
  · exact hs
  · exact firstAdvance_sinkTracked hs hfirst
  · exact moveAndRead_sinkTracked hs hmove

/-- A FPUT that lets the retrieval go on, or fails at the sink, has not ended the sink (R160). -/
theorem fputStep_sinkTracked (hs : s₀.sinkTracked s) (h : fputStep s = .done a t)
    (hcode : a.code = .ok ∨ a.code = .ioFailure) : s₀.sinkTracked t := by
  have hwritten : s₀.sinkTracked (s.afterWrite .ok) := hs.use (use := .sinkWrite s.byter .ok) rfl nofun rfl
  rcases fputStep_cases h with ⟨_, rfl, _⟩ | ⟨_, _, rfl, _⟩ | ⟨_, _, _, hname⟩ | ⟨_, _, _, hsize⟩ | ⟨_, _, _, hraw⟩
  · exact absurd hcode nofun
  · exact absurd hcode nofun
  · rcases fputName_cases hname with ⟨_, _, rfl⟩ | ⟨_, _, _, rfl⟩ | ⟨_, _, _, rfl⟩
    · exact hs
    · exact hs.opened (name := s.namebuf) rfl rfl
    · exact hs.use (use := .sinkOpen s.namebuf .fail) rfl nofun rfl
  · rcases fputSize_cases hsize with ⟨_, _, rfl⟩ | ⟨_, _, _, rfl, _⟩ | ⟨_, _, _, rfl, _⟩ | ⟨v, _, _, _, rfl⟩
    · exact hs
    · exact absurd hcode nofun
    · exact absurd hcode nofun
    · exact hs
  · rcases fputRaw_cases hraw with ⟨_, _, rfl, _⟩ | ⟨_, _, _, rfl⟩ | ⟨_, _, rfl⟩
    · exact absurd hcode nofun
    · exact hwritten
    · exact hs.use (use := .sinkWrite s.byter .fail) rfl nofun rfl

/-! ### The loops of EMBED and RETRIEVE -/

theorem Answer.code_of_not_stops (h : ¬a.stops = true) : a.code ≠ .ioFailure := by
  intro hio
  exact h (by simp [Answer.stops, hio])

/-- The steps without a port keep the record. -/
theorem quietSince_keeps (i : Instr) (hframe : ∀ u : State, (u.forget i).ports = u.ports) (hs : s₀.quietSince s)
    (h : bodyOf i s = .done a t) : s₀.quietSince t := by
  have hports : t.ports = s.ports := ((body_frame i s).of_done h).keeps State.ports hframe
  obtain ⟨uses, hold, hquiet⟩ := hs
  exact ⟨uses, hports.trans hold, hquiet⟩

/-- How a loop of EMBED ends: at its end with no failed access, or at a step's answer that accounts for it. -/
def LoopAccounts (s₀ : State) : Option Answer → State → Prop
  | none, t => s₀.quietSince t
  | some a, t => a.Accounts s₀ t

theorem requestPixel_accounts (hs : s₀.quietSince s) (h : requestPixel s = .done a t) : a.Accounts s₀ t := by
  unfold requestPixel at h
  split at h
  · exact wadvStep_accounts hs h
  · obtain ⟨rfl, rfl⟩ := Res.done.inj h
    exact .okWith hs

theorem drainQueue_accounts (hs : s₀.quietSince s) (h : drainQueue k s = .done e t) : LoopAccounts s₀ e t := by
  induction k generalizing s with
  | zero => cases h
  | succ k ih =>
    unfold drainQueue at h
    split at h
    · obtain ⟨rfl, rfl⟩ := Res.done.inj h
      exact hs
    · obtain ⟨a, u, hpixel, h⟩ := Res.bind_eq_done.1 h
      have ha := requestPixel_accounts hs hpixel
      split at h
      · obtain ⟨rfl, rfl⟩ := Res.done.inj h
        exact ha
      · rename_i hgo
        obtain ⟨_, v, hpemb, h⟩ := Res.bind_eq_done.1 h
        have hu : s₀.quietSince u := ha.quietSince (Answer.code_of_not_stops hgo)
        exact ih (quietSince_keeps .pemb (fun _ => rfl) hu hpemb) h

theorem embedLoop_accounts (hs : s₀.quietSince s) (h : embedLoop k s = .done e t) : LoopAccounts s₀ e t := by
  induction k generalizing s with
  | zero => cases h
  | succ k ih =>
    unfold embedLoop at h
    obtain ⟨r, u, hfnext, h⟩ := Res.bind_eq_done.1 h
    have hr := fnextStep_accounts hs hfnext
    split at h
    · rename_i hend
      obtain ⟨rfl, rfl⟩ := Res.done.inj h
      exact hr.quietSince (by rw [hend]; nofun)
    · split at h
      · obtain ⟨rfl, rfl⟩ := Res.done.inj h
        exact hr
      · rename_i hio
        obtain ⟨_, v, hexpb, h⟩ := Res.bind_eq_done.1 h
        obtain ⟨d, w, hdrain, h⟩ := Res.bind_eq_done.1 h
        have hv : s₀.quietSince v := quietSince_keeps .expb (fun _ => rfl) (hr.quietSince hio) hexpb
        have hd := drainQueue_accounts hv hdrain
        cases d with
        | some a =>
          obtain ⟨rfl, rfl⟩ := Res.done.inj h
          exact hd
        | none => exact ih hd h

/-- What a retrieval under way has done since `s₀`: no access failed, and SINKOPEN tracks the sink. -/
def State.retrievingSince (s₀ s : State) : Prop := s₀.quietSince s ∧ s₀.sinkTracked s

/-- How a retrieval ends: its answer accounts for the accesses, and at a failure SINKOPEN tracks the sink. -/
def Answer.EndsRetrieval (s₀ : State) (a : Answer) (t : State) : Prop :=
  a.Accounts s₀ t ∧ (a.code = .ioFailure → s₀.sinkTracked t)

theorem retrievingSince_keeps (i : Instr) (hframe : ∀ u : State, (u.forget i).ports = u.ports)
    (hopen : ∀ u : State, (u.forget i).sinkopen = u.sinkopen) (hs : s₀.retrievingSince s)
    (h : bodyOf i s = .done a t) : s₀.retrievingSince t := by
  obtain ⟨hquiet, uses, hports, hiff⟩ := hs
  have hsame := (body_frame i s).of_done h
  exact ⟨quietSince_keeps i hframe hquiet h, uses, (hsame.keeps State.ports hframe).trans hports,
    by rw [hsame.keeps State.sinkopen hopen]; exact hiff⟩

/-- How a round of bytes ends: the retrieval goes on, or it ends with the answer of a FPUT. -/
def FeedAccounts (s₀ : State) : Option Answer → State → Prop
  | none, t => s₀.retrievingSince t
  | some a, t => a.EndsRetrieval s₀ t

theorem feedBytes_accounts (hs : s₀.retrievingSince s) (h : feedBytes k s = .done e t) : FeedAccounts s₀ e t := by
  induction k generalizing s with
  | zero => cases h
  | succ k ih =>
    unfold feedBytes at h
    split at h
    · obtain ⟨rfl, rfl⟩ := Res.done.inj h
      exact hs
    · obtain ⟨_, u, hpackb, h⟩ := Res.bind_eq_done.1 h
      obtain ⟨r, v, hfput, h⟩ := Res.bind_eq_done.1 h
      obtain ⟨hquiet, htracked⟩ := retrievingSince_keeps .packb (fun _ => rfl) (fun _ => rfl) hs hpackb
      have hr := fputStep_accounts hquiet hfput
      split at h
      · rename_i hok
        have hv : s₀.quietSince v := hr.quietSince (by rw [hok]; nofun)
        exact ih ⟨hv, fputStep_sinkTracked htracked hfput (.inl hok)⟩ h
      · obtain ⟨rfl, rfl⟩ := Res.done.inj h
        exact ⟨hr, fun hio => fputStep_sinkTracked htracked hfput (.inr hio)⟩

theorem retrieveLoop_accounts (hs : s₀.retrievingSince s) (h : retrieveLoop k s = .done a t) :
    a.EndsRetrieval s₀ t := by
  induction k generalizing s with
  | zero => cases h
  | succ k ih =>
    unfold retrieveLoop at h
    obtain ⟨r, u, hradv, h⟩ := Res.bind_eq_done.1 h
    obtain ⟨hquiet, htracked⟩ := hs
    have hr := radvStep_accounts hquiet hradv
    have hu := radvStep_sinkTracked htracked hradv
    split at h
    · obtain ⟨rfl, rfl⟩ := Res.done.inj h
      exact ⟨hr, fun _ => hu⟩
    · rename_i hgo
      obtain ⟨_, v, hpext, h⟩ := Res.bind_eq_done.1 h
      obtain ⟨d, w, hfeed, h⟩ := Res.bind_eq_done.1 h
      have hv : s₀.retrievingSince v := retrievingSince_keeps .pext (fun _ => rfl) (fun _ => rfl)
        ⟨hr.quietSince (Answer.code_of_not_stops hgo), hu⟩ hpext
      have hd := feedBytes_accounts hv hfeed
      cases d with
      | some b =>
        obtain ⟨rfl, rfl⟩ := Res.done.inj h
        exact hd
      | none => exact ih hd h

/-! ### The start of both operations, and the releases -/

theorem State.releaseSink_ports (s : State) :
    s.releaseSink.ports = s.ports ++ if s.sinkopen then [.sinkClose] else [] := by
  rcases s.releaseSink_cases with ⟨hopen, h⟩ | ⟨hclosed, h⟩
  · rw [h, hopen]
    rfl
  · rw [h, hclosed]
    exact (List.append_nil s.ports).symm

theorem State.releaseSink_rcnt (s : State) : s.releaseSink.rcnt = s.rcnt := by
  rcases s.releaseSink_cases with ⟨_, h⟩ | ⟨_, h⟩
  · rw [h, State.sinkClose_rcnt]
  · rw [h]

/-- Both operations start without a failed access, under the same mask, with the sink closed (10_state.md R42). -/
theorem freshOperation_start (h : freshOperation s = .done a t) : t.mask = s.mask ∧ s.retrievingSince t := by
  obtain ⟨_, u, hcinit, hfinit⟩ := Res.bind_eq_done.1 h
  have hmask : t.mask = s.mask :=
    (((body_frame .finit u).of_done hfinit).keeps State.mask fun _ => rfl).trans
      (((body_frame .cinit s).of_done hcinit).keeps State.mask fun _ => rfl)
  have hu : s.quietSince u := quietSince_keeps .cinit (fun _ => rfl) s.quietSince_refl hcinit
  have hports : u.ports = s.ports := ((body_frame .cinit s).of_done hcinit).keeps State.ports fun _ => rfl
  obtain ⟨_, rfl⟩ := Res.done.inj hfinit
  have hreleased : s.quietSince u.releaseSink := hu.releaseSink
  have hclose := u.releaseSink_ports
  rw [hports] at hclose
  refine ⟨hmask, hreleased, _, hclose, iff_of_false nofun ?_⟩
  rintro ⟨name, hname⟩
  split at hname <;> simp at hname

/-- What follows the failing access of a command, as R190, R195 and R216 release what is open. -/
def Releases (i : Instr) (earlier release : List PortUse) (a : Answer) (t : State) : Prop :=
  (i ≠ .embed → i ≠ .retrieve → release = []) ∧
  (i = .embed → release = [.srcClose] ∧ a.value = t.rcnt) ∧
  (i = .retrieve → t.sinkopen = false ∧ a.value = t.rcnt ∧
    ((∃ name, .sinkOpen name .ok ∈ earlier) → release = [.sinkClose]) ∧
    ((∀ name, .sinkOpen name .ok ∉ earlier) → release = []))

/-- What the answer of any command says of the accesses since it began: none failed, or the answer is IO_FAILURE, with
the port of the failed access, and only the release follows that access. -/
inductive Answer.Closes (i : Instr) (s : State) (a : Answer) (t : State) : Prop
  | quiet (hcode : a.code ≠ .ioFailure) (hport : a.port = none) (hquiet : s.quietSince t)
  | failed {earlier release : List PortUse} {failing : PortUse} {port : Port} (hcode : a.code = .ioFailure)
      (hport : a.port = some port) (hports : t.ports = s.ports ++ earlier ++ [failing] ++ release)
      (hearlier : ∀ u ∈ earlier, u.failedPort = none) (hfailing : failing.failedPort = some port)
      (hrelease : Releases i earlier release a t)

theorem primitive_closes (hembed : i ≠ .embed) (hretrieve : i ≠ .retrieve) (h : bodyOf i s = .done a t) :
    a.Closes i s t ∧ a.zcap = false := by
  cases primitive_accounts hembed hretrieve h with
  | quiet hcode hport hzcap hquiet => exact ⟨.quiet hcode hport hquiet, hzcap⟩
  | failed hcode hport hzcap hquiet hports hfailing =>
    obtain ⟨earlier, hs, hearlier⟩ := hquiet
    refine ⟨.failed (release := []) hcode hport (by rw [hports, hs, List.append_nil]) hearlier hfailing ?_, hzcap⟩
    exact ⟨fun _ _ => rfl, fun h => absurd h hembed, fun h => absurd h hretrieve⟩

/-! ### EMBED -/

theorem embedFailed_closes {z : Bool} (hb : b.Accounts s u) (h : embedFailed z b u = .done a t) :
    a.Closes .embed s t ∧ a.zcap = z := by
  unfold embedFailed at h
  cases hb with
  | quiet hcode _ _ hquiet =>
    rw [if_neg hcode] at h
    obtain ⟨rfl, rfl⟩ := Res.done.inj h
    exact ⟨.quiet nofun rfl (hquiet.use (use := .srcClose) rfl rfl), rfl⟩
  | failed hcode hport _ hquiet hports hfailing =>
    rw [if_pos hcode] at h
    obtain ⟨rfl, rfl⟩ := Res.done.inj h
    obtain ⟨earlier, hs, hearlier⟩ := hquiet
    have hclosed := congrArg (· ++ [PortUse.srcClose]) (hports.trans (congrArg (· ++ _) hs))
    exact ⟨.failed rfl hport hclosed hearlier hfailing ⟨fun h => absurd rfl h, fun _ => ⟨rfl, rfl⟩, nofun⟩, rfl⟩

theorem embedFlush_closes {z : Bool} (hu : s.quietSince u) (h : embedFlush z u = .done a t) :
    a.Closes .embed s t ∧ a.zcap = z := by
  obtain ⟨b, v, hwadv, h⟩ := Res.bind_eq_done.1 h
  have hb := wadvStep_accounts hu hwadv
  split at h
  · exact embedFailed_closes hb h
  · rename_i hcode
    obtain ⟨rfl, rfl⟩ := Res.done.inj h
    exact ⟨.quiet nofun rfl ((hb.quietSince hcode).use (use := .srcClose) rfl rfl), rfl⟩

theorem embedStep_closes (h : embedStep s = .done a t) :
    a.Closes .embed s t ∧ a.zcap = decide (popcount s.mask = 0) := by
  obtain ⟨_, u, hstart, h⟩ := Res.bind_eq_done.1 h
  obtain ⟨hmask, hu, _⟩ := freshOperation_start hstart
  have hsized : s.quietSince (loadEmbedSizes u) := hu
  dsimp only at h
  rw [hmask] at h
  split at h
  · obtain ⟨rfl, rfl⟩ := Res.done.inj h
    exact ⟨.quiet nofun rfl (hsized.use (use := .srcClose) rfl rfl), rfl⟩
  · obtain ⟨e, v, hloop, h⟩ := Res.bind_eq_done.1 h
    have he := embedLoop_accounts hsized hloop
    cases e with
    | some b => exact embedFailed_closes he h
    | none => exact embedFlush_closes he h

/-! ### RETRIEVE -/

theorem retrieveEnd_cases (h : retrieveEnd b s = .done a t) :
    (b.code ≠ .ioFailure ∧ a.code ≠ .ioFailure ∧ a.port = none ∧ a.zcap = false ∧ (t = s ∨ t = s.releaseSink)) ∨
    (b.code = .ioFailure ∧ a = { code := .ioFailure, value := s.rcnt, port := b.port } ∧ t = s.releaseSink) := by
  cases hcode : b.code <;> simp only [retrieveEnd, hcode] at h <;> obtain ⟨rfl, rfl⟩ := Res.done.inj h
  case ioFailure => exact .inr ⟨rfl, rfl, rfl⟩
  all_goals exact .inl ⟨nofun, nofun, rfl, rfl, by simp⟩

theorem retrieveEnd_closes (hb : b.EndsRetrieval s u) (h : retrieveEnd b u = .done a t) :
    a.Closes .retrieve s t ∧ a.zcap = false := by
  obtain ⟨haccounts, hsink⟩ := hb
  rcases retrieveEnd_cases h with ⟨hb, hcode, hport, hzcap, rfl | rfl⟩ | ⟨hio, rfl, rfl⟩
  · exact ⟨.quiet hcode hport (haccounts.quietSince hb), hzcap⟩
  · exact ⟨.quiet hcode hport (haccounts.quietSince hb).releaseSink, hzcap⟩
  · cases haccounts with
    | quiet hcode => exact absurd hio hcode
    | @failed v failing port _ hport _ hquiet hports hfailing =>
      obtain ⟨earlier, hv, hearlier⟩ := hquiet
      obtain ⟨uses, hu, hopen⟩ := hsink hio
      have huses : uses = earlier ++ [failing] := by
        rw [hports, hv, List.append_assoc] at hu
        exact (List.append_cancel_left hu).symm
      have hother (name : List Byte) : failing ≠ .sinkOpen name .ok := by
        rintro rfl
        cases hfailing
      have hopened : u.sinkopen = true ↔ ∃ name, .sinkOpen name .ok ∈ earlier := by
        simp only [hopen, huses, List.mem_append, List.mem_singleton, (hother _).symm, or_false]
      have hclosed : u.releaseSink.ports =
          s.ports ++ earlier ++ [failing] ++ if u.sinkopen then [.sinkClose] else [] := by
        rw [u.releaseSink_ports, hports, hv]
      have hrcnt : u.rcnt = u.releaseSink.rcnt := (u.releaseSink_rcnt).symm
      refine ⟨.failed rfl hport hclosed hearlier hfailing ⟨fun _ h => absurd rfl h, nofun, fun _ => ?_⟩, rfl⟩
      refine ⟨u.releaseSink_sinkopen, hrcnt, fun h => if_pos (hopened.2 h), fun h => if_neg fun ho => ?_⟩
      obtain ⟨name, hname⟩ := hopened.1 ho
      exact h name hname

theorem retrieveStep_closes (h : retrieveStep s = .done a t) : a.Closes .retrieve s t ∧ a.zcap = false := by
  obtain ⟨_, u, hstart, h⟩ := Res.bind_eq_done.1 h
  obtain ⟨b, v, hloop, h⟩ := Res.bind_eq_done.1 h
  obtain ⟨_, hu⟩ := freshOperation_start hstart
  exact retrieveEnd_closes (retrieveLoop_accounts hu hloop) h

/-! ### Every command -/

theorem body_closes (h : bodyOf i s = .done a t) :
    a.Closes i s t ∧ (a.zcap = true ↔ i = .embed ∧ popcount s.mask = 0) := by
  by_cases hembed : i = .embed
  · subst hembed
    obtain ⟨hcloses, hzcap⟩ := embedStep_closes h
    exact ⟨hcloses, by simp [hzcap]⟩
  · have hplain : a.Closes i s t ∧ a.zcap = false := by
      by_cases hretrieve : i = .retrieve
      · subst hretrieve
        exact retrieveStep_closes h
      · exact primitive_closes hembed hretrieve h
    obtain ⟨hcloses, hzcap⟩ := hplain
    exact ⟨hcloses, by simp [hzcap, hembed]⟩

/-- No body returns a response or hangs the block: `exec` does. -/
theorem body_keeps_outcome (i : Instr) (s : State) :
    (bodyOf i s).leaves (fun u => u.responses = s.responses ∧ u.hung = s.hung)
      (fun u => u.responses = s.responses ∧ u.hung = s.hung) :=
  (body_frame i s).mono fun u hu =>
    ⟨hu.keeps State.responses fun _ => by cases i <;> rfl, hu.keeps State.hung fun _ => by cases i <;> rfl⟩

end

/-- Settles O55: the answer of a body accounts for its accesses, and `exec` records it in STATUS and the response. -/
theorem statusRecordsTheOutcome : Obligations.StatusRecordsTheOutcome := by
  unfold Obligations.StatusRecordsTheOutcome
  intro i s t h
  rcases exec_cases h with ⟨imm8, v, rfl, _, rfl⟩ | ⟨a, u, hbody, rfl⟩ | ⟨u, hbody, rfl⟩
  · exact .inr ⟨⟨.ok, v⟩, rfl, rfl, .inl ⟨imm8, rfl, rfl, rfl, rfl⟩⟩
  · obtain ⟨hresponses, hhung⟩ := (body_keeps_outcome i s).of_done hbody
    obtain ⟨hcloses, hzcap⟩ := body_closes hbody
    refine .inr ⟨⟨a.code, a.value⟩, by rw [State.respond_responses, hresponses], hhung, .inr ⟨?_, ?_, ?_, ?_⟩⟩
    · rw [State.respond_status, statusWord_code]
      cases a.code <;> rfl
    · rw [State.respond_status, statusWord_zcap]
      exact hzcap
    · intro hcode
      cases hcloses with
      | quiet _ hport hquiet =>
        obtain ⟨uses, hports, hnone⟩ := hquiet
        rw [State.respond_status, statusWord_port, hport, State.respond_ports, hports, List.drop_left]
        exact ⟨rfl, hnone⟩
      | failed hio => exact absurd hio hcode
    · intro hcode
      cases hcloses with
      | quiet hne => exact absurd hcode hne
      | @failed earlier release failing port _ hport hports hearlier hfailing hrelease =>
        have hbits : (u.respond a).status.extractLsb' 8 2 = port.bits := by
          rw [State.respond_status, statusWord_port, hport]
          rfl
        obtain ⟨hprimitive, hembed, hretrieve⟩ := hrelease
        refine ⟨earlier, release, failing, port, hports, hearlier, hfailing, ?_, hprimitive, hembed, hretrieve⟩
        rw [hbits]
        cases port <;> rfl
  · obtain ⟨hresponses, _⟩ := (body_keeps_outcome i s).of_hang hbody
    exact .inl ⟨rfl, hresponses⟩

end Sys2Proof.Machine
end

