-- ==== Sys2Proof/Proofs/ImageMemory.lean ====
section
/-! SUPPORT. The attached image (spec/20_memory.md R50 to R54, R67): what a pixel write leaves alone, which commands
write the image, and that every step keeps it in canonical form and within its dimensions (log entry 1). -/

namespace Sys2Proof.Machine

section
variable {m : Memory} {x y : Nat} {p : Pixel}

/-! ### Where a pixel's bytes stand -/

/-- The three bytes of a pixel of the image stand below the image's end. -/
theorem pixelAddress_add_three_le {w h : Nat} (hx : x < w) (hy : y < h) : pixelAddress w x y + 3 ≤ 3 * (w * h) := by
  have hindex : y * w + x < w * h :=
    calc y * w + x < y * w + w := Nat.add_lt_add_left hx _
      _ = (y + 1) * w := (Nat.succ_mul y w).symm
      _ ≤ h * w := Nat.mul_le_mul_right w hy
      _ = w * h := Nat.mul_comm h w
  unfold pixelAddress
  omega

/-- Two pixels of an image never share a byte (20_memory.md R50). -/
theorem pixelAddress_apart {w x' y' : Nat} (hx : x < w) (hx' : x' < w) (hne : ¬(x' = x ∧ y' = y)) :
    pixelAddress w x' y' + 3 ≤ pixelAddress w x y ∨ pixelAddress w x y + 3 ≤ pixelAddress w x' y' := by
  have hindex : y' * w + x' ≠ y * w + x := by
    intro heq
    have hcolumn := congrArg (· % w) heq
    have hrow := congrArg (· / w) heq
    have hpos : 0 < w := Nat.zero_lt_of_lt hx
    simp only [Nat.mul_add_mod_self_right, Nat.mod_eq_of_lt hx, Nat.mod_eq_of_lt hx'] at hcolumn
    simp only [Nat.add_comm (_ * w), Nat.add_mul_div_right _ _ hpos, Nat.div_eq_of_lt hx, Nat.div_eq_of_lt hx',
      Nat.zero_add] at hrow
    exact hne ⟨hcolumn, hrow⟩
  unfold pixelAddress
  omega

/-! ### What a pixel write leaves alone -/

/-- Writing a pixel leaves every byte outside its three alone. -/
theorem Memory.read_writePixel_of_apart (hm : m.wf = true) {k b : Nat} (hapart : k < b ∨ b + 3 ≤ k) :
    (m.writePixel b p).read k = m.read k := by
  have hred : (m.write b (decodePixel p).red).wf = true := Memory.wf_write hm _ _
  have hgreen : ((m.write b (decodePixel p).red).write (b + 1) (decodePixel p).green).wf = true :=
    Memory.wf_write hred _ _
  unfold Memory.writePixel
  rw [Memory.read_write_other hgreen _ (by omega), Memory.read_write_other hred _ (by omega),
    Memory.read_write_other hm _ (by omega)]

/-- Writing a pixel leaves every pixel that shares no byte with it alone. -/
theorem Memory.readPixel_writePixel_of_apart (hm : m.wf = true) {k b : Nat} (hapart : k + 3 ≤ b ∨ b + 3 ≤ k) :
    (m.writePixel b p).readPixel k = m.readPixel k := by
  have hbyte (j : Nat) (hj : j < 3) : (m.writePixel b p).read (k + j) = m.read (k + j) :=
    Memory.read_writePixel_of_apart hm (by omega)
  simp only [Memory.readPixel, hbyte 1 (by omega), hbyte 2 (by omega),
    show (m.writePixel b p).read k = m.read k from hbyte 0 (by omega)]

end

/-- Settles O23: the pixel's own three bytes read as written, and no other pixel of the image shares one of them. -/
theorem pixelReadsAsLastWritten : Obligations.PixelReadsAsLastWritten := by
  unfold Obligations.PixelReadsAsLastWritten
  refine ⟨fun s x y x' y' p hwf hx hx' => ?_, fun s x y a p hwf hapart => Memory.read_writePixel_of_apart hwf hapart⟩
  split
  · rename_i hsame
    obtain ⟨rfl, rfl⟩ := hsame
    exact Memory.readPixel_writePixel_self hwf _ p
  · rename_i hother
    exact Memory.readPixel_writePixel_of_apart hwf (pixelAddress_apart hx hx' hother)

section
variable {s t : State} {m : Memory} {x y : Nat} {p : Pixel}

/-! ### The addresses a memory lists -/

/-- A pixel write lists no address but those listed before and the pixel's three. -/
theorem Memory.mem_writePixel {c : Host.Cell} {b : Nat} (hc : c ∈ m.writePixel b p) : c ∈ m ∨ c.1 < b + 3 := by
  rcases Memory.mem_write hc with hc | rfl
  · rcases Memory.mem_write hc with hc | rfl
    · rcases Memory.mem_write hc with hc | rfl
      · exact .inl hc
      · exact .inr (Nat.lt_add_of_pos_right (by decide))
    · exact .inr (Nat.add_lt_add_left (by decide) b)
  · exact .inr (Nat.add_lt_add_left (by decide) b)

/-- Laying pixels out lists no address past the last pixel's three. -/
theorem Memory.mem_layPixels {c : Host.Cell} {b : Nat} {pixels : List Pixel} (hc : c ∈ m.layPixels b pixels) :
    c ∈ m ∨ c.1 < b + 3 * pixels.length := by
  induction pixels generalizing m b with
  | nil => exact .inl hc
  | cons p rest ih =>
    rw [List.length_cons]
    rcases ih hc with hwritten | hlaid
    · rcases Memory.mem_writePixel hwritten with hold | hnew
      · exact .inl hold
      · exact .inr (by omega)
    · exact .inr (by omega)

/-! ### The writes of the image -/

/-- A pixel written inside the image keeps it legal. -/
theorem State.imageLegal_setPixel (hs : s.imageLegal) (hin : s.inImage x y = true) : (s.setPixel x y p).imageLegal := by
  obtain ⟨hwf, hextent⟩ := hs
  obtain ⟨hx, hy⟩ := State.inImage_iff.1 hin
  have hend := pixelAddress_add_three_le hx hy
  refine ⟨Memory.wf_writePixel hwf _ _, fun c hc => ?_⟩
  rcases Memory.mem_writePixel hc with hold | hnew
  · exact hextent c hold
  · exact Nat.lt_of_lt_of_le hnew hend

/-- An image as the host attaches it is legal (70_reset_and_hazards.md R243). -/
theorem State.imageLegal_attachImage {w h : Nat} {pixels : List Pixel} (hfits : imageFits w h pixels = true) :
    State.imageLegal { s with imgw := w, imgh := h, image := Memory.layPixels [] 0 pixels } := by
  simp only [imageFits, Bool.and_eq_true, decide_eq_true_eq] at hfits
  obtain ⟨_, hlength⟩ := hfits
  refine ⟨Memory.wf_layPixels rfl 0 pixels, fun c hc => ?_⟩
  rcases Memory.mem_layPixels hc with hnone | hlaid
  · cases hnone
  · rwa [Nat.zero_add, hlength] at hlaid

/-! ### The commands that write the image -/

/-- The two states attach the same image and have emitted the same events. -/
def SameImageAndTrace (s t : State) : Prop :=
  t.imgw = s.imgw ∧ t.imgh = s.imgh ∧ t.image = s.image ∧ t.trace = s.trace

theorem SameImageAndTrace.imageLegal (h : SameImageAndTrace s t) (hs : s.imageLegal) : t.imageLegal := by
  obtain ⟨hw, hh, himage, _⟩ := h
  rwa [State.imageLegal, himage, hw, hh]

/-- A use of a port that is no event leaves the trace as it was (20_memory.md R58). -/
theorem State.trace_of_silent {use : PortUse} (hports : t.ports = s.ports ++ [use]) (hsilent : use.event = none) :
    t.trace = s.trace := by
  simp [State.trace, hports, hsilent]

/-- An ImgGet is no event and writes nothing. -/
theorem SameImageAndTrace.of_afterGet {ans : PortAnswer} : SameImageAndTrace s (s.afterGet x y ans) :=
  ⟨rfl, rfl, rfl, State.trace_of_silent rfl rfl⟩

/-- An ImgSet that was not answered ok is no event and writes nothing (20_memory.md R53). -/
theorem SameImageAndTrace.of_afterRefusedSet {ans : PortAnswer} : SameImageAndTrace s (s.afterRefusedSet x y p ans) :=
  ⟨rfl, rfl, rfl, State.trace_of_silent rfl rfl⟩

theorem firstAdvance_sameImageAndTrace {reload : Bool} :
    (firstAdvance reload s).leaves (SameImageAndTrace s) (SameImageAndTrace s) := by
  have hread (ans : PortAnswer) : SameImageAndTrace s (s.afterGet 0 0 ans) := .of_afterGet
  refine Res.leaves_iff.2 ⟨fun a t h => ?_, fun t h => ?_⟩
  · rcases firstAdvance_cases h with ⟨_, _, rfl⟩ | ⟨_, _, _, rfl⟩ | ⟨_, _, _, rfl⟩
    · exact ⟨rfl, rfl, rfl, rfl⟩
    · exact hread .ok
    · exact hread .fail
  · obtain ⟨_, _, rfl⟩ := firstAdvance_hang h
    exact hread .never

theorem moveAndRead_sameImageAndTrace {reload : Bool} :
    (moveAndRead reload s).leaves (SameImageAndTrace s) (SameImageAndTrace s) := by
  have hread (ans : PortAnswer) :
      SameImageAndTrace s (s.afterGet (nextPosition s).1 (nextPosition s).2 ans) := .of_afterGet
  refine Res.leaves_iff.2 ⟨fun a t h => ?_, fun t h => ?_⟩
  · rcases moveAndRead_cases h with ⟨_, _, rfl⟩ | ⟨_, _, _, rfl⟩ | ⟨_, _, _, rfl⟩
    · exact ⟨rfl, rfl, rfl, rfl⟩
    · exact hread .ok
    · exact hread .fail
  · obtain ⟨_, _, rfl⟩ := moveAndRead_hang h
    exact hread .never

/-- WADV keeps what a commit inside the image keeps and what rests on the image and the trace alone. -/
theorem wadvStep_keeps_of_commit {P : State → Prop} (hsame : ∀ u v, SameImageAndTrace u v → P u → P v)
    (hcommit : ∀ u x y p, u.inImage x y = true → P u → P (u.afterCommit x y p)) : Keeps P P wadvStep := by
  refine keeps_iff.2 fun s hs => ⟨fun a t h => ?_, fun t h => ?_⟩
  · rcases wadvStep_cases h with ⟨_, _, rfl⟩ | ⟨_, _, hfirst⟩ | ⟨_, _, hin, _, hmove⟩ | ⟨_, _, _, _, _, rfl⟩
    · exact hs
    · exact hsame s t (firstAdvance_sameImageAndTrace.of_done hfirst) hs
    · exact hsame _ t (moveAndRead_sameImageAndTrace.of_done hmove) (hcommit s _ _ _ hin hs)
    · exact hsame s _ .of_afterRefusedSet hs
  · obtain ⟨_, ⟨_, hfirst⟩ | ⟨_, _, _, rfl⟩ | ⟨_, hin, _, hmove⟩⟩ := wadvStep_hang h
    · exact hsame s t (firstAdvance_sameImageAndTrace.of_hang hfirst) hs
    · exact hsame s _ .of_afterRefusedSet hs
    · exact hsame _ t (moveAndRead_sameImageAndTrace.of_hang hmove) (hcommit s _ _ _ hin hs)

theorem wadvStep_keeps_imageLegal : Keeps State.imageLegal State.imageLegal wadvStep :=
  wadvStep_keeps_of_commit (fun _ _ hsame hu => hsame.imageLegal hu)
    fun _ _ _ _ hin hu => State.imageLegal_setPixel hu hin

/-- WADV is the one primitive command whose frame holds the image (R53). -/
theorem body_keeps_imageLegal (i : Instr) : Keeps State.imageLegal State.imageLegal (bodyOf i) := by
  refine body_keeps_of_primitive (fun j hembed hretrieve => ?_) (fun _ hu => hu) (fun _ hu => hu)
    (fun u hu => (State.releaseSink_frame.keeps State.imageLegal fun _ => rfl).symm ▸ hu) i
  cases j with
  | wadv => exact wadvStep_keeps_imageLegal
  | embed => exact absurd rfl hembed
  | retrieve => exact absurd rfl hretrieve
  | _ => exact body_keeps _ fun _ => rfl

theorem exec_imageLegal {i : Instr} (hs : s.imageLegal) (h : exec i s = .next t) : t.imageLegal :=
  exec_leaves (body_keeps_imageLegal i s hs) (fun _ _ hu => hu) (fun _ _ hu => hu) (fun _ hu => hu) h

theorem HostMove.Leads.imageLegal {m : HostMove} (h : m.Leads s t) (hs : s.imageLegal) : t.imageLegal := by
  cases h with
  | command _ hexec => exact exec_imageLegal hs hexec
  | attachImage hfits => exact State.imageLegal_attachImage hfits
  | writePixel hin => exact State.imageLegal_setPixel hs hin
  | illegal | resetInput | attachSource | settleAnswers => exact hs

end

/-- Settles O58: a step keeps the state or takes a move; a move attaches a legal image, writes a pixel inside the one
attached, or leaves it alone, unless it is a command, and of the commands only WADV's commit writes it. -/
theorem imageStaysLegal : Obligations.ImageStaysLegal := by
  unfold Obligations.ImageStaysLegal
  intro s t hs h
  rcases step_cases h with rfl | ⟨m, rest, _, _, hleads⟩
  · exact hs
  · exact hleads.imageLegal hs

/-- Settles O53: the image is in the frame of WADV and of EMBED alone. -/
theorem onlyWadvAndEmbedWriteTheImage : Obligations.OnlyWadvAndEmbedWriteTheImage := by
  unfold Obligations.OnlyWadvAndEmbedWriteTheImage
  intro i s t h hwadv hembed
  refine exec_keeps h State.image fun u => ?_
  cases i with
  | wadv => exact absurd rfl hwadv
  | embed => exact absurd rfl hembed
  | _ => rfl

end Sys2Proof.Machine
end

