-- ==== Sys2Proof/Proofs/EmbedTrace.lean ====
section
/-! SUPPORT. The event trace of EMBED (spec/20_memory.md R58; 46_orchestrators.md R190): no step between its start and
its end is an event. -/

namespace Sys2Proof.Machine

section
variable {s t u : State} {a b : Answer} {z : Bool} {τ : List Event}

/-- The events so far are `τ`. -/
def State.hasTrace (τ : List Event) (s : State) : Prop := s.trace = τ

/-! ### The steps between start and end -/

theorem emitFrom_trace {text : List Byte} {next : Component} (h : emitFrom text next s = .done a t) :
    t.trace = s.trace := by
  rcases emitFrom_cases h with ⟨_, _, _, rfl⟩ | ⟨_, _, rfl⟩ <;> rfl

/-- A SrcRead is no event, however it is answered. -/
theorem State.trace_afterRead (ans : PortAnswer) : (s.afterRead ans).trace = s.trace :=
  State.trace_of_silent rfl rfl

theorem fnextStep_keeps_trace : Keeps (State.hasTrace τ) (State.hasTrace τ) fnextStep := by
  refine keeps_iff.2 fun s hs => ⟨fun a t h => ?_, fun t h => ?_⟩
  · rcases fnextStep_cases h with ⟨_, _, rfl⟩ | ⟨_, _, hemit⟩ | ⟨_, _, hemit⟩ | ⟨_, _, _, _, rfl⟩ |
      ⟨_, _, _, _, _, rfl⟩ | ⟨_, _, _, _, _, _, rfl⟩
    · exact hs
    · exact (emitFrom_trace hemit).trans hs
    · exact (emitFrom_trace hemit).trans hs
    · exact (s.trace_afterRead .fail).trans hs
    · exact (s.trace_afterRead .ok).trans hs
    · exact (s.trace_afterRead .ok).trans hs
  · obtain ⟨_, _, _, rfl⟩ := fnextStep_hang h
    exact (s.trace_afterRead .never).trans hs

/-- A commit is no event. -/
theorem wadvStep_keeps_trace : Keeps (State.hasTrace τ) (State.hasTrace τ) wadvStep :=
  wadvStep_keeps_of_commit (fun _ _ ⟨_, _, _, htrace⟩ hu => htrace.trans hu)
    fun u _ _ _ _ hu => (State.trace_of_silent (s := u) rfl rfl).trans hu

theorem embedLoop_keeps_trace (k : Nat) : Keeps (State.hasTrace τ) (State.hasTrace τ) (embedLoop k) :=
  embedLoop_keeps fnextStep_keeps_trace (body_keeps .expb fun _ => rfl) wadvStep_keeps_trace
    (body_keeps .pemb fun _ => rfl) k

/-! ### The start and the end -/

theorem State.trace_releaseSink : s.releaseSink.trace = s.traceReleased := by
  rw [State.trace, State.releaseSink_ports, List.filterMap_append, State.traceReleased, State.trace]
  cases s.sinkopen <;> rfl

/-- The start of both operations emits the SinkClose of a sink left open and nothing else (44_payload_framer.md
R150). -/
theorem freshOperation_trace (h : freshOperation s = .done a t) : t.trace = s.traceReleased := by
  obtain ⟨_, u, hcinit, hfinit⟩ := Res.bind_eq_done.1 h
  obtain ⟨_, rfl⟩ := Res.done.inj hcinit
  obtain ⟨_, rfl⟩ := Res.done.inj hfinit
  exact State.trace_releaseSink

theorem State.trace_srcClose : s.srcClose.trace = s.trace ++ [.srcClose] := s.trace_logUse .srcClose

theorem embedFailed_trace (h : embedFailed z b u = .done a t) : t.trace = u.trace ++ [.srcClose] := by
  unfold embedFailed at h
  split at h <;> obtain ⟨_, rfl⟩ := Res.done.inj h <;> exact State.trace_srcClose

theorem embedFlush_trace (h : embedFlush z u = .done a t) : t.trace = u.trace ++ [.srcClose] := by
  obtain ⟨b, v, hwadv, h⟩ := Res.bind_eq_done.1 h
  have hv : v.trace = u.trace := (wadvStep_keeps_trace u rfl).of_done hwadv
  rw [← hv]
  split at h
  · exact embedFailed_trace h
  · obtain ⟨_, rfl⟩ := Res.done.inj h
    exact State.trace_srcClose

theorem embedStep_trace (h : embedStep s = .done a t) : t.trace = s.traceReleased ++ [.srcClose] := by
  obtain ⟨_, u, hstart, h⟩ := Res.bind_eq_done.1 h
  have hu := freshOperation_trace hstart
  have hsized : (loadEmbedSizes u).trace = s.traceReleased := hu
  dsimp only at h
  split at h
  · obtain ⟨_, rfl⟩ := Res.done.inj h
    rw [State.trace_srcClose, hsized]
  · obtain ⟨e, v, hloop, h⟩ := Res.bind_eq_done.1 h
    have hv : v.trace = s.traceReleased := (embedLoop_keeps_trace _ _ hsized).of_done hloop
    rw [← hv]
    cases e with
    | some b => exact embedFailed_trace h
    | none => exact embedFlush_trace h

end

/-- Settles O47: an EMBED that ends has answered, and every answer of its body comes with the SrcClose; a body that
hangs leaves the block hung. -/
theorem embedClosesTheSourceOnce : Obligations.EmbedClosesTheSourceOnce := by
  unfold Obligations.EmbedClosesTheSourceOnce
  intro s t h hended
  rcases finish_eq_next.1 h with ⟨a, u, hbody, rfl⟩ | ⟨u, _, rfl⟩
  · rw [State.trace_respond]
    exact embedStep_trace hbody
  · cases hended

end Sys2Proof.Machine
end

