-- ==== Sys2Proof/Proofs/SlotsAndQueues.lean ====
section
/-! SUPPORT. The scanning order of the slots (spec/20_memory.md R60), and the inverse laws of the bit queues (R61, R62)
and of the channel codec (40_channel_codec.md R90 to R92). -/

namespace Sys2Proof.Machine

/-! ### Slots -/

/-- A product of lists runs through the second list once for each element of the first. -/
theorem getElem?_product {α β : Type} (l₁ : List α) (l₂ : List β) {k : Nat} (hk : k < l₁.length * l₂.length) :
    ∃ a b, l₁[k / l₂.length]? = some a ∧ l₂[k % l₂.length]? = some b ∧ (l₁ ×ˢ l₂)[k]? = some (a, b) := by
  induction l₁ generalizing k with
  | nil => simp at hk
  | cons a rest ih =>
    rw [List.product_cons]
    by_cases hfirst : k < l₂.length
    · refine ⟨a, l₂[k], ?_, ?_, ?_⟩
      · rw [Nat.div_eq_of_lt hfirst, List.getElem?_cons_zero]
      · rw [Nat.mod_eq_of_lt hfirst, List.getElem?_eq_getElem hfirst]
      · rw [List.getElem?_append_left (by simpa using hfirst), List.getElem?_map, List.getElem?_eq_getElem hfirst,
          Option.map_some]
    · obtain ⟨j, rfl⟩ := Nat.exists_eq_add_of_le (Nat.not_lt.1 hfirst)
      rw [List.length_cons, Nat.succ_mul, Nat.add_comm] at hk
      have hj := Nat.lt_of_add_lt_add_right hk
      have hpos : 0 < l₂.length := Nat.pos_of_lt_mul_left hj
      rw [Nat.add_div_left j hpos, Nat.add_mod_left, List.getElem?_cons_succ,
        List.getElem?_append_right (by simp), List.length_map, Nat.add_sub_cancel_left]
      exact ih hj

/-- A mask enables as many indices as it has 1 bits (00_scope.md R8). -/
theorem enabledIndices_length (mask : Byte) : (enabledIndices mask).length = popcount mask :=
  List.countP_eq_length_filter.symm

/-- The slots are the channels, each with the enabled indices in turn. -/
theorem slots_eq_product (mask : Byte) : slots mask = [Channel.red, .green, .blue] ×ˢ enabledIndices mask := rfl

/-- Settles O14: the slots are a product of two lists, which `getElem?_product` reads. -/
theorem slotScanOrder : Obligations.SlotScanOrder := by
  unfold Obligations.SlotScanOrder
  intro mask
  rw [slots_eq_product, ← enabledIndices_length]
  exact ⟨List.length_product _ _, fun k hk => getElem?_product _ _ hk⟩

/-! ### Queues -/

/-- The bits of the number a queue stands for are the queue, its last bit lowest (00_scope.md R10). -/
theorem num_testBit (q : List Bool) (i : Nat) : (num q).testBit i = q.reverse.getD i false := by
  induction q using List.reverseRecOn generalizing i with
  | nil => simp [num]
  | append_singleton q b ih =>
    have hnum : num (q ++ [b]) = Nat.bit b (num q) := by
      rw [num, List.foldl_append, Nat.bit_val]
      rfl
    rw [hnum, List.reverse_append, List.reverse_singleton, List.singleton_append]
    cases i with
    | zero => rw [Nat.testBit_bit_zero, List.getD_cons_zero]
    | succ i => rw [Nat.testBit_bit_succ, List.getD_cons_succ, ih]

/-- Bit 7 of the packed byte is the head of the queue (20_memory.md R62). -/
theorem pack_getLsbD {q : List Bool} (hq : q.length = 8) {i : Nat} (hi : i < 8) :
    (pack q).getLsbD i = q[7 - i] := by
  have hplace : q.length - 1 - i = 7 - i := by omega
  rw [pack, BitVec.getLsbD_ofNat, decide_eq_true hi, Bool.true_and, num_testBit,
    List.getD_eq_getElem _ _ (by simpa [hq]), List.getElem_reverse]
  simp only [hplace]

/-- The scanning order counts down from 7 (20_memory.md R60). -/
theorem indicesDown_getElem {k : Nat} (hk : k < indicesDown.length) : indicesDown[k] = 7 - k := by
  have hdown : indicesDown = (List.range 8).reverse := rfl
  simp only [hdown, List.getElem_reverse, List.getElem_range, List.length_range]

/-- The head of the queue is bit 7 of the expanded byte (20_memory.md R61). -/
theorem expand_getElem (b : Byte) {k : Nat} (hk : k < (expand b).length) : (expand b)[k] = b.getLsbD (7 - k) := by
  simp only [expand, List.getElem_map, indicesDown_getElem]

theorem expand_pack {q : List Bool} (hq : q.length = 8) : expand (pack q) = q := by
  refine List.ext_getElem (by rw [expand_length, hq]) fun k hexpand hk => ?_
  have hplace : 7 - (7 - k) = k := by omega
  rw [expand_getElem _ hexpand, pack_getLsbD hq (by omega)]
  simp only [hplace]

theorem pack_expand (b : Byte) : pack (expand b) = b := by
  refine BitVec.eq_of_getLsbD_eq fun i hi => ?_
  have hplace : 7 - (7 - i) = i := by omega
  rw [pack_getLsbD (expand_length b) hi, expand_getElem, hplace]

/-! ### Channel codec -/

/-- Unpacking the three channels gives the channels back (40_channel_codec.md R92). -/
theorem decodePixel_encodePixel (c : Channels) : decodePixel (encodePixel c) = c := by
  obtain ⟨red, green, blue⟩ := c
  rw [decodePixel, encodePixel, Channels.mk.injEq]
  refine ⟨BitVec.extractLsb'_append_eq_left, ?_, ?_⟩
  · rw [BitVec.extractLsb'_append_eq_of_add_le (by decide)]
    exact BitVec.extractLsb'_append_eq_left
  · rw [BitVec.extractLsb'_append_eq_of_add_le (by decide), BitVec.extractLsb'_append_eq_of_add_le (by decide)]
    exact BitVec.extractLsb'_eq_self

/-- Settles O22: each pair inverts the other bit by bit. -/
theorem packAndCodecAreInverses : Obligations.PackAndCodecAreInverses := by
  unfold Obligations.PackAndCodecAreInverses
  exact ⟨pack_expand, fun _ => expand_pack, encodePixel_decodePixel, decodePixel_encodePixel⟩

end Sys2Proof.Machine
end

