-- ==== Sys2Proof/Proofs/Encoding.lean ====
section
/-! SUPPORT. Command words (spec/30_encoding.md R70 to R75): a word is its opcode field before its argument field,
decoding and encoding invert each other, and the words that decode are those that match a row of the opcode table. -/

namespace Sys2Proof

section
variable {w : Word} {i : Instr} {n : Nat} {op : Byte}

/-! ### Fields of a word -/

@[simp] theorem opcodeField_append (op : Byte) (arg : Pixel) : opcodeField (op ++ arg) = op :=
  BitVec.extractLsb'_append_eq_left

@[simp] theorem imm24Field_append (op : Byte) (arg : Pixel) : imm24Field (op ++ arg) = arg := by
  unfold imm24Field
  exact BitVec.extractLsb'_append_eq_right

theorem opcodeField_append_imm24Field (w : Word) : opcodeField w ++ imm24Field w = w :=
  BitVec.extractLsb'_append_extractLsb'

/-- The argument field is the bits format B wants 0, before its operand (R71). -/
theorem imm24Field_eq_append (w : Word) : imm24Field w = w.extractLsb' 8 16 ++ imm8Field w :=
  (BitVec.extractLsb'_append_extractLsb'_eq_extractLsb' (start₁ := 0) (len₁ := 8) (len₂ := 16) rfl).symm

theorem opcodeField_and (w v : Word) : opcodeField (w &&& v) = opcodeField w &&& opcodeField v :=
  BitVec.extractLsb'_and

theorem opcodeField_eq_ofNat (h : (opcodeField w).toNat = n) : opcodeField w = BitVec.ofNat 8 n := by
  rw [← h, BitVec.ofNat_toNat, BitVec.setWidth_eq]

/-! ### The formats of R71: a word of the format is the word of its opcode and operand -/

theorem encodeP_imm24Field (hop : opcodeField w = op) : encodeP op (imm24Field w) = w := by
  rw [encodeP, ← hop, opcodeField_append_imm24Field]

theorem encodeZ_of_imm24Field (hop : opcodeField w = op) (hzero : imm24Field w = 0#24) : encodeZ op = w := by
  rw [encodeZ, ← hop, ← hzero, opcodeField_append_imm24Field]

theorem encodeB_imm8Field (hop : opcodeField w = op) (hzero : w.extractLsb' 8 16 = 0#16) :
    encodeB op (imm8Field w) = w := by
  rw [encodeB, ← hzero, ← imm24Field_eq_append, ← hop, opcodeField_append_imm24Field]

theorem decodeP_encodeP (f : Pixel → Instr) (imm24 : Pixel) : decodeP (encodeP op imm24) f = .ok (f imm24) := by
  rw [decodeP, encodeP, imm24Field_append]

theorem decodeB_encodeB (f : Byte → Instr) (imm8 : Byte) : decodeB (encodeB op imm8) f = .ok (f imm8) := by
  have hzero : (encodeB op imm8).extractLsb' 8 16 = 0#16 := by
    rw [encodeB, BitVec.extractLsb'_append_eq_of_add_le (by decide)]
    exact BitVec.extractLsb'_append_eq_left
  have himm : imm8Field (encodeB op imm8) = imm8 := by
    rw [imm8Field, encodeB, BitVec.extractLsb'_append_eq_of_add_le (by decide)]
    exact BitVec.extractLsb'_append_eq_right
  rw [decodeB, if_pos hzero, himm]

/-! ### Decoding and encoding -/

@[simp] theorem decode_encode (i : Instr) : decode (encode i) = .ok i := by
  cases i with
  | setmask imm8 | rdreg imm8 | ldbyte imm8 | ldrem imm8 =>
    rw [encode, decode, encodeB, opcodeField_append]
    exact decodeB_encodeB _ imm8
  | ldpx imm24 | ldch imm24 =>
    rw [encode, decode, encodeP, opcodeField_append]
    exact decodeP_encodeP _ imm24
  | _ => rfl

theorem encode_of_decodeZ {j : Instr} (hop : (opcodeField w).toNat = n) (hj : encode j = encodeZ (BitVec.ofNat 8 n))
    (h : decodeZ w j = .ok i) : encode i = w := by
  unfold decodeZ at h
  split at h
  next hzero =>
    cases h
    rw [hj]
    exact encodeZ_of_imm24Field (opcodeField_eq_ofNat hop) hzero
  next => cases h

theorem encode_of_decodeB {f : Byte → Instr} (hop : (opcodeField w).toNat = n)
    (hf : ∀ imm8, encode (f imm8) = encodeB (BitVec.ofNat 8 n) imm8) (h : decodeB w f = .ok i) : encode i = w := by
  unfold decodeB at h
  split at h
  next hzero =>
    cases h
    rw [hf]
    exact encodeB_imm8Field (opcodeField_eq_ofNat hop) hzero
  next => cases h

theorem encode_of_decodeP {f : Pixel → Instr} (hop : (opcodeField w).toNat = n)
    (hf : ∀ imm24, encode (f imm24) = encodeP (BitVec.ofNat 8 n) imm24) (h : decodeP w f = .ok i) :
    encode i = w := by
  cases h
  rw [hf]
  exact encodeP_imm24Field (opcodeField_eq_ofNat hop)

/-- The arms of `decode` stand in the order of the opcode table: the first lines below take formats B and P and the
unknown opcode, the last takes format Z. -/
theorem encode_of_decode (h : decode w = .ok i) : encode i = w := by
  unfold decode at h
  split at h
  case h_1 hop | h_2 hop | h_8 hop | h_10 hop => exact encode_of_decodeB hop (fun _ => rfl) h
  case h_4 hop | h_5 hop => exact encode_of_decodeP hop (fun _ => rfl) h
  case h_23 => cases h
  all_goals
    next hop => exact encode_of_decodeZ hop rfl h

/-! ### The rows of the opcode table (R71, R74) -/

theorem matchesRow_iff (w m mask : Word) : matchesRow w (m, mask) = true ↔ w &&& mask = m := decide_eq_true_iff

/-- Where a mask covers the opcode field, a word that agrees with `m` under it has the opcode of `m`. -/
theorem opcodeField_of_and {m mask : Word} (hmask : opcodeField mask = BitVec.allOnes 8) (h : w &&& mask = m) :
    opcodeField w = opcodeField m := by
  rw [← h, opcodeField_and, hmask, BitVec.and_allOnes]

theorem exists_encode_of_matchesZ (i : Instr) (h : matchesRow w (encode i, 0xFFFFFFFF#32) = true) :
    ∃ j, encode j = w := by
  have hmask : 0xFFFFFFFF#32 = BitVec.allOnes 32 := by decide
  rw [matchesRow_iff, hmask, BitVec.and_allOnes] at h
  exact ⟨i, h.symm⟩

theorem exists_encode_of_matchesB (op : Byte) (f : Byte → Instr)
    (hf : ∀ imm8, encode (f imm8) = encodeB op imm8) (h : matchesRow w (encodeZ op, 0xFFFFFF00#32) = true) :
    ∃ i, encode i = w := by
  rw [matchesRow_iff] at h
  have hop := opcodeField_of_and (by decide) h
  have hzero : w.extractLsb' 8 16 = 0#16 := by
    have hmask : (0xFFFFFF00#32).extractLsb' 8 16 = BitVec.allOnes 16 := by decide
    have hrow : (encodeZ op).extractLsb' 8 16 = 0#16 := by
      rw [encodeZ, BitVec.extractLsb'_append_eq_of_add_le (by decide), BitVec.extractLsb'_zero]
    rw [← hrow, ← h, BitVec.extractLsb'_and, hmask, BitVec.and_allOnes]
  exact ⟨f (imm8Field w), (hf _).trans (encodeB_imm8Field (hop.trans (opcodeField_append ..)) hzero)⟩

theorem exists_encode_of_matchesP (op : Byte) (f : Pixel → Instr)
    (hf : ∀ imm24, encode (f imm24) = encodeP op imm24) (h : matchesRow w (encodeZ op, 0xFF000000#32) = true) :
    ∃ i, encode i = w := by
  rw [matchesRow_iff] at h
  have hop := opcodeField_of_and (by decide) h
  exact ⟨f (imm24Field w), (hf _).trans (encodeP_imm24Field (hop.trans (opcodeField_append ..)))⟩

theorem exists_encode_of_matchesRow : ∀ row ∈ opcodeRows, matchesRow w row = true → ∃ i, encode i = w := by
  simp only [opcodeRows, List.forall_mem_cons]
  exact ⟨exists_encode_of_matchesB 0x01#8 .setmask fun _ => rfl,
    exists_encode_of_matchesB 0x02#8 .rdreg fun _ => rfl, exists_encode_of_matchesZ .srst,
    exists_encode_of_matchesP 0x10#8 .ldpx fun _ => rfl, exists_encode_of_matchesP 0x11#8 .ldch fun _ => rfl,
    exists_encode_of_matchesZ .cdec, exists_encode_of_matchesZ .cenc,
    exists_encode_of_matchesB 0x20#8 .ldbyte fun _ => rfl, exists_encode_of_matchesZ .expb,
    exists_encode_of_matchesB 0x22#8 .ldrem fun _ => rfl, exists_encode_of_matchesZ .pemb,
    exists_encode_of_matchesZ .pext, exists_encode_of_matchesZ .packb, exists_encode_of_matchesZ .cinit,
    exists_encode_of_matchesZ .wadv, exists_encode_of_matchesZ .radv, exists_encode_of_matchesZ .finit,
    exists_encode_of_matchesZ .fnext, exists_encode_of_matchesZ .fput, exists_encode_of_matchesZ .cap,
    exists_encode_of_matchesZ .embed, exists_encode_of_matchesZ .retrieve, List.forall_mem_nil _⟩

/-- Every row's mask covers the opcode field, so a word has the opcode of the row it matches. -/
theorem opcodeField_of_matchesRow {row : Word × Word} (hrow : row ∈ opcodeRows) (h : matchesRow w row = true) :
    opcodeField row.1 = opcodeField w := by
  have hmasks : opcodeRows.all (fun row => opcodeField row.2 == BitVec.allOnes 8) = true := by decide
  have hmask := eq_of_beq (List.all_eq_true.1 hmasks row hrow)
  exact (opcodeField_of_and hmask ((matchesRow_iff ..).1 h)).symm

/-- A word never matches two rows: their opcodes are pairwise distinct. -/
theorem length_filter_matchesRow_le_one (w : Word) : (opcodeRows.filter (matchesRow w)).length ≤ 1 := by
  have hdistinct : (opcodeRows.map fun row => opcodeField row.1).Nodup := by decide
  calc (opcodeRows.filter (matchesRow w)).length
    _ = opcodeRows.countP (matchesRow w) := List.countP_eq_length_filter.symm
    _ ≤ opcodeRows.countP ((· == opcodeField w) ∘ fun row => opcodeField row.1) :=
      List.countP_mono_left fun _ hrow h => beq_iff_eq.2 (opcodeField_of_matchesRow hrow h)
    _ = (opcodeRows.map fun row => opcodeField row.1).count (opcodeField w) := List.countP_map.symm
    _ ≤ 1 := List.nodup_iff_count_le_one.1 hdistinct _

open Laws.EncodeMatchesRow in
theorem matchesRow_encode : ∀ i : Instr, Statement i
  | .setmask imm8 => setmask imm8
  | .rdreg imm8 => rdreg imm8
  | .srst => srst
  | .ldpx imm24 => ldpx imm24
  | .ldch imm24 => ldch imm24
  | .cdec => cdec
  | .cenc => cenc
  | .ldbyte imm8 => ldbyte imm8
  | .expb => expb
  | .ldrem imm8 => ldrem imm8
  | .pemb => pemb
  | .pext => pext
  | .packb => packb
  | .cinit => cinit
  | .wadv => wadv
  | .radv => radv
  | .finit => finit
  | .fnext => fnext
  | .fput => fput
  | .cap => cap
  | .embed => embed
  | .retrieve => retrieve

/-- The words that decode are those that match a row of the table (R75). -/
theorem exists_decode_iff : (∃ i, decode w = .ok i) ↔ ∃ row ∈ opcodeRows, matchesRow w row = true := by
  constructor
  · rintro ⟨i, h⟩
    obtain ⟨row, hrow, hmatch⟩ := matchesRow_encode i
    exact ⟨row, List.mem_of_getElem? hrow, encode_of_decode h ▸ hmatch⟩
  · rintro ⟨row, hrow, hmatch⟩
    obtain ⟨i, rfl⟩ := exists_encode_of_matchesRow row hrow hmatch
    exact ⟨i, decode_encode i⟩

end

/-- Settles O1: each format's fields read back what was written, and a word is made of its fields. -/
theorem decodeInvertsEncode : Obligations.DecodeInvertsEncode := by
  unfold Obligations.DecodeInvertsEncode
  exact ⟨decode_encode, fun _ _ => encode_of_decode⟩

/-- Settles O2: a word that decodes matches a row and never two; a word that is rejected matches none. -/
theorem decodeAcceptsExactlyTheRows : Obligations.DecodeAcceptsExactlyTheRows := by
  unfold Obligations.DecodeAcceptsExactlyTheRows
  intro w
  cases h : decode w with
  | ok i =>
    obtain ⟨row, hrow, hmatch⟩ := exists_decode_iff.1 ⟨i, h⟩
    have hsome := List.length_pos_of_mem (List.mem_filter.2 ⟨hrow, hmatch⟩)
    exact .inl ⟨⟨i, rfl⟩, Nat.le_antisymm (length_filter_matchesRow_le_one w) hsome⟩
  | error r =>
    refine .inr ⟨⟨r, rfl⟩, List.filter_eq_nil_iff.2 fun row hrow hmatch => ?_⟩
    obtain ⟨i, hi⟩ := exists_decode_iff.2 ⟨row, hrow, hmatch⟩
    cases h.symm.trans hi

/-- Settles O3: each legal word is its command's encoding; the other words' opcodes and must-be-zero bits are read. -/
theorem sampleWordsDecode : Obligations.SampleWordsDecode := by
  unfold Obligations.SampleWordsDecode
  exact ⟨decode_encode (.setmask 0x81#8), decode_encode (.rdreg 11#8), decode_encode (.ldpx 0x112233#24),
    decode_encode (.ldbyte 0x5A#8), decode_encode .pemb, decode_encode .packb, decode_encode .wadv,
    decode_encode .fput, decode_encode .cap, decode_encode .retrieve, rfl, rfl, rfl, rfl⟩

end Sys2Proof
end

/-! SUPPORT. The channel codec commands (spec/40_channel_codec.md R93 to R96) and LDBYTE (spec/41_bit_embedder.md
R102): each loads one register and answers OK with the value loaded. -/

namespace Sys2Proof.Machine

variable {s t : State} {i : Instr} {v : Nat}

/-- A command whose body answers OK leaves what its body left, STATUS 0 and one response. -/
theorem exec_of_okWith (hread : ∀ imm8, i ≠ .rdreg imm8) (h : bodyOf i s = .done (okWith v) t) :
    exec i s = .next { t with status := 0#11, responses := t.responses ++ [⟨.ok, v⟩] } := by
  rw [exec_eq_finish hread, h, finish_done, State.respond_okWith]

/-- The channels CDEC unpacks, in the packing of CHR (10_state.md R28), are the pixel's own bits. -/
theorem cdecStep_eq (s : State) : cdecStep s = .done (okWith s.pxr.toNat) { s with chr := s.pxr } := by
  have hchr : (decodePixel s.pxr).red ++ ((decodePixel s.pxr).green ++ (decodePixel s.pxr).blue) = s.pxr :=
    encodePixel_decodePixel s.pxr
  simp only [cdecStep, hchr]

/-- The vectors of CHR lie where a pixel has its channels (10_state.md R28; 20_memory.md R51). -/
theorem chrVectors_eq_decodePixel (v : Pixel) : chrVectors v = decodePixel v := rfl

theorem cencStep_eq (s : State) : cencStep s = .done (okWith s.chr.toNat) { s with pxr := s.chr } := by
  simp only [cencStep, chrVectors_eq_decodePixel, encodePixel_decodePixel]

/-- Settles O12: each body loads its operand, and each word is its command's encoding. -/
theorem loadsReplaceOneRegister : Obligations.LoadsReplaceOneRegister := by
  unfold Obligations.LoadsReplaceOneRegister
  refine ⟨fun imm24 s => ⟨decode_encode (.ldpx imm24), ?ldpx⟩, fun imm24 s => ⟨decode_encode (.ldch imm24), ?ldch⟩,
    fun imm8 s => ⟨decode_encode (.ldbyte imm8), ?ldbyte⟩⟩
  case ldpx => exact exec_of_okWith nofun (t := { s with pxr := imm24 }) rfl
  case ldch => exact exec_of_okWith nofun (t := { s with chr := imm24 }) rfl
  case ldbyte => exact exec_of_okWith nofun (t := { s with byter := imm8 }) rfl

/-- Settles O13: packing the channels just unpacked gives the 24 bits back, so either command copies a register. -/
theorem codecCommandsCopy : Obligations.CodecCommandsCopy := by
  unfold Obligations.CodecCommandsCopy
  exact ⟨fun s => ⟨decode_encode .cdec, exec_of_okWith (i := .cdec) nofun (cdecStep_eq s)⟩,
    fun s => ⟨decode_encode .cenc, exec_of_okWith (i := .cenc) nofun (cencStep_eq s)⟩⟩

end Sys2Proof.Machine

/-! SUPPORT. The bit embedder (spec/41_bit_embedder.md R101 to R110): what one filled slot and a run of filled slots
leave in every slot of a pixel, from which the law of PEMB and the laws of embedding and extraction follow slot by
slot. -/

namespace Sys2Proof.Machine

section
variable {s t : State} {i : Instr} {p p' : Pixel} {mask imm8 : Byte} {c : Channels} {sl : Slot} {l : List Slot}
  {q q₁ q₂ : List Bool} {b : Bool} {j k n r v : Nat}

/-! ### EXPB and LDREM -/

/-- ILLEGAL_OPERAND in STATUS (10_state.md R40; 60_exceptions.md R210). -/
theorem State.respond_illegalOperand (v : Nat) : s.respond { code := .illegalOperand, value := v } =
    { s with status := 0x021#11, responses := s.responses ++ [⟨.illegalOperand, v⟩] } := by
  have hstatus : statusWord .illegalOperand none false = 0x021#11 := by decide
  rw [← hstatus]
  rfl

/-- A command whose body refuses its operand leaves what its body left, the refusal in STATUS and one response. -/
theorem exec_of_illegalOperand (hread : ∀ imm8, i ≠ .rdreg imm8)
    (h : bodyOf i s = .done { code := .illegalOperand, value := v } t) :
    exec i s = .next { t with status := 0x021#11, responses := t.responses ++ [⟨.illegalOperand, v⟩] } := by
  rw [exec_eq_finish hread, h, finish_done, State.respond_illegalOperand]

theorem ldremStep_of_le (h : imm8.toNat ≤ 24) :
    ldremStep imm8 s = .done (okWith imm8.toNat) { s with brem := imm8.toNat } :=
  if_neg (Nat.not_lt.2 h)

theorem ldremStep_of_gt (h : 24 < imm8.toNat) :
    ldremStep imm8 s = .done { code := .illegalOperand, value := imm8.toNat } s :=
  if_pos h

/-- Settles O15: the eight bits are `expand` written out. -/
theorem expbMakesAFreshQueue : Obligations.ExpbMakesAFreshQueue := by
  unfold Obligations.ExpbMakesAFreshQueue
  exact fun s => ⟨decode_encode .expb, exec_of_okWith (i := .expb) nofun (t := { s with bq := expand s.byter }) rfl⟩

/-- Settles O16: each side of the bound is one branch of the body. -/
theorem ldremLoadsTheBudget : Obligations.LdremLoadsTheBudget := by
  unfold Obligations.LdremLoadsTheBudget
  exact fun imm8 s => ⟨decode_encode (.ldrem imm8),
    fun hle => exec_of_okWith (i := .ldrem imm8) nofun (ldremStep_of_le hle),
    fun hgt => exec_of_illegalOperand (i := .ldrem imm8) nofun (ldremStep_of_gt hgt)⟩

/-! ### One bit of a channel -/

theorem setBitTo_getLsbD_same (v : Byte) (b : Bool) {i : Nat} (hi : i < 8) : (setBitTo v i b).getLsbD i = b := by
  cases b <;> simp [setBitTo, hi]

theorem setBitTo_getLsbD_ne (v : Byte) (b : Bool) {i j : Nat} (hij : i ≠ j) :
    (setBitTo v i b).getLsbD j = v.getLsbD j := by
  have hpower : (BitVec.twoPow 8 i).getLsbD j = false := by
    rw [BitVec.getLsbD_twoPow, decide_eq_false hij, Bool.and_false]
  cases b with
  | true => rw [setBitTo, if_pos rfl, BitVec.getLsbD_or, hpower, Bool.or_false]
  | false =>
    rw [setBitTo, if_neg Bool.false_ne_true, BitVec.getLsbD_and, BitVec.getLsbD_not, hpower, Bool.not_false,
      Bool.and_true]
    exact Bool.and_eq_left_iff_imp.2 fun hj => decide_eq_true (BitVec.lt_of_getLsbD hj)

theorem Channels.get_put (c : Channels) (ch ch' : Channel) (v : Byte) :
    (c.put ch v).get ch' = if ch = ch' then v else c.get ch' := by
  cases ch <;> cases ch' <;> rfl

/-- The bit of the channels that a slot names; `slotBit` reads it from a pixel. -/
def Channels.bit (c : Channels) (sl : Slot) : Bool := (c.get sl.1).getLsbD sl.2

theorem slotBit_eq_bit (p : Pixel) (sl : Slot) : slotBit p sl = (decodePixel p).bit sl := rfl

@[simp] theorem slotBit_encodePixel (c : Channels) (sl : Slot) : slotBit (encodePixel c) sl = c.bit sl := by
  rw [slotBit_eq_bit, decodePixel_encodePixel]

/-- A pixel is its bits. -/
theorem pixel_eq_of_slotBit (h : ∀ sl, slotBit p sl = slotBit p' sl) : p = p' := by
  have hchannel (ch : Channel) : (decodePixel p).get ch = (decodePixel p').get ch :=
    BitVec.eq_of_getLsbD_eq fun i _ => h (ch, i)
  have hdecoded : decodePixel p = decodePixel p' := by
    rw [decodePixel, decodePixel, Channels.mk.injEq]
    exact ⟨hchannel .red, hchannel .green, hchannel .blue⟩
  rw [← encodePixel_decodePixel p, hdecoded, encodePixel_decodePixel]

theorem fillSlot_bit_same (c : Channels) (b : Bool) (hsl : sl.2 < 8) : (fillSlot c (sl, b)).bit sl = !b := by
  rw [fillSlot, Channels.bit, Channels.get_put, if_pos rfl, setBitTo_getLsbD_same _ _ hsl]

theorem fillSlot_bit_ne (c : Channels) (b : Bool) {target : Slot} (h : target ≠ sl) :
    (fillSlot c (target, b)).bit sl = c.bit sl := by
  obtain ⟨ch, i⟩ := target
  obtain ⟨ch', j⟩ := sl
  by_cases hch : ch = ch'
  · subst hch
    have hij : i ≠ j := fun hij => h (hij ▸ rfl)
    rw [fillSlot, Channels.bit, Channels.get_put, if_pos rfl, setBitTo_getLsbD_ne _ _ hij]
    rfl
  · rw [fillSlot, Channels.bit, Channels.get_put, if_neg hch]
    rfl

/-! ### The slots of a mask -/

theorem slots_length (mask : Byte) : (slots mask).length = slotCount mask := by
  rw [slots_eq_product, List.length_product, enabledIndices_length]
  rfl

theorem slots_nodup (mask : Byte) : (slots mask).Nodup := by
  have hchannels : [Channel.red, .green, .blue].Nodup := by decide
  have hindices : indicesDown.Nodup := by decide
  exact hchannels.product (hindices.filter _)

/-- The slots are the bits at the indices the mask enables. -/
theorem mem_slots : sl ∈ slots mask ↔ mask.getLsbD sl.2 = true := by
  obtain ⟨ch, i⟩ := sl
  have hchannel : ch ∈ [Channel.red, .green, .blue] := by cases ch <;> decide
  have hindex (hi : mask.getLsbD i = true) : i ∈ indicesDown := by
    have hlt := BitVec.lt_of_getLsbD hi
    simp only [indicesDown, List.mem_cons, List.not_mem_nil, or_false]
    omega
  rw [slots_eq_product, List.mem_product, enabledIndices, List.mem_filter]
  exact ⟨fun h => h.2.2, fun hi => ⟨hchannel, hindex hi, hi⟩⟩

theorem index_lt_of_slot (h : (slots mask)[k]? = some sl) : sl.2 < 8 :=
  BitVec.lt_of_getLsbD (mem_slots.1 (List.mem_of_getElem? h))

theorem lt_slotCount_of_slot (h : (slots mask)[k]? = some sl) : k < slotCount mask :=
  slots_length mask ▸ (List.getElem?_eq_some_iff.1 h).1

/-! ### A run of slots -/

/-- The channels with a run of slots filled from a queue, as far as both reach: the loop of embed_px (R106). -/
def fillSlots (c : Channels) (l : List Slot) (q : List Bool) : Channels := (l.zip q).foldl fillSlot c

@[simp] theorem fillSlots_nil_left : fillSlots c [] q = c := rfl
@[simp] theorem fillSlots_nil_right : fillSlots c l [] = c := by rw [fillSlots, List.zip_nil_right, List.foldl_nil]
@[simp] theorem fillSlots_cons_cons :
    fillSlots c (sl :: l) (b :: q) = fillSlots (fillSlot c (sl, b)) l q := rfl

/-- A queue may be filled in part, and the rest from the next slot on. -/
theorem fillSlots_append :
    fillSlots c l (q₁ ++ q₂) = fillSlots (fillSlots c l q₁) (l.drop q₁.length) q₂ := by
  induction q₁ generalizing c l with
  | nil => simp
  | cons b q₁ ih =>
    cases l with
    | nil => simp
    | cons sl l => simpa using ih

/-- Bits beyond the last slot are not used. -/
theorem fillSlots_take (h : l.length ≤ n) : fillSlots c l (q.take n) = fillSlots c l q := by
  conv_rhs => rw [← List.take_append_drop n q, fillSlots_append]
  rw [List.length_take]
  rcases Nat.le_total n q.length with hn | hn
  · rw [Nat.min_eq_left hn, List.drop_of_length_le h, fillSlots_nil_left]
  · rw [List.drop_of_length_le hn, fillSlots_nil_right]

/-- A slot the queue does not reach keeps its bit. -/
theorem fillSlots_bit_kept (h : ∀ j, l[j]? = some sl → q.length ≤ j) : (fillSlots c l q).bit sl = c.bit sl := by
  induction l generalizing q c with
  | nil => rfl
  | cons target l ih =>
    cases q with
    | nil => rfl
    | cons b q =>
      have hne : target ≠ sl := fun heq => absurd (h 0 (congrArg some heq)) (Nat.not_succ_le_zero _)
      rw [fillSlots_cons_cons, ih fun j hj => Nat.le_of_succ_le_succ (h (j + 1) hj), fillSlot_bit_ne c b hne]

/-- The slot at the place of a queued bit takes the NOT of the bit. -/
theorem fillSlots_bit_filled (hl : l.Nodup) (hindex : sl.2 < 8) (hsl : l[j]? = some sl) (hb : q[j]? = some b) :
    (fillSlots c l q).bit sl = !b := by
  induction l generalizing q c j with
  | nil => cases hsl
  | cons target l ih =>
    obtain ⟨hhead, htail⟩ := List.nodup_cons.1 hl
    cases q with
    | nil => cases hb
    | cons b' q =>
      cases j with
      | zero =>
        cases hsl
        cases hb
        have hlater (j : Nat) (hj : l[j]? = some sl) : q.length ≤ j := absurd (List.mem_of_getElem? hj) hhead
        rw [fillSlots_cons_cons, fillSlots_bit_kept hlater, fillSlot_bit_same c b hindex]
      | succ j => exact ih htail hsl hb

/-! ### embed_px and extract -/

/-- embed_px fills the slots from slot 3n - r on (R106). -/
theorem embedPx_pixel (h : r ≤ slotCount mask) : (embedPx p q mask r).pixel =
    encodePixel (fillSlots (decodePixel p) ((slots mask).drop (slotCount mask - r)) q) := by
  have hroom : ((slots mask).drop (slotCount mask - r)).length ≤ r := by
    rw [List.length_drop, slots_length]
    omega
  have htake : q.take (min q.length r) = q.take r := by rw [Nat.min_comm, ← List.take_eq_take_min]
  rw [← fillSlots_take hroom, ← htake]
  rfl

/-- The slot in the place of a queued bit holds the NOT of the bit. -/
theorem embedPx_slotBit_filled (h : r ≤ slotCount mask) (hsl : (slots mask)[slotCount mask - r + j]? = some sl)
    (hb : q[j]? = some b) : slotBit (embedPx p q mask r).pixel sl = !b := by
  rw [embedPx_pixel h, slotBit_encodePixel]
  exact fillSlots_bit_filled ((slots_nodup mask).sublist (List.drop_sublist ..)) (index_lt_of_slot hsl)
    (List.getElem?_drop.trans hsl) hb

/-- A slot before the first filled, or after the last, keeps its bit. -/
theorem embedPx_slotBit_kept (h : r ≤ slotCount mask) (hsl : (slots mask)[k]? = some sl)
    (hk : k < slotCount mask - r ∨ slotCount mask - r + min q.length r ≤ k) :
    slotBit (embedPx p q mask r).pixel sl = slotBit p sl := by
  have hlt := lt_slotCount_of_slot hsl
  rw [embedPx_pixel h, slotBit_encodePixel]
  refine fillSlots_bit_kept fun j hj => ?_
  have hplace : k = slotCount mask - r + j :=
    (List.getElem?_inj (slots_length mask ▸ hlt) (slots_nodup mask)).1
      (hsl.trans (List.getElem?_drop.symm.trans hj).symm)
  omega

/-- A bit at an index the mask does not enable is kept. -/
theorem embedPx_slotBit_disabled (h : r ≤ slotCount mask) (hsl : sl ∉ slots mask) :
    slotBit (embedPx p q mask r).pixel sl = slotBit p sl := by
  rw [embedPx_pixel h, slotBit_encodePixel]
  exact fillSlots_bit_kept fun j hj => absurd (List.mem_of_mem_drop (List.mem_of_getElem? hj)) hsl

/-- Bit k of the extracted bits is the NOT of slot k (42_bit_extractor.md R121). -/
theorem extract_getElem? (p : Pixel) (mask : Byte) (k : Nat) :
    (extract p mask)[k]? = (slots mask)[k]?.map fun sl => !slotBit p sl := List.getElem?_map

/-! ### PEMB -/

theorem pembStep_of_le (h : s.brem ≤ slotCount s.mask) :
    pembStep s = .done (okWith (min s.bq.length s.brem))
      { s with
        pxr := (embedPx s.pxr s.bq s.mask s.brem).pixel
        bq := s.bq.drop (min s.bq.length s.brem)
        brem := s.brem - min s.bq.length s.brem
        cnt := min s.bq.length s.brem } :=
  if_neg (Nat.not_lt.2 h)

theorem pembStep_of_gt (h : slotCount s.mask < s.brem) :
    pembStep s = .done { code := .illegalOperand, value := s.brem } s :=
  if_pos h

/-- Settles O17: the new pixel is embed_px's, of which each slot is filled, kept or disabled. -/
theorem pembFillsTheNextSlots : Obligations.PembFillsTheNextSlots := by
  unfold Obligations.PembFillsTheNextSlots
  intro s
  refine ⟨decode_encode .pemb,
    fun hle => ⟨_, exec_of_okWith (i := .pemb) nofun (pembStep_of_le hle), ?slots, ?disabled⟩,
    fun hgt => exec_of_illegalOperand (i := .pemb) nofun (pembStep_of_gt hgt)⟩
  case slots =>
    intro k sl hsl
    split
    next hbefore => exact embedPx_slotBit_kept hle hsl (.inl hbefore)
    next hfrom =>
      obtain ⟨j, rfl⟩ := Nat.exists_eq_add_of_le (Nat.not_lt.1 hfrom)
      rw [Nat.add_sub_cancel_left]
      split
      next hfilled =>
        have hj : j < s.bq.length := by omega
        rw [List.getD_eq_getElem _ _ hj]
        exact embedPx_slotBit_filled hle hsl (List.getElem?_eq_getElem hj)
      next hafter => exact embedPx_slotBit_kept hle hsl (.inr (Nat.not_lt.1 hafter))
  case disabled =>
    intro ch i hi
    exact embedPx_slotBit_disabled hle fun hmem => absurd (mem_slots.1 hmem) (Bool.eq_false_iff.1 hi)

/-! ### The laws of embedding and extraction -/

theorem extract_embedPx_filled (h : r ≤ slotCount mask) (hj : j < min q.length r) :
    (extract (embedPx p q mask r).pixel mask)[slotCount mask - r + j]? = q[j]? := by
  have hslot : slotCount mask - r + j < (slots mask).length := by
    rw [slots_length]
    omega
  have hqueue : j < q.length := by omega
  have hfilled := embedPx_slotBit_filled (p := p) h (List.getElem?_eq_getElem hslot) (List.getElem?_eq_getElem hqueue)
  rw [extract_getElem?, List.getElem?_eq_getElem hslot, Option.map_some, hfilled, Bool.not_not,
    List.getElem?_eq_getElem hqueue]

theorem extract_embedPx_kept (h : r ≤ slotCount mask)
    (hk : k < slotCount mask - r ∨ slotCount mask - r + min q.length r ≤ k) :
    (extract (embedPx p q mask r).pixel mask)[k]? = (extract p mask)[k]? := by
  rw [extract_getElem?, extract_getElem?]
  cases hsl : (slots mask)[k]? with
  | none => rfl
  | some sl => rw [Option.map_some, Option.map_some, embedPx_slotBit_kept h hsl hk]

/-- Embedding the bits extracted from the same slots changes no slot: each takes the NOT of the NOT of its bit. -/
theorem embedPx_extract (h : r ≤ slotCount mask) :
    (embedPx p ((extract p mask).drop (slotCount mask - r)) mask r).pixel = p := by
  refine pixel_eq_of_slotBit fun sl => ?_
  by_cases henabled : sl ∈ slots mask
  · obtain ⟨k, hsl⟩ := List.mem_iff_getElem?.1 henabled
    rcases Nat.lt_or_ge k (slotCount mask - r) with hbefore | hfrom
    · exact embedPx_slotBit_kept h hsl (.inl hbefore)
    · obtain ⟨j, rfl⟩ := Nat.exists_eq_add_of_le hfrom
      have hbit : ((extract p mask).drop (slotCount mask - r))[j]? = some (!slotBit p sl) := by
        rw [List.getElem?_drop, extract_getElem?, hsl, Option.map_some]
      rw [embedPx_slotBit_filled h hsl hbit, Bool.not_not]
  · exact embedPx_slotBit_disabled h henabled

/-- Settles O18: the laws are `embedPx_slotBit_filled` and `embedPx_slotBit_kept`, read through `extract`. -/
theorem bitInverseLaw : Obligations.BitInverseLaw := by
  unfold Obligations.BitInverseLaw
  intro p q mask r h
  exact ⟨fun _ => extract_embedPx_filled h, fun _ => extract_embedPx_kept h, embedPx_extract h⟩

/-- The second call goes on where the first stopped: its budget is what the first left. -/
theorem embedPx_embedPx (hq₁ : q₁.length ≤ r) (h : r ≤ slotCount mask) :
    (embedPx (embedPx p q₁ mask r).pixel q₂ mask (r - q₁.length)).pixel = (embedPx p (q₁ ++ q₂) mask r).pixel := by
  have hresume : slotCount mask - (r - q₁.length) = slotCount mask - r + q₁.length := by omega
  rw [embedPx_pixel ((Nat.sub_le ..).trans h), embedPx_pixel h, embedPx_pixel h, decodePixel_encodePixel,
    fillSlots_append, List.drop_drop, hresume]

/-- Settles O19: the pixels agree by `fillSlots_append`, and the numbers of bits by arithmetic. -/
theorem resumptionLaw : Obligations.ResumptionLaw := by
  unfold Obligations.ResumptionLaw
  intro p q₁ q₂ mask r hq₁ h
  refine ⟨embedPx_embedPx hq₁ h, ?_⟩
  have hcount : min q₁.length r + min q₂.length (r - q₁.length) = min (q₁ ++ q₂).length r := by
    rw [List.length_append]
    omega
  exact hcount

end

end Sys2Proof.Machine

/-! SUPPORT. The bit extractor (spec/42_bit_extractor.md R121 to R123): PEXT and PACKB each answer OK and change AQ, or
change no register but STATUS, because AQ has too little room or holds too few bits. -/

namespace Sys2Proof.Machine

section
variable {s : State} {i : Instr} {code : Code} {q : List Bool} {k v : Nat} {w : BitVec 11}

/-- A command whose body answers a code without a port and changes nothing puts the code in STATUS and responds. -/
theorem exec_of_code (hread : ∀ imm8, i ≠ .rdreg imm8) (hstatus : statusWord code none false = w)
    (h : bodyOf i s = .done { code := code, value := v } s) :
    exec i s = .next { s with status := w, responses := s.responses ++ [⟨code, v⟩] } := by
  rw [exec_eq_finish hread, h, finish_done, ← hstatus]
  rfl

/-- QUEUE_FULL in STATUS (10_state.md R40; 60_exceptions.md R210). -/
theorem statusWord_queueFull : statusWord .queueFull none false = 0x013#11 := by decide

/-- QUEUE_SHORT in STATUS (10_state.md R40; 60_exceptions.md R210). -/
theorem statusWord_queueShort : statusWord .queueShort none false = 0x012#11 := by decide

/-! ### PEXT -/

theorem pextStep_of_le (h : s.aq.length + slotCount s.mask ≤ 31) :
    pextStep s = .done (okWith (s.aq.length + slotCount s.mask)) { s with aq := s.aq ++ extract s.pxr s.mask } := by
  rw [← extract_length s.pxr s.mask, ← List.length_append]
  exact if_neg (Nat.not_lt.2 h)

theorem pextStep_of_gt (h : 31 < s.aq.length + slotCount s.mask) :
    pextStep s = .done { code := .queueFull, value := s.aq.length } s :=
  if_pos h

/-- Settles O20: each side of AQ's bound is one branch of the body, and the pixel yields 3n bits. -/
theorem pextAppendsTheSlots : Obligations.PextAppendsTheSlots := by
  unfold Obligations.PextAppendsTheSlots
  exact fun s => ⟨decode_encode .pext,
    fun hle => exec_of_okWith (i := .pext) nofun (pextStep_of_le hle),
    fun hgt => exec_of_code (i := .pext) nofun statusWord_queueFull (pextStep_of_gt hgt)⟩

/-! ### PACKB -/

theorem packbStep_of_le (h : 8 ≤ s.aq.length) :
    packbStep s = .done (okWith (pack (s.aq.take 8)).toNat)
      { s with byter := pack (s.aq.take 8), aq := s.aq.drop 8 } :=
  if_neg (Nat.not_lt.2 h)

theorem packbStep_of_lt (h : s.aq.length < 8) :
    packbStep s = .done { code := .queueShort, value := s.aq.length } s :=
  if_pos h

/-- The bit popped in place `k` of the first eight is bit `7 - k` of the byte they pack to (20_memory.md R62). -/
theorem getElem?_eq_pack_take (hq : 8 ≤ q.length) (hk : k < 8) :
    q[k]? = some ((pack (q.take 8)).getLsbD (7 - k)) := by
  have hlength : (q.take 8).length = 8 := List.length_take_of_le hq
  have hplace : 7 - (7 - k) = k := by omega
  rw [pack_getLsbD hlength (by omega), List.getElem_take]
  simp only [hplace]
  exact List.getElem?_eq_getElem (by omega)

/-- Settles O21: the byte is the first eight bits packed, read bit by bit; too few bits are the body's other branch. -/
theorem packbFormsAByte : Obligations.PackbFormsAByte := by
  unfold Obligations.PackbFormsAByte
  exact fun s => ⟨decode_encode .packb,
    fun hle => ⟨pack (s.aq.take 8), fun _ => getElem?_eq_pack_take hle,
      exec_of_okWith (i := .packb) nofun (packbStep_of_le hle)⟩,
    fun hlt => exec_of_code (i := .packb) nofun statusWord_queueShort (packbStep_of_lt hlt)⟩

end

end Sys2Proof.Machine

/-! SUPPORT. The pixel cursor (spec/43_pixel_cursor.md R130 to R137): each advance by how its accesses answer, and the
traversal of a whole image. -/

namespace Sys2Proof.Machine

section
variable {s t : State} {a : Answer} {i : Instr} {p : Pixel} {reload : Bool} {x y nx ny : Nat}

/-! ### The responses of an advance -/

/-- A command with an answer leaves what its body left, with the response. -/
theorem exec_of_done (hread : ∀ imm8, i ≠ .rdreg imm8) (h : bodyOf i s = .done a t) :
    exec i s = .next (t.respond a) := by
  rw [exec_eq_finish hread, h, finish_done]

/-- A command that reports exhaustion (10_state.md R40; 60_exceptions.md R210). -/
theorem exec_of_exhausted (hread : ∀ imm8, i ≠ .rdreg imm8) (h : bodyOf i s = .done exhaustedAnswer t) :
    exec i s = .next { t with status := 0x010#11, responses := t.responses ++ [⟨.exhausted, 0⟩] } := by
  rw [exec_of_done hread h, State.respond_exhausted]

/-- A command whose ImgGet failed names port 0 (10_state.md R40; 60_exceptions.md R216). -/
theorem exec_of_failedGet (hread : ∀ imm8, i ≠ .rdreg imm8) (h : bodyOf i s = .done (ioFailure .imgGet 0) t) :
    exec i s = .next { t with status := 0x004#11, responses := t.responses ++ [⟨.ioFailure, 0⟩] } := by
  have hstatus : statusWord .ioFailure (some .imgGet) false = 0x004#11 := by decide
  rw [exec_of_done hread h, ← hstatus]
  rfl

/-- A command whose ImgSet failed names port 1 (10_state.md R40; 60_exceptions.md R216). -/
theorem exec_of_failedSet (hread : ∀ imm8, i ≠ .rdreg imm8) (h : bodyOf i s = .done (ioFailure .imgSet 0) t) :
    exec i s = .next { t with status := 0x104#11, responses := t.responses ++ [⟨.ioFailure, 0⟩] } := by
  have hstatus : statusWord .ioFailure (some .imgSet) false = 0x104#11 := by decide
  rw [exec_of_done hread h, ← hstatus]
  rfl

/-! ### The next position (R132) -/

/-- The next position, where it is in a row of the image, names a pixel of the image. -/
theorem nextPosition_inImage (hin : s.inImage s.curx s.cury = true) (hnext : nextPosition s = (nx, ny))
    (hrow : ny < s.imgh) : s.inImage nx ny = true := by
  obtain ⟨hx, hy⟩ := State.inImage_iff.1 hin
  obtain ⟨hcolumn, _⟩ := nextPosition_bounds hx hy
  rw [hnext] at hcolumn
  exact State.inImage_iff.2 ⟨hcolumn, hrow⟩

theorem nextPosition_ne (hnext : nextPosition s = (nx, ny)) : ¬(nx = s.curx ∧ ny = s.cury) := by
  unfold nextPosition at hnext
  split at hnext <;> cases hnext <;> omega

/-- After the last pixel of the image the next position is the start of the row below it. -/
theorem nextPosition_of_last (hcolumn : s.curx + 1 = s.imgw) (hrow : s.cury + 1 = s.imgh) :
    nextPosition s = (0, s.imgh) := by
  rw [nextPosition, if_pos hcolumn, hrow]

/-! ### The accesses of an advance -/

theorem imgGet_of_fail (hin : s.inImage x y = true) (hfail : s.answers.headD .ok = .fail) :
    imgGet x y s = .done none (s.afterGet x y .fail) :=
  imgGet_eq_done.2 ⟨hin, .inr ⟨rfl, hfail, rfl⟩⟩

theorem imgSet_of_ok (hin : s.inImage x y = true) (hok : s.nextAccessOk) :
    imgSet x y p s = .done true (s.afterCommit x y p) :=
  imgSet_eq_done.2 ⟨hin, .inl ⟨rfl, hok, rfl⟩⟩

theorem imgSet_of_fail (hin : s.inImage x y = true) (hfail : s.answers.headD .ok = .fail) :
    imgSet x y p s = .done false (s.afterRefusedSet x y p .fail) :=
  imgSet_eq_done.2 ⟨hin, .inr ⟨rfl, hfail, rfl⟩⟩

/-- A commit leaves every other pixel of the image as it was. -/
theorem State.afterCommit_pixelAt {x' y' : Nat} (hwf : s.image.wf = true) (hin : s.inImage x y = true)
    (hin' : s.inImage x' y' = true) (hne : ¬(x' = x ∧ y' = y)) :
    (s.afterCommit x y p).pixelAt x' y' = s.pixelAt x' y' := by
  obtain ⟨hread, _⟩ := pixelReadsAsLastWritten
  obtain ⟨hx, _⟩ := State.inImage_iff.1 hin
  obtain ⟨hx', _⟩ := State.inImage_iff.1 hin'
  exact (hread s x y x' y' p hwf hx hx').trans (if_neg hne)

/-! ### The move and its read -/

theorem moveAndRead_of_end (hnext : nextPosition s = (nx, ny)) (hend : s.imgh ≤ ny) :
    moveAndRead reload s = .done exhaustedAnswer
      { s with curx := nx, cury := ny, exh := true, brem := exhaustedBudget reload s } := by
  simp only [moveAndRead, hnext, if_pos hend]

theorem moveAndRead_of_ok (hnext : nextPosition s = (nx, ny)) (hin : s.inImage nx ny = true) (hok : s.nextAccessOk) :
    moveAndRead reload s = .done (okWith (s.pixelAt nx ny).toNat)
      { s.afterGet nx ny .ok with
        curx := nx, cury := ny, pxr := s.pixelAt nx ny, brem := yieldBudget reload s } := by
  have hrow : ¬s.imgh ≤ ny := Nat.not_le.2 (State.inImage_iff.1 hin).2
  simp only [moveAndRead, hnext, if_neg hrow, imgGet_of_ok hin hok, Res.bind_done]
  rfl

theorem moveAndRead_of_fail (hnext : nextPosition s = (nx, ny)) (hin : s.inImage nx ny = true)
    (hfail : s.answers.headD .ok = .fail) :
    moveAndRead reload s = .done (ioFailure .imgGet 0) (s.afterGet nx ny .fail) := by
  have hrow : ¬s.imgh ≤ ny := Nat.not_le.2 (State.inImage_iff.1 hin).2
  simp only [moveAndRead, hnext, if_neg hrow, imgGet_of_fail hin hfail, Res.bind_done]

theorem firstAdvance_of_fail (hin : s.inImage 0 0 = true) (hfail : s.answers.headD .ok = .fail) :
    firstAdvance reload s = .done (ioFailure .imgGet 0) (s.afterGet 0 0 .fail) := by
  obtain ⟨hw, hh⟩ := State.inImage_iff.1 hin
  have hpixels : ¬(s.imgw = 0 ∨ s.imgh = 0) := by omega
  rw [firstAdvance, if_neg hpixels, imgGet_of_fail hin hfail]
  rfl

/-! ### The two cursor commands -/

theorem eq_or_eq_of_mem_advances (hi : i ∈ [Instr.wadv, .radv]) : i = .wadv ∨ i = .radv := by
  simpa only [List.mem_cons, List.not_mem_nil, or_false] using hi

/-- Before its first pixel either cursor command is the first advance. -/
theorem bodyOf_of_fresh (hi : i ∈ [Instr.wadv, .radv]) (hexh : s.exh = false) (hfresh : s.issued = false) :
    (∀ imm8, i ≠ .rdreg imm8) ∧ ∃ reload, bodyOf i s = firstAdvance reload s := by
  rcases eq_or_eq_of_mem_advances hi with rfl | rfl
  · exact ⟨nofun, true, wadvStep_of_fresh hexh hfresh⟩
  · exact ⟨nofun, false, radvStep_of_fresh hexh hfresh⟩

theorem wadvStep_of_exhausted (hexh : s.exh = true) : wadvStep s = .done exhaustedAnswer s := if_pos hexh

theorem radvStep_of_exhausted (hexh : s.exh = true) : radvStep s = .done exhaustedAnswer s := if_pos hexh

theorem wadvStep_of_commit (hexh : s.exh = false) (hissued : s.issued = true) (hin : s.inImage s.curx s.cury = true)
    (hok : s.nextAccessOk) : wadvStep s = moveAndRead true (s.afterCommit s.curx s.cury s.pxr) := by
  simp only [wadvStep, hexh, hissued, Bool.false_eq_true, if_false, if_true, imgSet_of_ok hin hok, Res.bind_done]

theorem wadvStep_of_failedCommit (hexh : s.exh = false) (hissued : s.issued = true)
    (hin : s.inImage s.curx s.cury = true) (hfail : s.answers.headD .ok = .fail) :
    wadvStep s = .done (ioFailure .imgSet 0) (s.afterRefusedSet s.curx s.cury s.pxr .fail) := by
  simp only [wadvStep, hexh, hissued, Bool.false_eq_true, if_false, if_true, imgSet_of_fail hin hfail, Res.bind_done]

theorem radvStep_of_issued (hexh : s.exh = false) (hissued : s.issued = true) :
    radvStep s = moveAndRead false s := by
  simp only [radvStep, hexh, hissued, Bool.false_eq_true, if_false, if_true]

end

/-- Settles O24: CINIT's body is the assignments of R131. -/
theorem cinitCreatesTheCursor : Obligations.CinitCreatesTheCursor := by
  unfold Obligations.CinitCreatesTheCursor
  exact fun s => ⟨decode_encode .cinit, exec_of_okWith (i := .cinit) nofun (t :=
    { s with curx := 0, cury := 0, issued := false, exh := false, brem := 0, cnt := 0, bq := [], aq := [] }) rfl⟩

/-- Settles O26: the commit, then the read of the next pixel, which the commit left alone. -/
theorem wadvCommitsThenYields : Obligations.WadvCommitsThenYields := by
  unfold Obligations.WadvCommitsThenYields
  intro s nx ny hexh hissued hwf hx hy hnext hrow ⟨hcommit, hread⟩
  have hin : s.inImage s.curx s.cury = true := State.inImage_iff.2 ⟨hx, hy⟩
  have hin' : s.inImage nx ny = true := nextPosition_inImage hin hnext.symm hrow
  have hpixel : (s.afterCommit s.curx s.cury s.pxr).pixelAt nx ny = s.pixelAt nx ny :=
    State.afterCommit_pixelAt hwf hin hin' (nextPosition_ne hnext.symm)
  have hstep := (wadvStep_of_commit hexh hissued hin hcommit).trans (moveAndRead_of_ok hnext.symm hin' hread)
  rw [hpixel] at hstep
  rw [exec_of_okWith (i := .wadv) nofun hstep]
  simp [State.afterGet, State.afterCommit, State.logUse, State.setPixel, slotCount]

/-- Settles O27: past the first pixel RADV is the move and its read. -/
theorem radvYieldsTheNextPixel : Obligations.RadvYieldsTheNextPixel := by
  unfold Obligations.RadvYieldsTheNextPixel
  intro s nx ny hexh hissued hx hy hnext hrow hok
  have hin : s.inImage nx ny = true :=
    nextPosition_inImage (State.inImage_iff.2 ⟨hx, hy⟩) hnext.symm hrow
  exact exec_of_okWith (i := .radv) nofun
    ((radvStep_of_issued hexh hissued).trans (moveAndRead_of_ok hnext.symm hin hok))

/-- Settles O28: after the last pixel the next row is IMGH. -/
theorem lastAdvanceExhausts : Obligations.LastAdvanceExhausts := by
  unfold Obligations.LastAdvanceExhausts
  intro s hexh hissued hcolumn hrow
  have hin : s.inImage s.curx s.cury = true := State.inImage_iff.2 (by omega)
  refine ⟨fun hok => ?wadv, ?radv⟩
  case wadv =>
    exact exec_of_exhausted (i := .wadv) nofun ((wadvStep_of_commit hexh hissued hin hok).trans
      (moveAndRead_of_end (nextPosition_of_last hcolumn hrow) le_rfl))
  case radv =>
    exact exec_of_exhausted (i := .radv) nofun ((radvStep_of_issued hexh hissued).trans
      (moveAndRead_of_end (nextPosition_of_last hcolumn hrow) le_rfl))

/-- Settles O29: each access in turn is the one that fails. -/
theorem failedAccessLeavesTheCursor : Obligations.FailedAccessLeavesTheCursor := by
  unfold Obligations.FailedAccessLeavesTheCursor
  intro s rest hexh
  refine ⟨fun hfresh hw hh hanswers i hi => ?first, fun hissued hx hy => ⟨fun hanswers => ?commit,
    fun nx ny hnext hrow => ⟨fun hanswers => ?afterCommit, fun hanswers => ?move⟩⟩⟩
  case first =>
    obtain ⟨hread, reload, hbody⟩ := bodyOf_of_fresh hi hexh hfresh
    have hfail : s.answers.headD .ok = .fail := by rw [hanswers]; rfl
    rw [exec_of_failedGet hread (hbody.trans (firstAdvance_of_fail (State.inImage_iff.2 ⟨hw, hh⟩) hfail))]
    simp only [State.afterGet, State.logUse, hanswers, List.tail_cons]
  case commit =>
    have hfail : s.answers.headD .ok = .fail := by rw [hanswers]; rfl
    rw [exec_of_failedSet (i := .wadv) nofun
      (wadvStep_of_failedCommit hexh hissued (State.inImage_iff.2 ⟨hx, hy⟩) hfail)]
    simp only [State.afterRefusedSet, State.logUse, hanswers, List.tail_cons]
  case afterCommit =>
    have hin : s.inImage s.curx s.cury = true := State.inImage_iff.2 ⟨hx, hy⟩
    have hok : s.nextAccessOk := by rw [State.nextAccessOk, hanswers]; rfl
    have hfail : (s.afterCommit s.curx s.cury s.pxr).answers.headD .ok = .fail := by
      rw [State.afterCommit, hanswers]; rfl
    rw [exec_of_failedGet (i := .wadv) nofun ((wadvStep_of_commit hexh hissued hin hok).trans
      (moveAndRead_of_fail hnext.symm (nextPosition_inImage hin hnext.symm hrow) hfail))]
    simp [State.afterGet, State.afterCommit, State.logUse, State.setPixel, hanswers]
  case move =>
    have hin : s.inImage nx ny = true := nextPosition_inImage (State.inImage_iff.2 ⟨hx, hy⟩) hnext.symm hrow
    have hfail : s.answers.headD .ok = .fail := by rw [hanswers]; rfl
    rw [exec_of_failedGet (i := .radv) nofun
      ((radvStep_of_issued hexh hissued).trans (moveAndRead_of_fail hnext.symm hin hfail))]
    simp only [State.afterGet, State.logUse, hanswers, List.tail_cons]

/-- Settles O31: each body returns at its flag with the state as it was. -/
theorem endsAreSticky : Obligations.EndsAreSticky := by
  unfold Obligations.EndsAreSticky
  refine ⟨fun s hexh i hi => ?exhausted, fun s hsend => ?send, fun s hdone => ?done, fun s hdone hfailed => ?failed⟩
  case exhausted =>
    rcases eq_or_eq_of_mem_advances hi with rfl | rfl
    · exact exec_of_exhausted (i := .wadv) nofun (wadvStep_of_exhausted hexh)
    · exact exec_of_exhausted (i := .radv) nofun (radvStep_of_exhausted hexh)
  case send => exact exec_of_code (i := .fnext) nofun (by decide) (if_pos hsend)
  case done => exact exec_of_code (i := .fput) nofun (by decide) (if_pos hdone)
  case failed =>
    have hstep : fputStep s = .done noSecretAnswer s := by
      simp only [fputStep, hdone, hfailed, Bool.false_eq_true, if_false, if_true]
    exact exec_of_code (i := .fput) nofun (by decide) hstep

section
variable {s t u : State} {i : Instr} {m : Memory} {w h j : Nat}

/-! ### Row-major order (R132) -/

/-- The position after the pixel of row-major index `j` is that of index `j + 1`. -/
theorem rowMajor_succ (hw : 0 < w) :
    (if j % w + 1 = w then (0, j / w + 1) else (j % w + 1, j / w)) = ((j + 1) % w, (j + 1) / w) := by
  have hsplit := Nat.mod_add_div j w
  split
  next hend =>
    have hindex : j + 1 = w * (j / w + 1) := by rw [Nat.mul_succ]; omega
    rw [hindex, Nat.mul_mod_right, Nat.mul_div_cancel_left _ hw]
  next hinner =>
    have hcolumn : j % w + 1 < w := Nat.lt_of_le_of_ne (Nat.mod_lt j hw) hinner
    have hindex : j + 1 = j % w + 1 + w * (j / w) := by omega
    rw [hindex, Nat.add_mul_mod_self_left, Nat.add_mul_div_left _ _ hw, Nat.mod_eq_of_lt hcolumn,
      Nat.div_eq_of_lt hcolumn, Nat.zero_add]

/-- An index below the number of pixels is that of a pixel. -/
theorem rowMajor_bounds (hj : j < w * h) : 0 < w ∧ j % w < w ∧ j / w < h := by
  have hw : 0 < w := Nat.pos_of_mul_pos_right (Nat.zero_lt_of_lt hj)
  exact ⟨hw, Nat.mod_lt j hw, Nat.div_lt_of_lt_mul hj⟩

/-- The last index is that of the last pixel of the last row. -/
theorem rowMajor_last (hj : j + 1 = w * h) : j % w + 1 = w ∧ j / w + 1 = h := by
  obtain ⟨hw, hcolumn, hrow⟩ := rowMajor_bounds (j := j) (w := w) (h := h) (by omega)
  have hnext := rowMajor_succ (j := j) hw
  rw [hj, Nat.mul_mod_right, Nat.mul_div_cancel_left _ hw] at hnext
  split at hnext
  next hend => exact ⟨hend, congrArg Prod.snd hnext⟩
  next => exact absurd (congrArg Prod.fst hnext) (Nat.succ_ne_zero _)

/-! ### A commit of a pixel that was not changed -/

/-- Writing a byte that stands there already changes nothing, in a canonical memory. -/
theorem Memory.write_read {lo : Nat} (hm : Memory.wfFrom lo m = true) (k : Nat) : m.write k (m.read k) = m := by
  induction m generalizing lo with
  | nil => rfl
  | cons c rest ih =>
    obtain ⟨k', v⟩ := c
    simp only [Memory.wfFrom, Bool.and_eq_true, decide_eq_true_eq] at hm
    obtain ⟨⟨_, hlisted⟩, hrest⟩ := hm
    rcases Nat.lt_trichotomy k k' with hlt | rfl | hgt
    · have hunlisted : Memory.read rest k = Config.unlistedByte := Memory.read_of_lt hrest (by omega)
      simp only [Memory.write, Memory.read_cons, if_pos hlt, if_neg (Nat.ne_of_gt hlt), hunlisted, if_true]
    · simp only [Memory.write, Memory.read_cons, Nat.lt_irrefl, if_false, if_true, if_neg hlisted]
    · simp only [Memory.write, Memory.read_cons, if_neg (Nat.not_lt.2 hgt.le), if_neg (Nat.ne_of_gt hgt),
        if_neg (Nat.ne_of_lt hgt), ih hrest]

/-- Writing the pixel that stands there already changes nothing, in a canonical memory. -/
theorem Memory.writePixel_readPixel (hm : m.wf = true) (k : Nat) : m.writePixel k (m.readPixel k) = m := by
  simp only [Memory.writePixel, Memory.readPixel, decodePixel_encodePixel, Memory.write_read hm]

theorem State.setPixel_pixelAt (hwf : s.image.wf = true) (x y : Nat) : s.setPixel x y (s.pixelAt x y) = s := by
  rw [State.setPixel, State.pixelAt, Memory.writePixel_readPixel hwf]

/-! ### Ports that answer ok -/

theorem State.portsAnswerOk.nextAccessOk (hok : s.portsAnswerOk) : s.nextAccessOk := by
  unfold State.nextAccessOk
  cases hanswers : s.answers with
  | nil => rfl
  | cons answer rest => exact hok answer (hanswers ▸ List.mem_cons_self)

theorem State.portsAnswerOk.nextTwoAccessesOk (hok : s.portsAnswerOk) : s.nextTwoAccessesOk :=
  ⟨hok.nextAccessOk,
    State.portsAnswerOk.nextAccessOk (s := { s with answers := s.answers.tail })
      fun _ hanswer => hok _ (List.mem_of_mem_tail hanswer)⟩

/-! ### A run of commands (00_scope.md R14) -/

theorem runCommands_append {l l' : List Instr} (hrun : runCommands l s = .next t) :
    runCommands (l ++ l') s = runCommands l' t := by
  induction l generalizing s with
  | nil => cases hrun; rfl
  | cons i l ih =>
    rw [List.cons_append, runCommands]
    rw [runCommands] at hrun
    cases hexec : exec i s with
    | next u => rw [hexec] at hrun; exact ih hrun
    | fault f => rw [hexec] at hrun; cases hrun
    | refused r => rw [hexec] at hrun; cases hrun

theorem runCommands_concat {l : List Instr} (hrun : runCommands l s = .next t) (hexec : exec i t = .next u) :
    runCommands (l ++ [i]) s = .next u := by
  simp only [runCommands_append hrun, runCommands, hexec]

/-! ### The traversal of an image (R137) -/

/-- The traversal of the image of `s` has reached state `t`: the image is as it was, and the ports answer ok. -/
structure State.Traversing (s t : State) : Prop where
  imgw : t.imgw = s.imgw
  imgh : t.imgh = s.imgh
  image : t.image = s.image
  ports : t.portsAnswerOk

/-- The traversal is about to begin. -/
structure State.Created (s t : State) : Prop extends s.Traversing t where
  curx : t.curx = 0
  cury : t.cury = 0
  issued : t.issued = false
  exh : t.exh = false

/-- The traversal has just yielded the pixel of row-major index `j`. -/
structure State.Yielded (s : State) (j : Nat) (t : State) : Prop extends s.Traversing t where
  curx : t.curx = j % s.imgw
  cury : t.cury = j / s.imgw
  issued : t.issued = true
  exh : t.exh = false
  pxr : t.pxr = s.pixelAt (j % s.imgw) (j / s.imgw)
  response : t.responses.getLast? = some ⟨.ok, (s.pixelAt (j % s.imgw) (j / s.imgw)).toNat⟩

/-- The traversal has just reported exhaustion. -/
structure State.Exhausted (s t : State) : Prop where
  exh : t.exh = true
  image : t.image = s.image
  response : t.responses.getLast? = some ⟨.exhausted, 0⟩

theorem State.Traversing.pixelAt (h : s.Traversing t) (x y : Nat) : t.pixelAt x y = s.pixelAt x y := by
  rw [State.pixelAt, State.pixelAt, h.image, h.imgw]

theorem State.Traversing.after (h : s.Traversing t) (hw : u.imgw = t.imgw) (hh : u.imgh = t.imgh)
    (himage : u.image = s.image) (hanswers : u.answers ⊆ t.answers) : s.Traversing u :=
  ⟨hw.trans h.imgw, hh.trans h.imgh, himage, fun _ hanswer => h.ports _ (hanswers hanswer)⟩

/-- PXR holds what the image holds at the cursor, so a commit leaves the image as it is. -/
theorem State.Yielded.commit (h : s.Yielded j t) (hwf : s.image.wf = true) :
    (t.setPixel t.curx t.cury t.pxr).image = s.image := by
  have hpixel : t.pxr = t.pixelAt t.curx t.cury := by rw [h.pixelAt, h.curx, h.cury, h.pxr]
  rw [hpixel, State.setPixel_pixelAt (h.image ▸ hwf), h.image]

/-- CINIT begins a traversal (R131). -/
theorem created_of_cinit (hok : s.portsAnswerOk) : ∃ t, runCommands [.cinit] s = .next t ∧ s.Created t := by
  obtain ⟨_, hcinit⟩ := cinitCreatesTheCursor s
  refine ⟨_, runCommands_concat (l := []) rfl hcinit, ?_⟩
  exact {
    imgw := rfl, imgh := rfl, image := rfl, ports := hok
    curx := rfl, cury := rfl, issued := rfl, exh := rfl }

/-- The first advance yields the pixel at (0, 0) of an image with pixels (R133). -/
theorem State.Created.first (h : s.Created t) (hi : i ∈ [Instr.wadv, .radv]) (hpixels : 0 < s.imgw * s.imgh) :
    ∃ u, exec i t = .next u ∧ s.Yielded 0 u := by
  have hw : 0 < t.imgw := h.imgw ▸ Nat.pos_of_mul_pos_right hpixels
  have hh : 0 < t.imgh := h.imgh ▸ Nat.pos_of_mul_pos_left hpixels
  have horigin : t.pixelAt 0 0 = s.pixelAt (0 % s.imgw) (0 / s.imgw) := by
    rw [h.pixelAt, Nat.zero_mod, Nat.zero_div]
  obtain ⟨hyields, _⟩ := firstAdvanceYieldsTheOrigin t h.exh h.issued
  obtain ⟨hwadv, hradv⟩ := hyields hw hh h.ports.nextAccessOk
  have hx : t.curx = 0 % s.imgw := h.curx.trans (Nat.zero_mod _).symm
  have hy : t.cury = 0 / s.imgw := h.cury.trans (Nat.zero_div _).symm
  rcases eq_or_eq_of_mem_advances hi with rfl | rfl
  · exact ⟨_, hwadv, h.after rfl rfl h.image (List.tail_subset _), hx, hy, rfl, h.exh, horigin,
      by rw [List.getLast?_concat, horigin]⟩
  · exact ⟨_, hradv, h.after rfl rfl h.image (List.tail_subset _), hx, hy, rfl, h.exh, horigin,
      by rw [List.getLast?_concat, horigin]⟩

/-- The first advance finds that an image without pixels has none (R133). -/
theorem State.Created.none (h : s.Created t) (hi : i ∈ [Instr.wadv, .radv]) (hempty : s.imgw * s.imgh = 0) :
    ∃ u, exec i t = .next u ∧ s.Exhausted u := by
  obtain ⟨_, hnone⟩ := firstAdvanceYieldsTheOrigin t h.exh h.issued
  rw [h.imgw, h.imgh] at hnone
  obtain ⟨hwadv, hradv⟩ := hnone (Nat.mul_eq_zero.1 hempty)
  rcases eq_or_eq_of_mem_advances hi with rfl | rfl
  · exact ⟨_, hwadv, rfl, h.image, List.getLast?_concat⟩
  · exact ⟨_, hradv, rfl, h.image, List.getLast?_concat⟩

/-- From a pixel that is not the last an advance yields the next (R132). -/
theorem State.Yielded.next (h : s.Yielded j t) (hi : i ∈ [Instr.wadv, .radv]) (hwf : s.image.wf = true)
    (hj : j + 1 < s.imgw * s.imgh) : ∃ u, exec i t = .next u ∧ s.Yielded (j + 1) u := by
  obtain ⟨hw, hx, hy⟩ := rowMajor_bounds (Nat.lt_of_succ_lt hj)
  obtain ⟨_, hnx, hny⟩ := rowMajor_bounds hj
  have hcurx : t.curx < t.imgw := by rwa [h.curx, h.imgw]
  have hcury : t.cury < t.imgh := by rwa [h.cury, h.imgh]
  have hrow : (j + 1) / s.imgw < t.imgh := by rwa [h.imgh]
  have hnext : ((j + 1) % s.imgw, (j + 1) / s.imgw) =
      (if t.curx + 1 = t.imgw then (0, t.cury + 1) else (t.curx + 1, t.cury)) := by
    rw [h.curx, h.cury, h.imgw, rowMajor_succ hw]
  rcases eq_or_eq_of_mem_advances hi with rfl | rfl
  · exact ⟨_, wadvCommitsThenYields t _ _ h.exh h.issued (h.image ▸ hwf) hcurx hcury hnext hrow
      h.ports.nextTwoAccessesOk,
      h.after rfl rfl (h.commit hwf) (List.Subset.trans (List.tail_subset _) (List.tail_subset _)),
      rfl, rfl, h.issued, h.exh, h.pixelAt _ _, by rw [List.getLast?_concat, h.pixelAt]⟩
  · exact ⟨_, radvYieldsTheNextPixel t _ _ h.exh h.issued hcurx hcury hnext hrow h.ports.nextAccessOk,
      h.after rfl rfl h.image (List.tail_subset _),
      rfl, rfl, h.issued, h.exh, h.pixelAt _ _, by rw [List.getLast?_concat, h.pixelAt]⟩

/-- From the last pixel an advance reports exhaustion (R137). -/
theorem State.Yielded.last (h : s.Yielded j t) (hi : i ∈ [Instr.wadv, .radv]) (hwf : s.image.wf = true)
    (hj : j + 1 = s.imgw * s.imgh) : ∃ u, exec i t = .next u ∧ s.Exhausted u := by
  obtain ⟨hcolumn, hrow⟩ := rowMajor_last hj
  obtain ⟨hwadv, hradv⟩ := lastAdvanceExhausts t h.exh h.issued (by rw [h.curx, h.imgw, hcolumn])
    (by rw [h.cury, h.imgh, hrow])
  rcases eq_or_eq_of_mem_advances hi with rfl | rfl
  · exact ⟨_, hwadv h.ports.nextAccessOk, rfl, h.commit hwf, List.getLast?_concat⟩
  · exact ⟨_, hradv, rfl, h.image, List.getLast?_concat⟩

/-- Advance number `j + 1` yields the pixel of index `j` (R137). -/
theorem yielded_of_advances (hi : i ∈ [Instr.wadv, .radv]) (hok : s.portsAnswerOk) (hwf : s.image.wf = true)
    (hj : j < s.imgw * s.imgh) :
    ∃ t, runCommands (.cinit :: List.replicate (j + 1) i) s = .next t ∧ s.Yielded j t := by
  induction j with
  | zero =>
    obtain ⟨c, hcinit, hcreated⟩ := created_of_cinit hok
    obtain ⟨t, hexec, hyielded⟩ := hcreated.first hi hj
    exact ⟨t, runCommands_concat hcinit hexec, hyielded⟩
  | succ j ih =>
    obtain ⟨t, hrun, hyielded⟩ := ih (Nat.lt_of_succ_lt hj)
    obtain ⟨u, hexec, hnext⟩ := hyielded.next hi hwf hj
    rw [List.replicate_succ' (n := j + 1)]
    exact ⟨u, runCommands_concat hrun hexec, hnext⟩

/-- The advance after as many as the image has pixels reports exhaustion (R137). -/
theorem exhausted_of_advances (hi : i ∈ [Instr.wadv, .radv]) (hok : s.portsAnswerOk) (hwf : s.image.wf = true) :
    ∃ t, runCommands (.cinit :: List.replicate (s.imgw * s.imgh + 1) i) s = .next t ∧ s.Exhausted t := by
  cases hpixels : s.imgw * s.imgh with
  | zero =>
    obtain ⟨c, hcinit, hcreated⟩ := created_of_cinit hok
    obtain ⟨t, hexec, hexhausted⟩ := hcreated.none hi hpixels
    exact ⟨t, runCommands_concat hcinit hexec, hexhausted⟩
  | succ j =>
    obtain ⟨t, hrun, hyielded⟩ := yielded_of_advances (j := j) hi hok hwf (by omega)
    obtain ⟨u, hexec, hexhausted⟩ := hyielded.last hi hwf hpixels.symm
    rw [List.replicate_succ' (n := j + 1)]
    exact ⟨u, runCommands_concat hrun hexec, hexhausted⟩

end

/-- Settles O30: by induction on the number of advances; PXR holds what the image holds, so no commit changes it. -/
theorem traversalVisitsEveryPixel : Obligations.TraversalVisitsEveryPixel := by
  unfold Obligations.TraversalVisitsEveryPixel
  intro s i hi hok hwf
  refine ⟨fun j hj => ?_, ?_⟩
  · obtain ⟨t, hrun, h⟩ := yielded_of_advances hi hok hwf hj
    exact ⟨t, hrun, h.curx, h.cury, h.issued, h.exh, h.pxr, h.image, h.response⟩
  · obtain ⟨t, hrun, h⟩ := exhausted_of_advances hi hok hwf
    exact ⟨t, hrun, h.exh, h.image, h.response⟩

end Sys2Proof.Machine

/-! SUPPORT. No command stops in a fault (spec/20_memory.md R54): from a legal cursor no advance leaves the image, and
the loops of EMBED and RETRIEVE end before their bounds, because every round of one makes a count smaller: the bits in
its queue, the bytes of the stream, or the pixels ahead of the cursor. -/

namespace Sys2Proof.Machine

/-! ### Parts of a command that end without a fault -/

/-- The part does not fault, and what it answers satisfies `Q`. -/
def Res.completes {α : Type} (Q : α → State → Prop) : Res α → Prop
  | .done a t => Q a t
  | .hang _ => True
  | .fault _ => False

/-- The pixels of the traversal that no advance has yielded yet (43_pixel_cursor.md R132). -/
def State.pixelsAhead (s : State) : Nat :=
  s.imgw * s.imgh - if s.issued then s.cury * s.imgw + s.curx + 1 else 0

/-- The bytes of the framed stream that FNEXT has not emitted yet (44_payload_framer.md R156). -/
def State.streamAhead (s : State) : Nat :=
  match s.comp with
  | .fileName => s.srcName.length - s.idx + 1 + (dec s.srcData.length).length + 1 + (s.srcData.length - s.rcnt)
  | .fileSize => (dec s.srcData.length).length - s.idx + 1 + (s.srcData.length - s.rcnt)
  | .rawData => s.srcData.length - s.rcnt

section
variable {α β : Type} {Q Q' : α → State → Prop} {R : β → State → Prop} {r : Res α}

theorem Res.completes_iff : r.completes Q ↔ (∀ f, r ≠ .fault f) ∧ ∀ a t, r = .done a t → Q a t := by
  cases r <;> simp [Res.completes]

theorem Res.completes.ne_fault (h : r.completes Q) (f : Fault) : r ≠ .fault f := (Res.completes_iff.1 h).1 f

theorem Res.completes_bind {g : α → State → Res β} (hr : r.completes Q)
    (hg : ∀ a t, Q a t → (g a t).completes R) : (r.bind g).completes R := by
  cases r with
  | done a t => exact hg a t hr
  | hang t => trivial
  | fault f => exact hr.elim

end

section
variable {s t : State} {a : Answer} {f : Fault} {i : Instr} {k n : Nat}

/-! ### The cursor -/

/-- From a pixel of the image the move stays in the image, or exhausts the cursor. -/
theorem moveAndRead_ne_fault {reload : Bool} (hin : s.inImage s.curx s.cury = true) :
    moveAndRead reload s ≠ .fault f := by
  intro h
  obtain ⟨hrow, hout, _⟩ := moveAndRead_fault h
  rw [nextPosition_inImage hin (Prod.mk.eta (p := nextPosition s)).symm hrow] at hout
  cases hout

theorem State.cursorLegal.inside (hs : s.cursorLegal True) : s.cursorInside := by
  obtain ⟨_, hinside⟩ := hs
  exact hinside trivial

theorem State.cursorInside.inImage (hs : s.cursorInside) (hexh : s.exh = false) (hissued : s.issued = true) :
    s.inImage s.curx s.cury = true :=
  State.inImage_iff.2 (hs hissued hexh)

theorem wadvStep_ne_fault (hs : s.cursorInside) : wadvStep s ≠ .fault f := by
  intro h
  unfold wadvStep at h
  split at h
  next => cases h
  next hexh =>
    split at h
    next hissued =>
      have hin := hs.inImage (Bool.eq_false_iff.2 hexh) hissued
      rcases Res.bind_eq_fault.1 h with hset | ⟨ok, u, hset, hrest⟩
      · rw [(imgSet_eq_fault.1 hset).1] at hin
        cases hin
      · obtain ⟨_, ⟨rfl, _, rfl⟩ | ⟨rfl, _, rfl⟩⟩ := imgSet_eq_done.1 hset
        · exact moveAndRead_ne_fault (s := s.afterCommit s.curx s.cury s.pxr) hin hrest
        · cases hrest
    next => exact firstAdvance_ne_fault h

theorem radvStep_ne_fault (hs : s.cursorInside) : radvStep s ≠ .fault f := by
  intro h
  unfold radvStep at h
  split at h
  next => cases h
  next hexh =>
    split at h
    next hissued => exact moveAndRead_ne_fault (hs.inImage (Bool.eq_false_iff.2 hexh) hissued) h
    next => exact firstAdvance_ne_fault h

/-- No primitive command faults from a legal cursor. -/
theorem primitive_ne_fault (hs : s.cursorInside) (hembed : i ≠ .embed) (hretrieve : i ≠ .retrieve) :
    bodyOf i s ≠ .fault f := by
  cases i with
  | embed => exact absurd rfl hembed
  | retrieve => exact absurd rfl hretrieve
  | wadv => exact wadvStep_ne_fault hs
  | radv => exact radvStep_ne_fault hs
  | fnext => exact fnextStep_ne_fault
  | fput => exact fputStep_ne_fault
  | ldrem => simp only [bodyOf, ldremStep]; split <;> nofun
  | pemb => simp only [bodyOf, pembStep]; split <;> nofun
  | pext => simp only [bodyOf, pextStep]; split <;> nofun
  | packb => simp only [bodyOf, packbStep]; split <;> nofun
  | _ => nofun

theorem Answer.stops_of_exhausted (h : a = exhaustedAnswer) : a.stops = true := by rw [h]; rfl

theorem Answer.stops_of_ioFailure {port : Port} {v : Nat} (h : a = ioFailure port v) : a.stops = true := by
  rw [h]; rfl

/-- The next position follows the cursor's in row-major order (43_pixel_cursor.md R132). -/
theorem nextPosition_index :
    (nextPosition s).2 * s.imgw + (nextPosition s).1 = s.cury * s.imgw + s.curx + 1 := by
  unfold nextPosition
  split
  next hend => rw [Nat.add_assoc, hend, Nat.add_zero, Nat.succ_mul]
  next => rfl

/-- An advance that goes on leaves fewer pixels ahead. -/
theorem radvStep_pixelsAhead (h : radvStep s = .done a t) : a.stops = true ∨ t.pixelsAhead < s.pixelsAhead := by
  rcases radvStep_cases h with ⟨_, ha, _⟩ | ⟨_, hfresh, hfirst⟩ | ⟨_, hissued, hmove⟩
  · exact .inl (Answer.stops_of_exhausted ha)
  · rcases firstAdvance_cases hfirst with ⟨_, ha, _⟩ | ⟨hin, _, _, rfl⟩ | ⟨_, _, ha, _⟩
    · exact .inl (Answer.stops_of_exhausted ha)
    · obtain ⟨hw, hh⟩ := State.inImage_iff.1 hin
      have hpixels : 0 < s.imgw * s.imgh := Nat.mul_pos hw hh
      refine .inr ?_
      simp only [State.pixelsAhead, State.afterGet, State.logUse, hfresh, if_true, Bool.false_eq_true, if_false]
      omega
    · exact .inl (Answer.stops_of_ioFailure ha)
  · rcases moveAndRead_cases hmove with ⟨_, ha, _⟩ | ⟨hin, _, _, rfl⟩ | ⟨_, _, ha, _⟩
    · exact .inl (Answer.stops_of_exhausted ha)
    · obtain ⟨hx, hy⟩ := State.inImage_iff.1 hin
      have hend := pixelAddress_add_three_le hx hy
      rw [pixelAddress, nextPosition_index] at hend
      refine .inr ?_
      simp only [State.pixelsAhead, State.afterGet, State.logUse, hissued, if_true, nextPosition_index]
      omega
    · exact .inl (Answer.stops_of_ioFailure ha)

/-- What a primitive command may not write it keeps, and it does not fault from a legal cursor. -/
theorem primitive_completes {P : State → Prop} (i : Instr) (hembed : i ≠ .embed) (hretrieve : i ≠ .retrieve)
    (hP : ∀ u : State, P (u.forget i) = P u) (hinside : s.cursorInside) (hs : P s) :
    (bodyOf i s).completes fun _ t => P t :=
  Res.completes_iff.2 ⟨fun _ => primitive_ne_fault hinside hembed hretrieve, fun _ _ h =>
    (body_keeps i hP s hs).of_done h⟩

/-- A fresh operation has the cursor at its start, an empty budget and the whole stream ahead (10_state.md R42). -/
theorem freshOperation_completes : (freshOperation s).completes fun _ t =>
    t.cursorLegal True ∧ t.brem = 0 ∧ t.pixelsAhead = t.imgw * t.imgh ∧
      t.streamAhead = framedLength t.srcName t.srcData := by
  refine Res.completes_iff.2 ⟨nofun, fun a t h => ?_⟩
  obtain ⟨_, u, hcinit, hfinit⟩ := Res.bind_eq_done.1 h
  obtain ⟨_, rfl⟩ := Res.done.inj hcinit
  obtain ⟨_, rfl⟩ := Res.done.inj hfinit
  rcases State.releaseSink_cases (s := { s with
    curx := 0, cury := 0, issued := false, exh := false, brem := 0, cnt := 0, bq := [], aq := [] })
    with ⟨_, hrelease⟩ | ⟨_, hrelease⟩ <;> rw [hrelease] <;>
    exact ⟨State.cursorLegal_of_start rfl rfl rfl, rfl, rfl, rfl⟩

/-! ### RETRIEVE -/

/-- A retrieval under way, with `n` pixels ahead of its cursor. -/
def State.retrieving (n : Nat) (s : State) : Prop := s.cursorLegal True ∧ s.pixelsAhead = n

theorem State.retrieving.inside (hs : s.retrieving n) : s.cursorInside := by
  obtain ⟨hcursor, _⟩ := hs
  exact hcursor.inside

/-- A RADV that goes on leaves fewer pixels ahead. -/
theorem radvStep_completes (hs : s.retrieving n) :
    (radvStep s).completes fun a t => a.stops = true ∨ ∃ m < n, t.retrieving m := by
  obtain ⟨hcursor, hahead⟩ := hs
  refine Res.completes_iff.2 ⟨fun _ => radvStep_ne_fault hcursor.inside, fun a t h => ?_⟩
  rcases radvStep_pixelsAhead h with hstops | hless
  · exact .inl hstops
  · exact .inr ⟨t.pixelsAhead, hahead ▸ hless, (radvStep_keeps_cursor s hcursor).of_done h, rfl⟩

/-- Each round takes a byte from AQ (42_bit_extractor.md R123), which FPUT leaves alone. -/
theorem feedBytes_completes (hs : s.retrieving n) (hk : s.aq.length < 8 * k) :
    (feedBytes k s).completes fun _ t => t.retrieving n := by
  induction k generalizing s with
  | zero => omega
  | succ k ih =>
    unfold feedBytes
    split
    next => exact hs
    next hbyte =>
      rw [packbStep_of_le (Nat.not_lt.1 hbyte), Res.bind_done]
      have hqueue : (s.aq.drop 8).length < 8 * k := by rw [List.length_drop]; omega
      refine Res.completes_bind (primitive_completes (P := fun u => u.retrieving n ∧ u.aq.length < 8 * k) .fput
        nofun nofun (fun _ => rfl) hs.inside ⟨hs, hqueue⟩) fun r t ⟨ht, hrest⟩ => ?_
      split
      next => exact ih ht hrest
      next => exact ht

/-- Each round that goes on has fewer pixels ahead. -/
theorem retrieveLoop_completes (hs : s.retrieving n) (hk : n < k) :
    (retrieveLoop k s).completes fun _ _ => True := by
  induction k generalizing s n with
  | zero => omega
  | succ k ih =>
    unfold retrieveLoop
    refine Res.completes_bind (radvStep_completes hs) fun a t ht => ?_
    split
    next => trivial
    next hgo =>
      obtain ⟨m, hless, ht⟩ := ht.resolve_left hgo
      refine Res.completes_bind (primitive_completes (P := State.retrieving m) .pext nofun nofun (fun _ => rfl)
        ht.inside ht) fun _ u hu => ?_
      refine Res.completes_bind (feedBytes_completes hu (by omega)) fun e v hv => ?_
      cases e with
      | some r => trivial
      | none => exact ih hv (by omega)

theorem retrieveStep_completes : (retrieveStep s).completes fun _ _ => True := by
  unfold retrieveStep
  refine Res.completes_bind freshOperation_completes fun _ t ⟨hcursor, _, hahead, _⟩ => ?_
  refine Res.completes_bind (retrieveLoop_completes ⟨hcursor, hahead⟩ (Nat.lt_succ_self _)) fun a u _ => ?_
  unfold retrieveEnd
  split <;> trivial

/-! ### EMBED -/

/-- An embedding under way, with `n` bytes of the stream ahead: the mask enables a slot, and the budget is one PEMB
accepts (41_bit_embedder.md R107). -/
def State.embedding (n : Nat) (s : State) : Prop :=
  s.cursorLegal True ∧ 0 < slotCount s.mask ∧ s.brem ≤ slotCount s.mask ∧ s.streamAhead = n

theorem State.embedding.inside (hs : s.embedding n) : s.cursorInside := by
  obtain ⟨hcursor, _⟩ := hs
  exact hcursor.inside

/-- How an advance of the write cursor leaves the budget: at a full one, or, where it does not go on, kept or cleared
(43_pixel_cursor.md R134). -/
def Answer.Budgets (a : Answer) (s t : State) : Prop :=
  t.brem = slotCount s.mask ∨ a.stops = true ∧ (t.brem = s.brem ∨ t.brem = 0)

theorem firstAdvance_budgets (h : firstAdvance true s = .done a t) : a.Budgets s t := by
  rcases firstAdvance_cases h with ⟨_, ha, rfl⟩ | ⟨_, _, _, rfl⟩ | ⟨_, _, ha, rfl⟩
  · exact .inr ⟨Answer.stops_of_exhausted ha, .inr rfl⟩
  · exact .inl rfl
  · exact .inr ⟨Answer.stops_of_ioFailure ha, .inl rfl⟩

theorem moveAndRead_budgets (h : moveAndRead true s = .done a t) : a.Budgets s t := by
  rcases moveAndRead_cases h with ⟨_, ha, rfl⟩ | ⟨_, _, _, rfl⟩ | ⟨_, _, ha, rfl⟩
  · exact .inr ⟨Answer.stops_of_exhausted ha, .inr rfl⟩
  · exact .inl rfl
  · exact .inr ⟨Answer.stops_of_ioFailure ha, .inl rfl⟩

/-- A commit leaves the mask and the budget alone. -/
theorem Answer.Budgets.of_afterCommit {x y : Nat} {p : Pixel} (h : a.Budgets (s.afterCommit x y p) t) :
    a.Budgets s t := h

theorem wadvStep_budgets (h : wadvStep s = .done a t) : a.Budgets s t := by
  rcases wadvStep_cases h with ⟨_, ha, rfl⟩ | ⟨_, _, hfirst⟩ | ⟨_, _, _, _, hmove⟩ | ⟨_, _, _, _, ha, rfl⟩
  · exact .inr ⟨Answer.stops_of_exhausted ha, .inl rfl⟩
  · exact firstAdvance_budgets hfirst
  · exact (moveAndRead_budgets hmove).of_afterCommit
  · exact .inr ⟨Answer.stops_of_ioFailure ha, .inl rfl⟩

/-- R193: a request for a pixel that goes on has left a budget. -/
theorem requestPixel_completes (hs : s.embedding n) : (requestPixel s).completes fun a t =>
    t.embedding n ∧ t.bq = s.bq ∧ (a.stops = true ∨ 0 < t.brem) := by
  have ⟨hcursor, hslots, hbrem, hahead⟩ := hs
  unfold requestPixel
  split
  next =>
    refine Res.completes_iff.2 ⟨fun _ => wadvStep_ne_fault hs.inside, fun a t h => ?_⟩
    have hframe : SameBut .wadv s t := wadvStep_frame.of_done h
    have hmask : t.mask = s.mask := hframe.keeps State.mask fun _ => rfl
    have hstream : t.streamAhead = s.streamAhead := hframe.keeps State.streamAhead fun _ => rfl
    have hqueue : t.bq = s.bq := hframe.keeps State.bq fun _ => rfl
    have hbudget := wadvStep_budgets h
    unfold Answer.Budgets at hbudget
    refine ⟨⟨(wadvStep_keeps_cursor s hcursor).of_done h, hmask ▸ hslots, ?_, hstream.trans hahead⟩, hqueue, ?_⟩
    · rw [hmask]
      omega
    · exact hbudget.elim (fun hfull => .inr (hfull ▸ hslots)) fun hkept => .inl hkept.1
  next hleft => exact ⟨hs, rfl, .inr (Nat.pos_of_ne_zero hleft)⟩

/-- Each round takes at least one bit from BQ (41_bit_embedder.md R107). -/
theorem drainQueue_completes (hs : s.embedding n) (hk : s.bq.length < k) :
    (drainQueue k s).completes fun _ t => t.embedding n := by
  induction k generalizing s with
  | zero => omega
  | succ k ih =>
    unfold drainQueue
    split
    next => exact hs
    next hbits =>
      have hwaiting : 0 < s.bq.length := List.length_pos_iff.2 hbits
      refine Res.completes_bind (requestPixel_completes hs) fun a t ⟨ht, hqueue, hbudget⟩ => ?_
      split
      next => exact ht
      next hgo =>
        have hleft : 0 < t.brem := hbudget.resolve_left hgo
        obtain ⟨hcursor, hslots, hbrem, hahead⟩ := ht
        rw [pembStep_of_le hbrem, Res.bind_done]
        refine ih ⟨hcursor, hslots, (Nat.sub_le ..).trans hbrem, hahead⟩ ?_
        rw [List.length_drop, hqueue]
        omega

/-- An FNEXT that goes on leaves fewer bytes ahead (44_payload_framer.md R156). -/
theorem fnextStep_streamAhead (h : fnextStep s = .done a t) :
    a.code = .endOfStream ∨ a.code = .ioFailure ∨ t.streamAhead < s.streamAhead := by
  rcases fnextStep_cases h with ⟨_, rfl, _⟩ | ⟨_, hcomp, hemit⟩ | ⟨_, hcomp, hemit⟩ | ⟨_, _, _, rfl, _⟩ |
    ⟨_, _, _, _, rfl, _⟩ | ⟨b, _, hcomp, _, hb, _, rfl⟩
  · exact .inl rfl
  · refine .inr (.inr ?_)
    rcases emitFrom_cases hemit with ⟨b, hb, _, rfl⟩ | ⟨_, _, rfl⟩
    · have hidx := (List.getElem?_eq_some_iff.1 hb).1
      simp only [State.streamAhead, hcomp]
      omega
    · simp only [State.streamAhead, hcomp]
      omega
  · refine .inr (.inr ?_)
    rcases emitFrom_cases hemit with ⟨b, hb, _, rfl⟩ | ⟨_, _, rfl⟩
    · have hidx := (List.getElem?_eq_some_iff.1 hb).1
      simp only [State.streamAhead, hcomp]
      omega
    · simp only [State.streamAhead, hcomp]
      omega
  · exact .inr (.inl rfl)
  · exact .inl rfl
  · have hrcnt := (List.getElem?_eq_some_iff.1 hb).1
    refine .inr (.inr ?_)
    simp only [State.streamAhead, State.afterRead, State.logUse, hcomp]
    omega

theorem fnextStep_completes (hs : s.embedding n) : (fnextStep s).completes fun a t =>
    t.cursorLegal True ∧ (a.code = .endOfStream ∨ a.code = .ioFailure ∨ ∃ m < n, t.embedding m) := by
  obtain ⟨hcursor, hslots, hbrem, hahead⟩ := hs
  refine Res.completes_iff.2 ⟨fun _ => fnextStep_ne_fault, fun a t h => ?_⟩
  obtain ⟨hcursor', hslots', hbrem'⟩ :=
    (body_keeps (P := fun u => u.cursorLegal True ∧ 0 < slotCount u.mask ∧ u.brem ≤ slotCount u.mask) .fnext
      (fun _ => rfl) s ⟨hcursor, hslots, hbrem⟩).of_done h
  exact ⟨hcursor', (fnextStep_streamAhead h).imp_right (Or.imp_right fun hless =>
    ⟨t.streamAhead, hahead ▸ hless, hcursor', hslots', hbrem', rfl⟩)⟩

/-- Each round that goes on has fewer bytes ahead. -/
theorem embedLoop_completes (hs : s.embedding n) (hk : n < k) :
    (embedLoop k s).completes fun _ t => t.cursorInside := by
  induction k generalizing s n with
  | zero => omega
  | succ k ih =>
    unfold embedLoop
    refine Res.completes_bind (fnextStep_completes hs) fun r t ⟨hcursor, ht⟩ => ?_
    split
    next => exact hcursor.inside
    next hmore =>
      split
      next => exact hcursor.inside
      next hread =>
        obtain ⟨m, hless, ht⟩ := (ht.resolve_left hmore).resolve_left hread
        refine Res.completes_bind (primitive_completes (P := State.embedding m) .expb nofun nofun (fun _ => rfl)
          ht.inside ht) fun _ u hu => ?_
        refine Res.completes_bind (drainQueue_completes hu (Nat.lt_succ_self _)) fun e v hv => ?_
        cases e with
        | some a => exact hv.inside
        | none => exact ih hv (by omega)

theorem embedFailed_completes {zcap : Bool} : (embedFailed zcap a s).completes fun _ _ => True := by
  unfold embedFailed
  split <;> trivial

theorem embedFlush_completes {zcap : Bool} (hs : s.cursorInside) :
    (embedFlush zcap s).completes fun _ _ => True := by
  unfold embedFlush
  refine Res.completes_bind (primitive_completes (P := fun _ => True) .wadv nofun nofun (fun _ => rfl) hs trivial)
    fun a t _ => ?_
  split
  next => exact embedFailed_completes
  next => trivial

/-- A mask that enables no slot has capacity 0, which no framed stream fits (45_capacity.md R171). -/
theorem slotCount_pos_of_capacity (h : framedLength s.srcName s.srcData ≤ imageCapacity s) :
    0 < slotCount s.mask := by
  refine Nat.pos_of_ne_zero fun hnone => ?_
  have hbits : popcount s.mask = 0 := by unfold slotCount at hnone; omega
  have hcapacity : imageCapacity s = 0 := by rw [imageCapacity, hbits, capacity, Nat.mul_zero, Nat.zero_div]
  rw [hcapacity] at h
  unfold framedLength at h
  omega

theorem embedStep_completes : (embedStep s).completes fun _ _ => True := by
  unfold embedStep
  refine Res.completes_bind freshOperation_completes fun _ t ⟨hcursor, hbrem, _, hstream⟩ => ?_
  dsimp only
  split
  next => trivial
  next hroom =>
    have hslots : 0 < slotCount t.mask := slotCount_pos_of_capacity (Nat.not_lt.1 hroom)
    have ht : (loadEmbedSizes t).embedding (framedLength t.srcName t.srcData) :=
      ⟨hcursor, hslots, hbrem ▸ Nat.zero_le _, hstream⟩
    refine Res.completes_bind (embedLoop_completes ht (Nat.lt_succ_self _)) fun e u hu => ?_
    cases e with
    | some a => exact embedFailed_completes
    | none => exact embedFlush_completes hu

/-! ### Every command -/

/-- EMBED and RETRIEVE begin with a fresh cursor, so they fault from no state at all. -/
theorem body_ne_fault (hs : s.cursorInside) : bodyOf i s ≠ .fault f := by
  by_cases hembed : i = .embed
  · subst hembed
    exact embedStep_completes.ne_fault f
  by_cases hretrieve : i = .retrieve
  · subst hretrieve
    exact retrieveStep_completes.ne_fault f
  exact primitive_ne_fault hs hembed hretrieve

/-- A command whose body does not fault gives a next state. -/
theorem exec_next_of_ne_fault (h : ∀ f, bodyOf i s ≠ .fault f) : ∃ t, exec i s = .next t := by
  have hfinish : ∃ t, finish (bodyOf i s) = .next t := by
    cases hbody : bodyOf i s with
    | done a t => exact ⟨_, rfl⟩
    | hang t => exact ⟨_, rfl⟩
    | fault f => exact absurd hbody (h f)
  by_cases hread : ∃ imm8, i = .rdreg imm8
  · obtain ⟨imm8, rfl⟩ := hread
    cases hv : readRegister s (byteOperand imm8) with
    | some v => exact ⟨_, exec_rdreg_of_some hv⟩
    | none => rwa [exec_rdreg_of_none hv]
  · rwa [exec_eq_finish fun imm8 hi => hread ⟨imm8, hi⟩]

end

/-- Settles O56: no body faults, the two operations' because their loops end before their bounds. -/
theorem commandsNeverLeaveTheImage : Obligations.CommandsNeverLeaveTheImage := by
  unfold Obligations.CommandsNeverLeaveTheImage
  exact fun i s hs => exec_next_of_ne_fault fun _ => body_ne_fault hs

end Sys2Proof.Machine

/-! SUPPORT. The decimal numeral and its inverse (spec/44_payload_framer.md R152, R161): a numeral of ten or more is
that of its tenth with one digit behind it, from which every law of dec follows by induction on the number. -/

namespace Sys2Proof.Machine

section
variable {v k j : Nat} {text : List Byte} {b : Byte}

/-! ### dec (R152) -/

/-- Any bound above the number yields the same numeral. -/
theorem decUpTo_eq_of_lt (hk : v < k) (hj : v < j) : decUpTo k v = decUpTo j v := by
  induction k generalizing v j with
  | zero => omega
  | succ k ih =>
    cases j with
    | zero => omega
    | succ j =>
      unfold decUpTo
      split
      next => rfl
      next => rw [ih (j := j) (by omega) (by omega)]

theorem dec_of_lt (h : v < 10) : dec v = [digitByte v] := if_pos h

theorem dec_of_ge (h : 10 ≤ v) : dec v = dec (v / 10) ++ [digitByte (v % 10)] := by
  have hfront : decUpTo v (v / 10) = dec (v / 10) := decUpTo_eq_of_lt (by omega) (Nat.lt_succ_self _)
  rw [← hfront]
  exact if_neg (Nat.not_lt.2 h)

/-- What holds of every digit, and of a numeral with a digit behind it, holds of every numeral. -/
theorem dec_induction {P : Nat → List Byte → Prop} (hdigit : ∀ d, d < 10 → P d [digitByte d])
    (hmore : ∀ v, 10 ≤ v → P (v / 10) (dec (v / 10)) → P v (dec (v / 10) ++ [digitByte (v % 10)])) (v : Nat) :
    P v (dec v) := by
  induction v using Nat.strongRecOn with
  | ind v ih =>
    rcases Nat.lt_or_ge v 10 with hlt | hge
    · rw [dec_of_lt hlt]
      exact hdigit v hlt
    · rw [dec_of_ge hge]
      exact hmore v hge (ih (v / 10) (by omega))

theorem digitByte_toNat (h : v < 10) : (digitByte v).toNat = 0x30 + v := by
  rw [digitByte, BitVec.toNat_ofNat]
  omega

theorem dec_ne_nil (v : Nat) : dec v ≠ [] :=
  dec_induction (P := fun _ text => text ≠ []) (fun _ _ => List.cons_ne_nil _ _)
    (fun _ _ _ => List.append_ne_nil_of_right_ne_nil _ (List.cons_ne_nil _ _)) v

theorem digit_of_mem_dec (v : Nat) : ∀ b ∈ dec v, 0x30 ≤ b.toNat ∧ b.toNat ≤ 0x39 := by
  have hdigit : ∀ d, d < 10 → 0x30 ≤ (digitByte d).toNat ∧ (digitByte d).toNat ≤ 0x39 := by
    intro d hd
    rw [digitByte_toNat hd]
    omega
  refine dec_induction (P := fun _ text => ∀ b ∈ text, 0x30 ≤ b.toNat ∧ b.toNat ≤ 0x39) ?digit ?more v
  case digit =>
    intro d hd
    exact List.forall_mem_singleton.2 (hdigit d hd)
  case more =>
    intro v _ ih
    exact List.forall_mem_append.2 ⟨ih, List.forall_mem_singleton.2 (hdigit _ (Nat.mod_lt v (by decide)))⟩

/-- No character of a numeral is the NUL that ends it in a frame (R153). -/
theorem nul_notMem_dec (v : Nat) : 0x00#8 ∉ dec v := by
  intro hmem
  have hdigit := (digit_of_mem_dec v _ hmem).1
  exact absurd hdigit (by decide)

theorem decimalValue_concat (text : List Byte) (b : Byte) :
    decimalValue (text ++ [b]) = 10 * decimalValue text + (b.toNat - 0x30) := by
  rw [decimalValue, List.foldl_append]
  rfl

theorem decimalValue_dec (v : Nat) : decimalValue (dec v) = v := by
  refine dec_induction (P := fun v text => decimalValue text = v) ?digit ?more v
  case digit =>
    intro d hd
    have hvalue : decimalValue [digitByte d] = (digitByte d).toNat - 0x30 := Nat.zero_add _
    rw [hvalue, digitByte_toNat hd]
    omega
  case more =>
    intro v _ ih
    rw [decimalValue_concat, ih, digitByte_toNat (Nat.mod_lt v (by decide))]
    omega

/-- The numeral of a number other than 0 has no leading zero. -/
theorem head?_dec_ne_zero (h : v ≠ 0) : (dec v).head? ≠ some 0x30#8 := by
  refine dec_induction (P := fun v text => v ≠ 0 → text.head? ≠ some 0x30#8) ?digit ?more v h
  case digit =>
    intro d hd hpos hhead
    have hcode := congrArg BitVec.toNat (Option.some.inj hhead)
    rw [digitByte_toNat hd, BitVec.toNat_ofNat] at hcode
    omega
  case more =>
    intro v hge ih _
    rw [List.head?_append_of_ne_nil _ (dec_ne_nil _)]
    exact ih (by omega)

/-! ### parse_size (R161) -/

theorem isDigit_iff : isDigit b = true ↔ 0x30 ≤ b.toNat ∧ b.toNat ≤ 0x39 := by
  rw [isDigit, Bool.and_eq_true, decide_eq_true_iff, decide_eq_true_iff]

theorem parseSize_eq_some_iff : parseSize text = some v ↔
    text ≠ [] ∧ (∀ b ∈ text, 0x30 ≤ b.toNat ∧ b.toNat ≤ 0x39) ∧ decimalValue text = v ∧
      1 ≤ v ∧ v ≤ 2 ^ 32 - 1 := by
  simp only [parseSize, Option.ite_none_right_eq_some, List.all_eq_true, isDigit_iff, Option.some.injEq,
    Config.sizeW]
  constructor
  · rintro ⟨⟨hne, hdigits, hlo, hhi⟩, rfl⟩
    exact ⟨hne, hdigits, rfl, hlo, hhi⟩
  · rintro ⟨hne, hdigits, rfl, hlo, hhi⟩
    exact ⟨⟨hne, hdigits, hlo, hhi⟩, rfl⟩

theorem parseSize_dec (hlo : 1 ≤ v) (hhi : v ≤ 2 ^ 32 - 1) : parseSize (dec v) = some v :=
  parseSize_eq_some_iff.2 ⟨dec_ne_nil v, digit_of_mem_dec v, decimalValue_dec v, hlo, hhi⟩

end

/-- Settles O38: each law is one of dec's, by induction on the number; the length is bounded by the powers of ten. -/
theorem decIsTheShortestNumeral : Obligations.DecIsTheShortestNumeral := by
  unfold Obligations.DecIsTheShortestNumeral
  exact fun v => ⟨dec_ne_nil v, digit_of_mem_dec v, decimalValue_dec v, head?_dec_ne_zero, dec_of_lt (by decide),
    dec_length_le⟩

/-- Settles O39: parse_size tests the four conditions; of those `dec 0` fails the bound below. -/
theorem parseSizeInvertsDec : Obligations.ParseSizeInvertsDec := by
  unfold Obligations.ParseSizeInvertsDec
  refine ⟨fun _ _ => parseSize_eq_some_iff, fun _ => parseSize_dec, ?_⟩
  refine Option.eq_none_iff_forall_ne_some.2 fun v hv => ?_
  obtain ⟨_, _, hvalue, hpos, _⟩ := parseSize_eq_some_iff.1 hv
  rw [decimalValue_dec] at hvalue
  omega

end Sys2Proof.Machine

/-! SUPPORT. The payload framer's commands (spec/44_payload_framer.md R150, R156, R160): FNEXT and FPUT in each
component, by how the component's text goes on and how the port answers. -/

namespace Sys2Proof.Machine

section
variable {s t : State} {a : Answer} {i : Instr} {next : Component} {text : List Byte} {b : Byte} {v : Nat}
  {w : BitVec 11}

/-! ### The response and the ports -/

/-- A command with an answer leaves what its body left, the answer in STATUS and one response. -/
theorem exec_of_answer (hread : ∀ imm8, i ≠ .rdreg imm8) (h : bodyOf i s = .done a t)
    (hstatus : statusWord a.code a.port a.zcap = w) :
    exec i s = .next { t with status := w, responses := t.responses ++ [⟨a.code, a.value⟩] } := by
  rw [exec_of_done hread h, ← hstatus]
  rfl

/-- IO_FAILURE of SrcRead in STATUS (10_state.md R40; 60_exceptions.md R210, R216). -/
theorem statusWord_failedRead : statusWord .ioFailure (some .srcRead) false = 0x204#11 := by decide

/-- IO_FAILURE of the sink in STATUS (10_state.md R40; 60_exceptions.md R210, R216). -/
theorem statusWord_failedSink : statusWord .ioFailure (some .sink) false = 0x304#11 := by decide

theorem statusWord_endOfStream : statusWord .endOfStream none false = 0x011#11 := by decide

theorem statusWord_noSecretFound : statusWord .noSecretFound none false = 0x002#11 := by decide

theorem statusWord_done : statusWord .done none false = 0x014#11 := by decide

/-- An access whose next answer is fail. -/
theorem request_of_fail {use : PortAnswer → PortUse} (hfail : s.answers.headD .ok = .fail) :
    request use s = .done false { s.logUse (use .fail) with answers := s.answers.tail } :=
  request_eq_done.2 (.inr ⟨rfl, hfail, rfl⟩)

/-! ### FINIT (R150) -/

/-- A sink left open is closed, and the framer is in its start state. -/
theorem finitStep_eq (s : State) : finitStep s = .done (okWith 0)
    { s with
      comp := .fileName, idx := 0, rcnt := 0, sizev := 0
      sinkopen := false, done := false, failed := false, send := false, namebuf := [], sizebuf := []
      ports := s.ports ++ (if s.sinkopen then [.sinkClose] else []) } := by
  unfold finitStep
  rcases s.releaseSink_cases with ⟨hopen, hrelease⟩ | ⟨hclosed, hrelease⟩
  · rw [hrelease, hopen]
    rfl
  · rw [hrelease, hclosed, if_neg Bool.false_ne_true, List.append_nil]

/-! ### FNEXT (R156) -/

theorem emitFrom_of_char (h : text[s.idx]? = some b) :
    emitFrom text next s = .done (okWith b.toNat) { s with idx := s.idx + 1, byter := b } := by
  rw [emitFrom, h]
  rfl

theorem emitFrom_of_end (h : text.length ≤ s.idx) :
    emitFrom text next s = .done (okWith 0) { s with comp := next, idx := 0, byter := 0x00#8 } := by
  rw [emitFrom, List.getElem?_eq_none h]
  rfl

/-- The component is a string, with the component after it. -/
def State.Spells (s : State) (text : List Byte) (next : Component) : Prop :=
  (s.comp = .fileName ∧ text = s.srcName ∧ next = .fileSize) ∨
    (s.comp = .fileSize ∧ text = dec s.srcData.length ∧ next = .rawData)

theorem fnextStep_of_spells (hsend : s.send = false) (h : s.Spells text next) :
    fnextStep s = emitFrom text next s := by
  rcases h with ⟨hcomp, rfl, rfl⟩ | ⟨hcomp, rfl, rfl⟩ <;>
    simp only [fnextStep, hsend, hcomp, Bool.false_eq_true, if_false]

theorem srcRead_of_ok (hok : s.nextAccessOk) :
    srcRead s.rcnt s = .done (sourceByteAt s.srcData s.rcnt) (s.afterRead .ok) :=
  srcRead_eq_done.2 (.inl ⟨rfl, hok, rfl⟩)

theorem srcRead_of_fail (hfail : s.answers.headD .ok = .fail) :
    srcRead s.rcnt s = .done .failed (s.afterRead .fail) :=
  srcRead_eq_done.2 (.inr ⟨rfl, hfail, rfl⟩)

theorem fnextStep_of_byte (hsend : s.send = false) (hcomp : s.comp = .rawData) (hok : s.nextAccessOk)
    (hb : s.srcData[s.rcnt]? = some b) :
    fnextStep s = .done (okWith b.toNat) { s.afterRead .ok with rcnt := s.rcnt + 1, byter := b } := by
  simp only [fnextStep, hsend, hcomp, Bool.false_eq_true, if_false, srcRead_of_ok hok, sourceByteAt, hb,
    Res.bind_done]
  rfl

theorem fnextStep_of_streamEnd (hsend : s.send = false) (hcomp : s.comp = .rawData) (hok : s.nextAccessOk)
    (hend : s.srcData.length ≤ s.rcnt) :
    fnextStep s = .done (endOfStreamAnswer s) { s.afterRead .ok with send := true } := by
  simp only [fnextStep, hsend, hcomp, Bool.false_eq_true, if_false, srcRead_of_ok hok, sourceByteAt,
    List.getElem?_eq_none hend, Res.bind_done]
  rfl

theorem fnextStep_of_failedRead (hsend : s.send = false) (hcomp : s.comp = .rawData)
    (hfail : s.answers.headD .ok = .fail) :
    fnextStep s = .done (ioFailure .srcRead s.rcnt) (s.afterRead .fail) := by
  simp only [fnextStep, hsend, hcomp, Bool.false_eq_true, if_false, srcRead_of_fail hfail, Res.bind_done]
  rfl

/-! ### FPUT (R160) -/

theorem fputStep_of_fileName (hdone : s.done = false) (hfailed : s.failed = false) (hcomp : s.comp = .fileName) :
    fputStep s = fputName s := by
  simp only [fputStep, hdone, hfailed, hcomp, Bool.false_eq_true, if_false]

theorem fputStep_of_fileSize (hdone : s.done = false) (hfailed : s.failed = false) (hcomp : s.comp = .fileSize) :
    fputStep s = fputSize s := by
  simp only [fputStep, hdone, hfailed, hcomp, Bool.false_eq_true, if_false]

theorem fputStep_of_rawData (hdone : s.done = false) (hfailed : s.failed = false) (hcomp : s.comp = .rawData) :
    fputStep s = fputRaw s := by
  simp only [fputStep, hdone, hfailed, hcomp, Bool.false_eq_true, if_false]

theorem fputName_of_char (hb : s.byter ≠ 0x00#8) :
    fputName s = .done (okWith s.byter.toNat) { s with namebuf := s.namebuf ++ [s.byter] } :=
  if_pos hb

theorem fputName_of_nul (hb : s.byter = 0x00#8) (hok : s.nextAccessOk) :
    fputName s = .done (okWith 0) { s.afterOpen .ok with sinkopen := true, comp := .fileSize } := by
  rw [fputName, if_neg (not_not_intro hb), sinkOpen, request_of_ok hok]
  rfl

theorem fputName_of_failedOpen (hb : s.byter = 0x00#8) (hfail : s.answers.headD .ok = .fail) :
    fputName s = .done (ioFailure .sink 0) (s.afterOpen .fail) := by
  rw [fputName, if_neg (not_not_intro hb), sinkOpen, request_of_fail hfail]
  rfl

theorem fputSize_of_char (hb : s.byter ≠ 0x00#8) :
    fputSize s = .done (okWith s.byter.toNat) { s with sizebuf := s.sizebuf ++ [s.byter] } :=
  if_pos hb

theorem fputSize_of_size (hb : s.byter = 0x00#8) (hsize : parseSize s.sizebuf = some v) :
    fputSize s = .done (okWith 0) { s with sizev := v, comp := .rawData } := by
  rw [fputSize, if_neg (not_not_intro hb), hsize]

/-- A size string that does not parse discards the sink when it is open. -/
theorem fputSize_of_noSize (hb : s.byter = 0x00#8) (hsize : parseSize s.sizebuf = none) :
    fputSize s = .done noSecretAnswer
      { s with
        sinkopen := false, failed := true
        ports := s.ports ++ (if s.sinkopen then [.sinkDiscard] else []) } := by
  rw [fputSize, if_neg (not_not_intro hb), hsize]
  cases hopen : s.sinkopen with
  | true => rfl
  | false => simp only [Bool.false_eq_true, if_false, List.append_nil]

theorem fputRaw_of_more (hok : s.nextAccessOk) (hmore : s.rcnt + 1 ≠ s.sizev) :
    fputRaw s = .done (okWith s.byter.toNat) { s.afterWrite .ok with rcnt := s.rcnt + 1 } := by
  rw [fputRaw, sinkWrite, request_of_ok hok]
  exact if_neg hmore

theorem fputRaw_of_last (hok : s.nextAccessOk) (hlast : s.rcnt + 1 = s.sizev) :
    fputRaw s = .done { code := .done, value := s.rcnt + 1 }
      { (s.afterWrite .ok).sinkClose with rcnt := s.rcnt + 1, sinkopen := false, done := true } := by
  rw [fputRaw, sinkWrite, request_of_ok hok]
  exact if_pos hlast

theorem fputRaw_of_failedWrite (hfail : s.answers.headD .ok = .fail) :
    fputRaw s = .done (ioFailure .sink s.rcnt) (s.afterWrite .fail) := by
  rw [fputRaw, sinkWrite, request_of_fail hfail]
  rfl

end

/-- Settles O32: FINIT's body is the assignments of R150, after the release of the sink. -/
theorem finitStartsTheFramer : Obligations.FinitStartsTheFramer := by
  unfold Obligations.FinitStartsTheFramer
  exact fun s => ⟨decode_encode .finit, exec_of_okWith (i := .finit) nofun (finitStep_eq s)⟩

/-- Settles O33: each clause is one branch of the body. -/
theorem fnextEmitsTheNextByte : Obligations.FnextEmitsTheNextByte := by
  unfold Obligations.FnextEmitsTheNextByte
  intro s
  refine ⟨decode_encode .fnext, fun hsend => ?ended,
    fun text next hsend hspells => ⟨fun b hb => ?char, fun hend => ?nul⟩,
    fun hsend hcomp hok => ⟨fun b hb => ?byte, fun hend => ?streamEnd⟩, fun rest hsend hcomp hanswers => ?failed⟩
  case ended => exact exec_of_answer (i := .fnext) nofun (if_pos hsend) statusWord_endOfStream
  case char =>
    exact exec_of_okWith (i := .fnext) nofun ((fnextStep_of_spells hsend hspells).trans (emitFrom_of_char hb))
  case nul =>
    exact exec_of_okWith (i := .fnext) nofun ((fnextStep_of_spells hsend hspells).trans (emitFrom_of_end hend))
  case byte => exact exec_of_okWith (i := .fnext) nofun (fnextStep_of_byte hsend hcomp hok hb)
  case streamEnd =>
    exact exec_of_answer (i := .fnext) nofun (fnextStep_of_streamEnd hsend hcomp hok hend.ge) statusWord_endOfStream
  case failed =>
    have hfail : s.answers.headD .ok = .fail := by rw [hanswers]; rfl
    rw [exec_of_answer (i := .fnext) nofun (fnextStep_of_failedRead hsend hcomp hfail) statusWord_failedRead]
    simp only [State.afterRead, State.logUse, hanswers, List.tail_cons, ioFailure]

/-- Settles O35: a character, or a NUL by how the sink answers. -/
theorem fputCollectsTheName : Obligations.FputCollectsTheName := by
  unfold Obligations.FputCollectsTheName
  intro s hdone hfailed hcomp
  have hstep : bodyOf .fput s = fputName s := fputStep_of_fileName hdone hfailed hcomp
  refine ⟨fun hb => ?char, fun hb hok => ?nul, fun rest hb hanswers => ?failed⟩
  case char => exact exec_of_okWith (i := .fput) nofun (hstep.trans (fputName_of_char hb))
  case nul => exact exec_of_okWith (i := .fput) nofun (hstep.trans (fputName_of_nul hb hok))
  case failed =>
    have hfail : s.answers.headD .ok = .fail := by rw [hanswers]; rfl
    rw [exec_of_answer (i := .fput) nofun (hstep.trans (fputName_of_failedOpen hb hfail)) statusWord_failedSink]
    simp only [State.afterOpen, State.logUse, hanswers, List.tail_cons, ioFailure]

/-- Settles O36: a character, or a NUL by what the size string parses to. -/
theorem fputParsesTheSize : Obligations.FputParsesTheSize := by
  unfold Obligations.FputParsesTheSize
  intro s hdone hfailed hcomp
  have hstep : bodyOf .fput s = fputSize s := fputStep_of_fileSize hdone hfailed hcomp
  exact ⟨fun hb => exec_of_okWith (i := .fput) nofun (hstep.trans (fputSize_of_char hb)),
    fun v hb hsize => exec_of_okWith (i := .fput) nofun (hstep.trans (fputSize_of_size hb hsize)),
    fun hb hsize => exec_of_answer (i := .fput) nofun (hstep.trans (fputSize_of_noSize hb hsize))
      statusWord_noSecretFound⟩

/-- Settles O37: a write that answers ok, of the last byte or of another, and one that fails. -/
theorem fputWritesRawData : Obligations.FputWritesRawData := by
  unfold Obligations.FputWritesRawData
  intro s hdone hfailed hcomp
  have hstep : bodyOf .fput s = fputRaw s := fputStep_of_rawData hdone hfailed hcomp
  refine ⟨fun hok hmore => ?more, fun hok hlast => ?last, fun rest hanswers => ?failed⟩
  case more => exact exec_of_okWith (i := .fput) nofun (hstep.trans (fputRaw_of_more hok hmore))
  case last =>
    rw [exec_of_answer (i := .fput) nofun (hstep.trans (fputRaw_of_last hok hlast)) statusWord_done]
    simp only [State.afterWrite, State.logUse, State.sinkClose, List.append_assoc, List.cons_append, List.nil_append,
      hlast]
  case failed =>
    have hfail : s.answers.headD .ok = .fail := by rw [hanswers]; rfl
    rw [exec_of_answer (i := .fput) nofun (hstep.trans (fputRaw_of_failedWrite hfail)) statusWord_failedSink]
    simp only [State.afterWrite, State.logUse, hanswers, List.tail_cons, ioFailure]

end Sys2Proof.Machine

/-! SUPPORT. The framed stream (spec/44_payload_framer.md R153, R155, R156): the bytes ahead of the serializer are the
frame after FINIT, and every FNEXT takes the first of them. -/

namespace Sys2Proof.Machine

section
variable {s t : State} {text bytes rest : List Byte} {after : Component} {b : Byte}

/-- The bytes of the stream from a component on, its own text from index `i` on (R153). -/
def State.bytesFrom (s : State) : Component → Nat → List Byte
  | .fileName, i => s.srcName.drop i ++ 0x00#8 :: (dec s.srcData.length ++ 0x00#8 :: s.srcData.drop s.rcnt)
  | .fileSize, i => (dec s.srcData.length).drop i ++ 0x00#8 :: s.srcData.drop s.rcnt
  | .rawData, _ => s.srcData.drop s.rcnt

/-- The bytes FNEXT has not emitted yet. -/
def State.bytesAhead (s : State) : List Byte := s.bytesFrom s.comp s.idx

/-- The stream of the source of `s` has reached state `t`, with `rest` to come. -/
structure State.Streaming (s : State) (rest : List Byte) (t : State) : Prop where
  srcName : t.srcName = s.srcName
  srcData : t.srcData = s.srcData
  send : t.send = false
  ports : t.portsAnswerOk
  counted : t.rcnt ≤ t.srcData.length
  ahead : t.bytesAhead = rest

/-- A string component is what is left of its text, the NUL, and the component after it. -/
theorem State.Spells.bytesAhead (h : t.Spells text after) :
    t.bytesAhead = text.drop t.idx ++ 0x00#8 :: t.bytesFrom after 0 := by
  unfold State.bytesAhead
  rcases h with ⟨hcomp, rfl, rfl⟩ | ⟨hcomp, rfl, rfl⟩ <;> rw [hcomp] <;> rfl

theorem State.bytesAhead_of_rawData (hcomp : t.comp = .rawData) : t.bytesAhead = t.srcData.drop t.rcnt := by
  rw [State.bytesAhead, hcomp]
  rfl

/-- Every component but RawData is a string. -/
theorem State.spells_or_rawData (t : State) : (∃ text after, t.Spells text after) ∨ t.comp = .rawData := by
  cases hcomp : t.comp with
  | fileName => exact .inl ⟨_, _, .inl ⟨hcomp, rfl, rfl⟩⟩
  | fileSize => exact .inl ⟨_, _, .inr ⟨hcomp, rfl, rfl⟩⟩
  | rawData => exact .inr rfl

/-- After FINIT the whole frame is ahead (R150, R155). -/
theorem streaming_of_finit (hok : s.portsAnswerOk) :
    ∃ t, exec .finit s = .next t ∧ s.Streaming (frame s.srcName s.srcData) t ∧
      t.responses = s.responses ++ [⟨.ok, 0⟩] := by
  obtain ⟨_, hfinit⟩ := finitStartsTheFramer s
  refine ⟨_, hfinit, ?_, rfl⟩
  exact {
    srcName := rfl, srcData := rfl, send := rfl, ports := hok, counted := Nat.zero_le _
    ahead := by simp only [State.bytesAhead, State.bytesFrom, frame, List.drop_zero, List.append_assoc,
      List.cons_append, List.nil_append] }

/-- FNEXT emits the first byte ahead (R156). -/
theorem State.Streaming.next (h : s.Streaming (b :: rest) t) :
    ∃ u, exec .fnext t = .next u ∧ s.Streaming rest u ∧ u.responses = t.responses ++ [⟨.ok, b.toNat⟩] := by
  obtain ⟨_, _, hstring, hraw, _⟩ := fnextEmitsTheNextByte t
  have hahead := h.ahead
  rcases t.spells_or_rawData with ⟨text, after, hspells⟩ | hcomp
  · obtain ⟨hchar, hnul⟩ := hstring text after h.send hspells
    rw [hspells.bytesAhead] at hahead
    rcases Nat.lt_or_ge t.idx text.length with hmore | hend
    · rw [List.drop_eq_getElem_cons hmore, List.cons_append] at hahead
      obtain ⟨rfl, rfl⟩ := List.cons.inj hahead
      refine ⟨_, hchar _ (List.getElem?_eq_getElem hmore), ?_, rfl⟩
      exact { h with ahead := State.Spells.bytesAhead hspells }
    · rw [List.drop_eq_nil_of_le hend, List.nil_append] at hahead
      obtain ⟨rfl, rfl⟩ := List.cons.inj hahead
      refine ⟨_, hnul hend, ?_, rfl⟩
      exact { h with ahead := rfl }
  · rw [State.bytesAhead_of_rawData hcomp] at hahead
    have hmore : t.rcnt < t.srcData.length := by
      have hlength := congrArg List.length hahead
      rw [List.length_drop, List.length_cons] at hlength
      omega
    rw [List.drop_eq_getElem_cons hmore] at hahead
    obtain ⟨rfl, rfl⟩ := List.cons.inj hahead
    obtain ⟨hbyte, _⟩ := hraw h.send hcomp h.ports.nextAccessOk
    refine ⟨_, hbyte _ (List.getElem?_eq_getElem hmore), ?_, rfl⟩
    exact { h with
      ports := fun _ hanswer => h.ports _ (List.mem_of_mem_tail hanswer)
      counted := hmore
      ahead := State.bytesAhead_of_rawData hcomp }

/-- As many FNEXT as there are bytes emit them in order (R155). -/
theorem State.Streaming.run (h : s.Streaming (bytes ++ rest) t) :
    ∃ u, runCommands (List.replicate bytes.length .fnext) t = .next u ∧ s.Streaming rest u ∧
      u.responses = t.responses ++ bytes.map (fun b => ⟨.ok, b.toNat⟩) := by
  induction bytes generalizing t with
  | nil => exact ⟨t, rfl, h, (List.append_nil _).symm⟩
  | cons b bytes ih =>
    obtain ⟨u, hexec, hu, hresponse⟩ := h.next
    obtain ⟨v, hrun, hv, hresponses⟩ := ih hu
    refine ⟨v, ?_, hv, ?_⟩
    · simp only [List.length_cons, List.replicate_succ, runCommands, hexec, hrun]
    · rw [hresponses, hresponse, List.append_assoc]
      rfl

/-- With no byte ahead FNEXT ends the stream (R156). -/
theorem State.Streaming.last (h : s.Streaming [] t) :
    ∃ u, exec .fnext t = .next u ∧ u.responses = t.responses ++ [⟨.endOfStream, s.srcData.length⟩] ∧
      u.send = true ∧ u.comp = .rawData ∧ u.rcnt = s.srcData.length := by
  obtain ⟨_, _, _, hraw, _⟩ := fnextEmitsTheNextByte t
  have hahead := h.ahead
  rcases t.spells_or_rawData with ⟨text, after, hspells⟩ | hcomp
  · rw [hspells.bytesAhead] at hahead
    exact absurd hahead (List.append_ne_nil_of_right_ne_nil _ (List.cons_ne_nil _ _))
  · rw [State.bytesAhead_of_rawData hcomp] at hahead
    have hend : t.rcnt = t.srcData.length := Nat.le_antisymm h.counted (List.drop_eq_nil_iff.1 hahead)
    have hlength : t.rcnt = s.srcData.length := hend.trans (congrArg List.length h.srcData)
    obtain ⟨_, hstreamEnd⟩ := hraw h.send hcomp h.ports.nextAccessOk
    exact ⟨_, hstreamEnd hend, by rw [hlength], rfl, hcomp, hlength⟩

/-- FINIT and as many FNEXT as a first part of the frame has bytes emit that part. -/
theorem streaming_of_frame_eq (hok : s.portsAnswerOk) (hframe : frame s.srcName s.srcData = bytes ++ rest) :
    ∃ t, runCommands (.finit :: List.replicate bytes.length .fnext) s = .next t ∧ s.Streaming rest t ∧
      t.responses = s.responses ++ [⟨.ok, 0⟩] ++ bytes.map (fun b => ⟨.ok, b.toNat⟩) := by
  obtain ⟨u, hfinit, hu, hresponse⟩ := streaming_of_finit hok
  rw [hframe] at hu
  obtain ⟨t, hrun, ht, hresponses⟩ := hu.run
  refine ⟨t, ?_, ht, hresponse ▸ hresponses⟩
  simp only [runCommands, hfinit, hrun]

end

/-- Settles O34: the stream after FINIT is the frame, which each FNEXT shortens by the byte it emits. -/
theorem fnextStreamIsTheFrame : Obligations.FnextStreamIsTheFrame := by
  unfold Obligations.FnextStreamIsTheFrame
  intro s hok
  refine ⟨fun k hk => ?_, ?_⟩
  · obtain ⟨t, hrun, _, hresponses⟩ := streaming_of_frame_eq hok (List.take_append_drop k _).symm
    rw [List.length_take_of_le hk] at hrun
    exact ⟨t, hrun, hresponses⟩
  · obtain ⟨t, hrun, ht, hresponses⟩ := streaming_of_frame_eq hok (List.append_nil _).symm
    obtain ⟨u, hexec, hresponse, hlast⟩ := ht.last
    refine ⟨u, ?_, hresponses ▸ hresponse, hlast⟩
    rw [List.replicate_succ']
    exact runCommands_concat hrun hexec

end Sys2Proof.Machine

/-! SUPPORT. The deserializer (spec/44_payload_framer.md R160 to R164): where it stands after the bytes it was fed, said
as a function of those bytes alone, which every FPUT follows whatever feeds it. -/

namespace Sys2Proof.Machine

/-! ### Where the deserializer stands -/

/-- What the bytes fed so far have come to. -/
inductive Phase where
  | naming (name : List Byte)
  | sizing (name size : List Byte)
  | writing (name : List Byte) (v : Nat) (data : List Byte)
  | delivered (name data : List Byte)
  | rejected (name : List Byte)

/-- What one more byte comes to (R160). -/
def Phase.feed : Phase → Byte → Phase
  | .naming name, b => if b ≠ 0x00#8 then .naming (name ++ [b]) else .sizing name []
  | .sizing name size, b =>
    if b ≠ 0x00#8 then .sizing name (size ++ [b])
    else match parseSize size with
      | some v => .writing name v []
      | none => .rejected name
  | .writing name v data, b =>
    if data.length + 1 = v then .delivered name (data ++ [b]) else .writing name v (data ++ [b])
  | .delivered name data, _ => .delivered name data
  | .rejected name, _ => .rejected name

/-- The answer that ends the deserialization, once it has ended (R162, R163). -/
def Phase.answer : Phase → Option Answer
  | .delivered _ data => some { code := .done, value := data.length }
  | .rejected _ => some noSecretAnswer
  | .naming _ | .sizing _ _ | .writing _ _ _ => none

/-- The events it has left in the trace (20_memory.md R58). -/
def Phase.events : Phase → List Event
  | .naming _ => []
  | .sizing name _ => [.sinkOpen name]
  | .writing name _ data => [.sinkOpen name] ++ data.map .sinkWrite
  | .delivered name data => [.sinkOpen name] ++ data.map .sinkWrite ++ [.sinkClose]
  | .rejected name => [.sinkOpen name, .sinkDiscard]

/-- The framer's registers stand at it (10_state.md R33 to R38). -/
def Phase.RegistersOf : Phase → State → Prop
  | .naming name, s =>
    (s.done = false ∧ s.failed = false ∧ s.comp = .fileName) ∧ s.sinkopen = false ∧ s.namebuf = name ∧
      s.sizebuf = [] ∧ s.sizev = 0 ∧ s.rcnt = 0
  | .sizing name size, s =>
    (s.done = false ∧ s.failed = false ∧ s.comp = .fileSize) ∧ s.sinkopen = true ∧ s.namebuf = name ∧
      s.sizebuf = size ∧ s.sizev = 0 ∧ s.rcnt = 0
  | .writing name v data, s =>
    (s.done = false ∧ s.failed = false ∧ s.comp = .rawData) ∧ s.sinkopen = true ∧ s.namebuf = name ∧
      s.sizev = v ∧ s.rcnt = data.length
  | .delivered name data, s =>
    s.done = true ∧ s.sinkopen = false ∧ s.namebuf = name ∧ s.sizev = data.length ∧ s.rcnt = data.length
  | .rejected name, s => s.done = false ∧ s.failed = true ∧ s.sinkopen = false ∧ s.namebuf = name

/-- The framer's registers that a phase says something about. -/
def State.framer (s : State) : (Bool × Bool × Component) × Bool × List Byte × List Byte × Nat × Nat :=
  ((s.done, s.failed, s.comp), s.sinkopen, s.namebuf, s.sizebuf, s.sizev, s.rcnt)

theorem Phase.RegistersOf.of_framer {s t : State} {p : Phase} (h : p.RegistersOf s) (hframer : t.framer = s.framer) :
    p.RegistersOf t := by
  simp only [State.framer, Prod.mk.injEq] at hframer
  obtain ⟨⟨hdone, hfailed, hcomp⟩, hsink, hname, hsize, hsizev, hrcnt⟩ := hframer
  cases p <;> simpa only [Phase.RegistersOf, hdone, hfailed, hcomp, hsink, hname, hsize, hsizev, hrcnt] using h

/-- The deserializer stands at `p`, with `τ` in the trace from before it began and ports that answer ok. -/
structure State.InPhase (τ : List Event) (p : Phase) (s : State) : Prop where
  registers : p.RegistersOf s
  trace : s.trace = τ ++ p.events
  ports : s.portsAnswerOk

section
variable {s t : State} {τ : List Event} {p q : Phase} {a : Answer} {b : Byte} {name size data bytes : List Byte}
  {v : Nat}

theorem Phase.feed_naming_of_char (hb : b ≠ 0x00#8) : (Phase.naming name).feed b = .naming (name ++ [b]) := if_pos hb

theorem Phase.feed_naming_nul : (Phase.naming name).feed 0x00#8 = .sizing name [] := rfl

theorem Phase.feed_sizing_of_char (hb : b ≠ 0x00#8) :
    (Phase.sizing name size).feed b = .sizing name (size ++ [b]) := if_pos hb

theorem Phase.feed_sizing_nul_of_size (hsize : parseSize size = some v) :
    (Phase.sizing name size).feed 0x00#8 = .writing name v [] := by
  rw [Phase.feed, if_neg (not_not_intro rfl), hsize]

theorem Phase.feed_sizing_nul_of_noSize (hsize : parseSize size = none) :
    (Phase.sizing name size).feed 0x00#8 = .rejected name := by
  rw [Phase.feed, if_neg (not_not_intro rfl), hsize]

theorem Phase.feed_writing_of_more (hmore : data.length + 1 ≠ v) :
    (Phase.writing name v data).feed b = .writing name v (data ++ [b]) := if_neg hmore

theorem Phase.feed_writing_of_last (hlast : data.length + 1 = v) :
    (Phase.writing name v data).feed b = .delivered name (data ++ [b]) := if_pos hlast

/-- What has ended stays as it is (R163). -/
theorem Phase.feed_of_answer (h : p.answer = some a) : p.feed b = p := by
  cases p with
  | delivered | rejected => rfl
  | naming | sizing | writing => cases h

/-! ### FPUT follows the phase -/

/-- An answer other than OK, and none but such, ends the deserialization. -/
def Phase.Answers (p : Phase) (a : Answer) : Prop := p.answer = if a.code = .ok then none else some a

theorem Phase.Answers.delivered {n : Nat} (h : n = data.length) :
    (Phase.delivered name data).Answers { code := .done, value := n } := by
  rw [h]
  rfl

/-- FPUT brings the deserializer to `q` and answers as `q` says. -/
def State.FputReaches (τ : List Event) (q : Phase) (s : State) : Prop :=
  ∃ a t, fputStep s = .done a t ∧ t.InPhase τ q ∧ q.Answers a

/-- Uses of the ports add their events, and take answers that are all ok. -/
theorem State.InPhase.of_uses {uses : List PortUse} (h : s.InPhase τ p) (hregisters : q.RegistersOf t)
    (hports : t.ports = s.ports ++ uses) (hevents : p.events ++ uses.filterMap PortUse.event = q.events)
    (hanswers : t.answers ⊆ s.answers) : t.InPhase τ q where
  registers := hregisters
  trace := by
    rw [State.trace, hports, List.filterMap_append, ← hevents, ← List.append_assoc, ← h.trace, State.trace]
  ports := fun _ hanswer => h.ports _ (hanswers hanswer)

/-- Without a use of a port the trace and the answers stay. -/
theorem State.InPhase.of_noUse (h : s.InPhase τ p) (hregisters : q.RegistersOf t) (hevents : p.events = q.events)
    (hports : t.ports = s.ports) (hanswers : t.answers = s.answers) : t.InPhase τ q :=
  h.of_uses (uses := []) hregisters (hports.trans (List.append_nil _).symm) ((List.append_nil _).trans hevents)
    (hanswers ▸ List.Subset.refl _)

theorem fputReaches_of_naming (h : s.InPhase τ (.naming name)) :
    s.FputReaches τ ((Phase.naming name).feed s.byter) := by
  obtain ⟨⟨hdone, hfailed, hcomp⟩, hsink, rfl, hregisters⟩ := h.registers
  have hstep := fputStep_of_fileName hdone hfailed hcomp
  by_cases hb : s.byter = 0x00#8
  · rw [hb, Phase.feed_naming_nul]
    exact ⟨_, _, hstep.trans (fputName_of_nul hb h.ports.nextAccessOk),
      h.of_uses ⟨⟨hdone, hfailed, rfl⟩, rfl, rfl, hregisters⟩ rfl rfl (List.tail_subset _), rfl⟩
  · rw [Phase.feed_naming_of_char hb]
    exact ⟨_, _, hstep.trans (fputName_of_char hb),
      h.of_noUse ⟨⟨hdone, hfailed, hcomp⟩, hsink, rfl, hregisters⟩ rfl rfl rfl, rfl⟩

theorem fputReaches_of_sizing (h : s.InPhase τ (.sizing name size)) :
    s.FputReaches τ ((Phase.sizing name size).feed s.byter) := by
  obtain ⟨⟨hdone, hfailed, hcomp⟩, hsink, hname, rfl, hsizev, hrcnt⟩ := h.registers
  have hstep := fputStep_of_fileSize hdone hfailed hcomp
  by_cases hb : s.byter = 0x00#8
  · cases hsize : parseSize s.sizebuf with
    | some v =>
      rw [hb, Phase.feed_sizing_nul_of_size hsize]
      exact ⟨_, _, hstep.trans (fputSize_of_size hb hsize),
        h.of_noUse ⟨⟨hdone, hfailed, rfl⟩, hsink, hname, rfl, hrcnt⟩ rfl rfl rfl, rfl⟩
    | none =>
      rw [hb, Phase.feed_sizing_nul_of_noSize hsize]
      exact ⟨_, _, hstep.trans (fputSize_of_noSize hb hsize),
        h.of_uses (uses := [.sinkDiscard]) ⟨hdone, rfl, rfl, hname⟩ (congrArg (s.ports ++ ·) (if_pos hsink)) rfl
          (List.Subset.refl _), rfl⟩
  · rw [Phase.feed_sizing_of_char hb]
    exact ⟨_, _, hstep.trans (fputSize_of_char hb),
      h.of_noUse ⟨⟨hdone, hfailed, hcomp⟩, hsink, hname, rfl, hsizev, hrcnt⟩ rfl rfl rfl, rfl⟩

theorem fputReaches_of_writing (h : s.InPhase τ (.writing name v data)) :
    s.FputReaches τ ((Phase.writing name v data).feed s.byter) := by
  obtain ⟨⟨hdone, hfailed, hcomp⟩, hsink, hname, rfl, hrcnt⟩ := h.registers
  have hstep := fputStep_of_rawData hdone hfailed hcomp
  have hcount : s.rcnt + 1 = (data ++ [s.byter]).length := by rw [hrcnt, List.length_append]; rfl
  by_cases hlast : s.rcnt + 1 = s.sizev
  · rw [Phase.feed_writing_of_last (hrcnt ▸ hlast)]
    refine ⟨_, _, hstep.trans (fputRaw_of_last h.ports.nextAccessOk hlast),
      h.of_uses (uses := [.sinkWrite s.byter .ok, .sinkClose]) ⟨rfl, rfl, hname, hlast ▸ hcount, hcount⟩
        (List.append_assoc ..) ?_ (List.tail_subset _), .delivered hcount⟩
    simp [Phase.events, PortUse.event]
  · rw [Phase.feed_writing_of_more (hrcnt ▸ hlast)]
    refine ⟨_, _, hstep.trans (fputRaw_of_more h.ports.nextAccessOk hlast),
      h.of_uses ⟨⟨hdone, hfailed, hcomp⟩, hsink, hname, rfl, hcount⟩ rfl ?_ (List.tail_subset _), rfl⟩
    simp [Phase.events, PortUse.event]

theorem fputReaches_of_inPhase (h : s.InPhase τ p) : s.FputReaches τ (p.feed s.byter) := by
  cases p with
  | naming name => exact fputReaches_of_naming h
  | sizing name size => exact fputReaches_of_sizing h
  | writing name v data => exact fputReaches_of_writing h
  | delivered name data =>
    obtain ⟨hdone, _, _, _, hrcnt⟩ := h.registers
    exact ⟨_, s, if_pos hdone, h, .delivered hrcnt⟩
  | rejected name =>
    obtain ⟨hdone, hfailed, _⟩ := h.registers
    have hstep : fputStep s = .done noSecretAnswer s := by
      simp only [fputStep, hdone, hfailed, Bool.false_eq_true, if_false, if_true]
    exact ⟨_, s, hstep, h, rfl⟩

/-! ### What the bytes of a frame come to -/

theorem Phase.foldl_feed_of_answer (h : p.answer = some a) (bytes : List Byte) : bytes.foldl Phase.feed p = p := by
  induction bytes with
  | nil => rfl
  | cons b bytes ih => rw [List.foldl_cons, Phase.feed_of_answer h, ih]

/-- A string that collects each character but a NUL collects a whole text without one. -/
theorem Phase.foldl_feed_of_chars {collecting : List Byte → Phase}
    (hchar : ∀ text b, b ≠ 0x00#8 → (collecting text).feed b = collecting (text ++ [b]))
    (hbytes : 0x00#8 ∉ bytes) (text : List Byte) :
    bytes.foldl Phase.feed (collecting text) = collecting (text ++ bytes) := by
  induction bytes generalizing text with
  | nil => rw [List.foldl_nil, List.append_nil]
  | cons b bytes ih =>
    have hb : b ≠ 0x00#8 := fun hb => hbytes (hb ▸ List.mem_cons_self)
    rw [List.foldl_cons, hchar text b hb, ih fun hmem => hbytes (List.mem_cons_of_mem b hmem), List.append_assoc,
      List.singleton_append]

/-- The raw data ends with the byte that makes up the size. -/
theorem Phase.foldl_feed_writing (hbytes : bytes ≠ []) (hv : data.length + bytes.length = v) :
    bytes.foldl Phase.feed (.writing name v data) = .delivered name (data ++ bytes) := by
  induction bytes generalizing data with
  | nil => exact absurd rfl hbytes
  | cons b bytes ih =>
    rw [List.length_cons] at hv
    rw [List.foldl_cons]
    by_cases hlast : bytes = []
    · subst hlast
      rw [Phase.feed_writing_of_last hv, List.foldl_nil]
    · have hrest : bytes.length ≠ 0 := fun hnone => hlast (List.eq_nil_of_length_eq_zero hnone)
      have hleft : (data ++ [b]).length + bytes.length = v := by
        rw [List.length_append, List.length_singleton]
        omega
      rw [Phase.feed_writing_of_more (by omega), ih hlast hleft, List.append_assoc, List.singleton_append]

/-- A name and its NUL open the sink. -/
theorem Phase.foldl_feed_name (hname : 0x00#8 ∉ name) :
    (name ++ [0x00#8]).foldl Phase.feed (.naming []) = .sizing name [] := by
  rw [List.foldl_append, Phase.foldl_feed_of_chars (fun _ _ => Phase.feed_naming_of_char) hname]
  rfl

/-- A name and a size string, each with its NUL, by what the size string parses to. -/
theorem Phase.foldl_feed_name_size (hname : 0x00#8 ∉ name) (hsize : 0x00#8 ∉ size) :
    (name ++ [0x00#8] ++ size ++ [0x00#8]).foldl Phase.feed (.naming []) = (Phase.sizing name size).feed 0x00#8 := by
  rw [List.foldl_append, List.foldl_append, Phase.foldl_feed_name hname,
    Phase.foldl_feed_of_chars (fun _ _ => Phase.feed_sizing_of_char) hsize]
  rfl

/-- A whole frame delivers its name and its data (R164). -/
theorem Phase.foldl_feed_frame (hname : 0x00#8 ∉ name) (hlo : 1 ≤ data.length) (hhi : data.length ≤ 2 ^ 32 - 1) :
    (frame name data).foldl Phase.feed (.naming []) = .delivered name data := by
  rw [frame, List.foldl_append, Phase.foldl_feed_name_size hname (nul_notMem_dec _),
    Phase.feed_sizing_nul_of_size (parseSize_dec hlo hhi),
    Phase.foldl_feed_writing (List.length_pos_iff.1 hlo) (Nat.zero_add _), List.nil_append]

/-! ### The host feeds the bytes (R164) -/

/-- A response that has ended the deserialization is the last one. -/
def State.Reported (p : Phase) (s : State) : Prop :=
  ∀ r, p.answer = some r → s.responses.getLast? = some ⟨r.code, r.value⟩

/-- The start of the deserializer leaves the trace of a sink left open that was closed (R150). -/
theorem inPhase_of_finitStep (hok : s.portsAnswerOk) (h : finitStep s = .done a t) :
    t.InPhase s.traceReleased (.naming []) := by
  rw [finitStep_eq] at h
  obtain ⟨_, rfl⟩ := Res.done.inj h
  refine ⟨⟨⟨rfl, rfl, rfl⟩, rfl, rfl, rfl, rfl, rfl⟩, ?_, hok⟩
  cases hsink : s.sinkopen <;> simp [State.trace, State.traceReleased, Phase.events, PortUse.event, hsink]

/-- A response changes nothing the deserializer rests on. -/
theorem State.InPhase.respond (h : s.InPhase τ p) (a : Answer) : (s.respond a).InPhase τ p :=
  h.of_noUse (h.registers.of_framer rfl) rfl rfl rfl

/-- The byte register is not one of the deserializer's. -/
theorem State.InPhase.loadByte (h : s.InPhase τ p) (b : Byte) : State.InPhase τ p { s with byter := b } :=
  h.of_noUse (h.registers.of_framer rfl) rfl rfl rfl

/-- LDBYTE and FPUT feed one byte. -/
theorem runCommands_feed_byte (h : s.InPhase τ p) (b : Byte) :
    ∃ t, runCommands [.ldbyte b, .fput] s = .next t ∧ t.InPhase τ (p.feed b) ∧ t.Reported (p.feed b) := by
  have hload : exec (.ldbyte b) s = .next (State.respond { s with byter := b } (okWith b.toNat)) :=
    exec_of_done nofun rfl
  obtain ⟨a, t, hfput, ht, hanswers⟩ := fputReaches_of_inPhase ((h.loadByte b).respond (okWith b.toNat))
  refine ⟨t.respond a, ?_, ht.respond a, fun r hr => ?_⟩
  · exact runCommands_concat (l := [.ldbyte b]) (runCommands_concat (l := []) rfl hload)
      (exec_of_done (i := .fput) nofun hfput)
  · have hended := hanswers.symm.trans hr
    split at hended
    next => cases hended
    next =>
      cases hended
      exact List.getLast?_concat

/-- LDBYTE and FPUT for each byte feed them all. -/
theorem runCommands_feed (h : s.InPhase τ p) (hreported : s.Reported p) (bytes : List Byte) :
    ∃ t, runCommands (bytes.flatMap fun b => [.ldbyte b, .fput]) s = .next t ∧
      t.InPhase τ (bytes.foldl Phase.feed p) ∧ t.Reported (bytes.foldl Phase.feed p) := by
  induction bytes generalizing s p with
  | nil => exact ⟨s, rfl, h, hreported⟩
  | cons b bytes ih =>
    obtain ⟨u, hbyte, hu, hureported⟩ := runCommands_feed_byte h b
    obtain ⟨t, hrun, ht⟩ := ih hu hureported
    exact ⟨t, (runCommands_append hbyte).trans hrun, ht⟩

end

/-- Settles O40: FPUT follows the phase, and a frame's bytes come to its delivery. -/
theorem framingRoundTrip : Obligations.FramingRoundTrip := by
  unfold Obligations.FramingRoundTrip
  intro s name data hok hname hlo hhi
  have hfinit : exec .finit s = .next (State.respond _ (okWith 0)) :=
    exec_of_done (i := .finit) nofun (finitStep_eq s)
  have hstart := (inPhase_of_finitStep hok (finitStep_eq s)).respond (okWith 0)
  obtain ⟨t, hrun, ht, hreported⟩ := runCommands_feed hstart nofun (frame name data)
  rw [Phase.foldl_feed_frame hname hlo hhi] at ht hreported
  obtain ⟨hdone, hsink, _⟩ := ht.registers
  refine ⟨t, ?_, ?_, hreported _ rfl, hdone, hsink⟩
  · simp only [runCommands, hfinit, hrun]
  · simp only [ht.trace, Phase.events, List.append_assoc]

end Sys2Proof.Machine

/-! SUPPORT. RETRIEVE (spec/46_orchestrators.md R195, R196) reads the stored bits pixel by pixel, cuts them into bytes
and feeds each to the deserializer, so that it ends as the deserializer does on the bytes stored. -/

namespace Sys2Proof.Machine

section
variable {s t u : State} {τ : List Event} {p : Phase} {a : Answer} {b : Byte} {bytes bytes' : List Byte}
  {q left : List Bool} {j k : Nat}

/-! ### Bytes in a queue of bits (20_memory.md R61, R62) -/

theorem payloadBits_cons (b : Byte) (bytes : List Byte) :
    payloadBits (b :: bytes) = expand b ++ payloadBits bytes := rfl

theorem payloadBits_append (bytes bytes' : List Byte) :
    payloadBits (bytes ++ bytes') = payloadBits bytes ++ payloadBits bytes' := List.flatMap_append

theorem payloadBits_length (bytes : List Byte) : (payloadBits bytes).length = 8 * bytes.length := by
  induction bytes with
  | nil => rfl
  | cons b bytes ih => rw [payloadBits_cons, List.length_append, ih, expand_length, List.length_cons]; omega

/-- Every queue is a number of bytes and fewer than eight bits behind them. -/
theorem exists_payloadBits (q : List Bool) : ∃ bytes left, q = payloadBits bytes ++ left ∧ left.length < 8 := by
  induction hlength : q.length using Nat.strongRecOn generalizing q with
  | ind n ih =>
    rcases Nat.lt_or_ge q.length 8 with hshort | hbyte
    · exact ⟨[], q, rfl, hshort⟩
    · have hdrop : (q.drop 8).length < n := by rw [List.length_drop]; omega
      obtain ⟨bytes, left, hq, hleft⟩ := ih _ hdrop (q.drop 8) rfl
      refine ⟨pack (q.take 8) :: bytes, left, ?_, hleft⟩
      rw [payloadBits_cons, expand_pack (List.length_take_of_le hbyte), List.append_assoc, ← hq,
        List.take_append_drop]

/-- The bytes at the front of a queue are the first of all its bytes. -/
theorem exists_append_of_payloadBits (h : payloadBits bytes ++ q = payloadBits bytes' ++ left)
    (hleft : left.length < 8) : ∃ rest, bytes' = bytes ++ rest ∧ q = payloadBits rest ++ left := by
  induction bytes generalizing bytes' with
  | nil => exact ⟨bytes', rfl, h⟩
  | cons b bytes ih =>
    cases bytes' with
    | nil =>
      have hlength := congrArg List.length h
      rw [List.length_append, payloadBits_length] at hlength
      simp only [payloadBits, List.flatMap_nil, List.nil_append, List.length_cons] at hlength
      omega
    | cons b' bytes' =>
      rw [payloadBits_cons, payloadBits_cons, List.append_assoc, List.append_assoc] at h
      obtain ⟨hexpand, htail⟩ := List.append_inj h ((expand_length b).trans (expand_length b').symm)
      have hb : b = b' := by rw [← pack_expand b, hexpand, pack_expand]
      obtain ⟨rest, rfl, hq⟩ := ih htail
      exact ⟨rest, by rw [hb, List.cons_append], hq⟩

/-! ### The bits still to be read -/

/-- The bits of the pixels from row-major index `j` on. -/
def State.bitsFrom (s : State) (j : Nat) : List Bool :=
  (List.range' j (s.imgw * s.imgh - j)).flatMap fun i => extract (s.pixelAt (i % s.imgw) (i / s.imgw)) s.mask

theorem State.bitsFrom_zero (s : State) : s.bitsFrom 0 = s.storedBits := by
  rw [State.bitsFrom, State.storedBits, List.range_eq_range', Nat.sub_zero]

theorem State.bitsFrom_succ (hj : j < s.imgw * s.imgh) :
    s.bitsFrom j = extract (s.pixelAt (j % s.imgw) (j / s.imgw)) s.mask ++ s.bitsFrom (j + 1) := by
  obtain ⟨n, hn⟩ : ∃ n, s.imgw * s.imgh - j = n + 1 := ⟨s.imgw * s.imgh - j - 1, by omega⟩
  have hrest : s.imgw * s.imgh - (j + 1) = n := by omega
  rw [State.bitsFrom, State.bitsFrom, hn, hrest, List.range'_succ, List.flatMap_cons]

theorem State.bitsFrom_end (hj : s.imgw * s.imgh ≤ j) : s.bitsFrom j = [] := by
  rw [State.bitsFrom, Nat.sub_eq_zero_of_le hj]
  rfl

/-! ### RADV through the image -/

/-- The read cursor stands before the pixel of row-major index `j` of an image of width `w` (43_pixel_cursor.md R132,
R133). -/
def State.CursorBefore (t : State) (w : Nat) : Nat → Prop
  | 0 => t.issued = false ∧ t.curx = 0 ∧ t.cury = 0
  | j + 1 => t.issued = true ∧ t.curx = j % w ∧ t.cury = j / w

/-- The retrieval from the image of `s` is about to read the pixel of row-major index `j`. -/
def State.ReadingAt (s : State) (j : Nat) (t : State) : Prop :=
  (t.mask = s.mask ∧ t.imgw = s.imgw ∧ t.imgh = s.imgh ∧ t.image = s.image) ∧ t.exh = false ∧
    t.CursorBefore s.imgw j

/-- An ImgGet is no event and none of the framer's accesses. -/
theorem State.InPhase.afterGet {x y : Nat} (h : s.InPhase τ p) (hframer : t.framer = s.framer)
    (hports : t.ports = (s.afterGet x y .ok).ports) (hanswers : t.answers = s.answers.tail) : t.InPhase τ p :=
  h.of_uses (uses := [.imgGet x y .ok]) (h.registers.of_framer hframer) hports (List.append_nil _)
    (hanswers ▸ List.tail_subset _)

/-- Past the first pixel the next position is that of index `j`. -/
theorem State.ReadingAt.nextPosition (h : s.ReadingAt (j + 1) t) (hw : 0 < s.imgw) :
    nextPosition t = ((j + 1) % s.imgw, (j + 1) / s.imgw) := by
  obtain ⟨⟨_, himgw, _, _⟩, _, _, hx, hy⟩ := h
  rw [Machine.nextPosition, hx, hy, himgw, rowMajor_succ hw]

/-- RADV reads the pixel the cursor stands before. -/
theorem radvStep_of_readingAt (hread : s.ReadingAt j t) (h : t.InPhase τ p) (hj : j < s.imgw * s.imgh) :
    ∃ a u, radvStep t = .done a u ∧ a.stops = false ∧ u.pxr = s.pixelAt (j % s.imgw) (j / s.imgw) ∧
      s.ReadingAt (j + 1) u ∧ u.InPhase τ p ∧ u.aq = t.aq := by
  have ⟨⟨hmask, himgw, himgh, himage⟩, hexh, hcursor⟩ := hread
  have hpixel (x y : Nat) : t.pixelAt x y = s.pixelAt x y := by
    rw [State.pixelAt, State.pixelAt, himage, himgw]
  obtain ⟨hw, hx, hy⟩ := rowMajor_bounds hj
  cases j with
  | zero =>
    obtain ⟨hfresh, hcurx, hcury⟩ := hcursor
    have hstep := (radvStep_of_fresh hexh hfresh).trans
      (firstAdvance_of_ok (himgw ▸ hw) (himgh ▸ Nat.zero_lt_of_lt hy) h.ports.nextAccessOk)
    have horigin : t.pixelAt 0 0 = s.pixelAt (0 % s.imgw) (0 / s.imgw) := by
      rw [hpixel, Nat.zero_mod, Nat.zero_div]
    exact ⟨_, _, hstep, rfl, horigin,
      ⟨⟨hmask, himgw, himgh, himage⟩, hexh, rfl, hcurx.trans (Nat.zero_mod _).symm,
        hcury.trans (Nat.zero_div _).symm⟩, h.afterGet rfl rfl rfl, rfl⟩
  | succ j =>
    obtain ⟨hissued, _⟩ := hcursor
    have hin : t.inImage ((j + 1) % s.imgw) ((j + 1) / s.imgw) = true :=
      State.inImage_iff.2 ⟨himgw ▸ hx, himgh ▸ hy⟩
    have hstep := (radvStep_of_issued hexh hissued).trans
      (moveAndRead_of_ok (reload := false) (hread.nextPosition hw) hin h.ports.nextAccessOk)
    exact ⟨_, _, hstep, rfl, hpixel _ _, ⟨⟨hmask, himgw, himgh, himage⟩, hexh, hissued, rfl, rfl⟩,
      h.afterGet rfl rfl rfl, rfl⟩

/-- After the last pixel RADV reports exhaustion (43_pixel_cursor.md R137). -/
theorem radvStep_of_readingEnd (hread : s.ReadingAt (s.imgw * s.imgh) t) (h : t.InPhase τ p) :
    ∃ u, radvStep t = .done exhaustedAnswer u ∧ u.exh = true ∧ u.InPhase τ p := by
  have ⟨⟨_, himgw, himgh, _⟩, hexh, hcursor⟩ := hread
  cases hpixels : s.imgw * s.imgh with
  | zero =>
    rw [hpixels] at hcursor
    obtain ⟨hfresh, _⟩ := hcursor
    have hempty : t.imgw = 0 ∨ t.imgh = 0 := by rw [himgw, himgh]; exact Nat.mul_eq_zero.1 hpixels
    exact ⟨_, (radvStep_of_fresh hexh hfresh).trans (firstAdvance_of_empty hempty), rfl,
      h.of_noUse (h.registers.of_framer rfl) rfl rfl rfl⟩
  | succ j =>
    rw [hpixels] at hcursor
    obtain ⟨hissued, hx, hy⟩ := hcursor
    obtain ⟨hcolumn, hrow⟩ := rowMajor_last hpixels.symm
    have hnext := nextPosition_of_last (s := t) (by rw [hx, himgw, hcolumn]) (by rw [hy, himgh, hrow])
    exact ⟨_, (radvStep_of_issued hexh hissued).trans (moveAndRead_of_end hnext le_rfl), rfl,
      h.of_noUse (h.registers.of_framer rfl) rfl rfl rfl⟩

/-! ### The loops of R195 -/

/-- The inner loop feeds the whole bytes of AQ, up to the one that ends the deserialization. -/
theorem feedBytes_of_payloadBits (h : t.InPhase τ p) (hgo : p.answer = none) (haq : t.aq = payloadBits bytes ++ left)
    (hleft : left.length < 8) (hk : bytes.length < k) :
    ∃ u, feedBytes k t = .done (bytes.foldl Phase.feed p).answer u ∧ u.InPhase τ (bytes.foldl Phase.feed p) ∧
      ((bytes.foldl Phase.feed p).answer = none → u.aq = left) := by
  induction bytes generalizing t p k with
  | nil =>
    obtain ⟨k, rfl⟩ := Nat.exists_eq_add_one_of_ne_zero (Nat.ne_zero_of_lt hk)
    have hshort : t.aq.length < 8 := by rwa [haq]
    refine ⟨t, ?_, h, fun _ => haq⟩
    rw [feedBytes, if_pos hshort, List.foldl_nil, hgo]
  | cons b bytes ih =>
    obtain ⟨k, rfl⟩ := Nat.exists_eq_add_one_of_ne_zero (Nat.ne_zero_of_lt hk)
    rw [payloadBits_cons, List.append_assoc] at haq
    have hbyte : 8 ≤ t.aq.length := by rw [haq, List.length_append, expand_length]; omega
    have hpack : pack (t.aq.take 8) = b := by
      rw [haq, List.take_left' (expand_length b), pack_expand]
    have hdrop : t.aq.drop 8 = payloadBits bytes ++ left := by rw [haq, List.drop_left' (expand_length b)]
    have hpackb := packbStep_of_le hbyte
    rw [hpack, hdrop] at hpackb
    obtain ⟨a, u, hfput, hu, hanswers⟩ := fputReaches_of_inPhase
      (s := { t with byter := b, aq := payloadBits bytes ++ left })
      (h.of_noUse (h.registers.of_framer rfl) rfl rfl rfl)
    have hstep : feedBytes (k + 1) t = if a.code = .ok then feedBytes k u else .done (some a) u := by
      rw [feedBytes, if_neg (Nat.not_lt.2 hbyte), hpackb, Res.bind_done, hfput, Res.bind_done]
    rw [hstep, List.foldl_cons]
    unfold Phase.Answers at hanswers
    split
    next hok =>
      rw [if_pos hok] at hanswers
      have huaq : u.aq = payloadBits bytes ++ left := (fputStep_frame.of_done hfput).keeps State.aq fun _ => rfl
      exact ih hu hanswers huaq (Nat.lt_of_succ_lt_succ hk)
    next hended =>
      rw [if_neg hended] at hanswers
      have hanswer : (p.feed b).answer = some a := hanswers
      rw [Phase.foldl_feed_of_answer hanswer, hanswer]
      exact ⟨u, rfl, hu, nofun⟩

/-- One round of the outer loop: a pixel is read, its bits join AQ, and the bytes AQ holds are fed. -/
theorem retrieveLoop_round {e : Option Answer} (hradv : radvStep s = .done a t) (hgo : a.stops = false)
    (hroom : t.aq.length + slotCount t.mask ≤ 31)
    (hfeed : feedBytes ((t.aq ++ extract t.pxr t.mask).length / 8 + 1) { t with aq := t.aq ++ extract t.pxr t.mask } =
      .done e u) :
    retrieveLoop (k + 1) s = e.elim (retrieveLoop k u) fun r => .done r u := by
  rw [retrieveLoop, hradv, Res.bind_done, hgo, if_neg Bool.false_ne_true, pextStep_of_le hroom, Res.bind_done, hfeed,
    Res.bind_done]
  cases e <;> rfl

/-- The outer loop ends as the deserializer does on the bytes still to be read, or, when it does not end, with the
image. -/
theorem retrieveLoop_of_readingAt (hread : s.ReadingAt j t) (h : t.InPhase τ p) (hgo : p.answer = none)
    (haq : t.aq.length < 8) (hbits : t.aq ++ s.bitsFrom j = payloadBits bytes ++ left) (hleft : left.length < 8)
    (hj : j ≤ s.imgw * s.imgh) (hk : s.imgw * s.imgh - j < k) :
    ∃ u, retrieveLoop k t = .done ((bytes.foldl Phase.feed p).answer.getD exhaustedAnswer) u ∧
      u.InPhase τ (bytes.foldl Phase.feed p) ∧ ((bytes.foldl Phase.feed p).answer = none → u.exh = true) := by
  induction k generalizing j t p bytes with
  | zero => omega
  | succ k ih =>
    rcases Nat.eq_or_lt_of_le hj with rfl | hmore
    · obtain ⟨u, hradv, hexh, hu⟩ := radvStep_of_readingEnd hread h
      have hnone : bytes = [] := by
        have hlength := congrArg List.length hbits
        rw [State.bitsFrom_end le_rfl, List.append_nil, List.length_append, payloadBits_length] at hlength
        exact List.eq_nil_of_length_eq_zero (by omega)
      subst hnone
      refine ⟨u, ?_, hu, fun _ => hexh⟩
      rw [retrieveLoop, hradv, Res.bind_done, if_pos (Answer.stops_of_exhausted rfl), List.foldl_nil, hgo]
      rfl
    · obtain ⟨a, u, hradv, hstops, hpxr, huread, hu, huaq⟩ := radvStep_of_readingAt hread h hmore
      obtain ⟨bytes₁, left₁, hqueue, hleft₁⟩ := exists_payloadBits (u.aq ++ extract u.pxr u.mask)
      obtain ⟨v, hfeed, hv, hvaq⟩ := feedBytes_of_payloadBits (k := (u.aq ++ extract u.pxr u.mask).length / 8 + 1)
        (t := { u with aq := u.aq ++ extract u.pxr u.mask })
        (hu.of_noUse (hu.registers.of_framer rfl) rfl rfl rfl) hgo hqueue hleft₁
        (by rw [hqueue, List.length_append, payloadBits_length]; omega)
      have hroom : u.aq.length + slotCount u.mask ≤ 31 := by
        have hslots := slotCount_le u.mask
        rw [huaq]
        omega
      have ⟨⟨humask, _⟩, _⟩ := huread
      rw [State.bitsFrom_succ hmore, ← hpxr, ← humask, ← huaq, ← List.append_assoc, hqueue,
        List.append_assoc] at hbits
      obtain ⟨bytes₂, rfl, hrest⟩ := exists_append_of_payloadBits hbits hleft
      rw [retrieveLoop_round hradv hstops hroom hfeed, List.foldl_append]
      cases hended : (bytes₁.foldl Phase.feed p).answer with
      | some r =>
        rw [Phase.foldl_feed_of_answer hended, hended]
        exact ⟨v, rfl, hv, nofun⟩
      | none =>
        have hjoined : s.ReadingAt (j + 1) { u with aq := u.aq ++ extract u.pxr u.mask } := huread
        have hvread : s.ReadingAt (j + 1) v :=
          (feedBytes_keeps (body_keeps .packb fun _ => rfl) (body_keeps .fput fun _ => rfl) _ _ hjoined).of_done hfeed
        rw [← hvaq hended] at hleft₁ hrest
        exact ih hvread hv hended hleft₁ hrest hmore (by omega)

/-- Both operations begin before the first pixel and with the deserializer at its start (10_state.md R42). -/
theorem freshOperation_begins (hok : s.portsAnswerOk) : ∃ t, freshOperation s = .done (okWith 0) t ∧
    s.ReadingAt 0 t ∧ t.InPhase s.traceReleased (.naming []) ∧ t.aq = [] := by
  have hfresh : freshOperation s = finitStep { s with
    curx := 0, cury := 0, issued := false, exh := false, brem := 0, cnt := 0, bq := [], aq := [] } := rfl
  exact ⟨_, hfresh.trans (finitStep_eq _), ⟨⟨rfl, rfl, rfl, rfl⟩, rfl, rfl, rfl, rfl⟩,
    inPhase_of_finitStep (s := { s with
      curx := 0, cury := 0, issued := false, exh := false, brem := 0, cnt := 0, bq := [], aq := [] })
      hok (finitStep_eq _), rfl⟩

/-- RETRIEVE ends as the deserializer does on all the bytes stored. -/
theorem retrieveStep_of_storedBits (hok : s.portsAnswerOk) (hbits : s.storedBits = payloadBits bytes ++ left)
    (hleft : left.length < 8) :
    ∃ u, retrieveStep s = retrieveEnd ((bytes.foldl Phase.feed (.naming [])).answer.getD exhaustedAnswer) u ∧
      u.InPhase s.traceReleased (bytes.foldl Phase.feed (.naming [])) ∧
      ((bytes.foldl Phase.feed (.naming [])).answer = none → u.exh = true) := by
  obtain ⟨t, hfresh, hread, hphase, haq⟩ := freshOperation_begins hok
  have hqueue : t.aq ++ s.bitsFrom 0 = payloadBits bytes ++ left := by
    rw [haq, State.bitsFrom_zero, List.nil_append, hbits]
  have hshort : t.aq.length < 8 := by
    rw [haq]
    exact Nat.zero_lt_succ 7
  obtain ⟨u, hloop, hu⟩ := retrieveLoop_of_readingAt hread hphase rfl hshort hqueue hleft (Nat.zero_le _)
    (Nat.lt_succ_self _)
  obtain ⟨⟨_, himgw, himgh, _⟩, _⟩ := hread
  refine ⟨u, ?_, hu⟩
  rw [← himgw, ← himgh, Nat.sub_zero] at hloop
  rw [retrieveStep, hfresh, Res.bind_done, hloop, Res.bind_done]

end

/-- Settles O50: a size string that does not parse has the bytes before it rejected, whatever bytes follow. -/
theorem retrieveReportsNoSecret : Obligations.RetrieveReportsNoSecret := by
  unfold Obligations.RetrieveReportsNoSecret
  rintro s name size hok hname hsize hparse ⟨behind, hbits⟩
  obtain ⟨rest, left, rfl, hleft⟩ := exists_payloadBits behind
  rw [← List.append_assoc, ← payloadBits_append] at hbits
  obtain ⟨u, hstep, hu, _⟩ := retrieveStep_of_storedBits hok hbits.symm hleft
  have hphase : (name ++ [0x00#8] ++ size ++ [0x00#8] ++ rest).foldl Phase.feed (.naming []) = .rejected name := by
    rw [List.foldl_append, Phase.foldl_feed_name_size hname hsize, Phase.feed_sizing_nul_of_noSize hparse,
      Phase.foldl_feed_of_answer rfl]
  rw [hphase] at hstep hu
  have hbody : bodyOf .retrieve s = .done noSecretAnswer u := hstep
  have hexec := exec_of_answer (i := .retrieve) nofun hbody statusWord_noSecretFound
  have hresponses : u.responses = s.responses :=
    (retrieveStep_frame.of_done hbody).keeps State.responses fun _ => rfl
  have himage := onlyWadvAndEmbedWriteTheImage .retrieve s _ hexec nofun nofun
  obtain ⟨_, hfailed, hsink, _⟩ := hu.registers
  refine ⟨_, hexec, ?_, rfl, hu.trace, hfailed, hsink, himage⟩
  rw [hresponses]
  rfl

end Sys2Proof.Machine

/-! SUPPORT. The capacity calculator (spec/45_capacity.md R170 to R173): the capacity as the whole bytes in the image's
slots, from which the laws follow, and CAP, which computes it. -/

namespace Sys2Proof.Machine

/-! ### The capacity formula -/

/-- The capacity is the number of enabled slots of the image, in whole bytes (R170). -/
theorem capacity_eq_slots_div (w h n : Nat) : capacity w h n = 3 * n * w * h / 8 := by
  have hslots : w * h * 3 * n = 3 * n * w * h := by ring
  rw [capacity, hslots]

/-- A number of bytes fits exactly when its bits fit the slots (R173 (d)). -/
theorem le_capacity_iff {f w h n : Nat} : f ≤ capacity w h n ↔ 8 * f ≤ 3 * n * w * h := by
  rw [capacity_eq_slots_div, Nat.le_div_iff_mul_le (Nat.zero_lt_succ 7), Nat.mul_comm f]

/-- What fits the smaller image fits the larger one (R173 (b)). -/
theorem capacity_mono {w h n w' h' n' : Nat} (hw : w ≤ w') (hh : h ≤ h') (hn : n ≤ n') :
    capacity w h n ≤ capacity w' h' n' := by
  rw [le_capacity_iff]
  calc
    8 * capacity w h n ≤ 3 * n * w * h := le_capacity_iff.1 (Nat.le_refl _)
    _ ≤ 3 * n' * w' * h' := by gcongr

/-- One byte more than the capacity does not fit (R173 (c)). -/
theorem slots_lt_capacity_succ (w h n : Nat) : 3 * n * w * h < 8 * capacity w h n + 8 :=
  Nat.lt_of_not_le fun hfits => Nat.not_succ_le_self _ (le_capacity_iff.2 hfits)

/-- With all bits enabled the slots are whole bytes, one per channel (R173 (e)). -/
theorem capacity_eight (w h : Nat) : capacity w h 8 = 3 * w * h := by
  have hslots : 3 * 8 * w * h = 8 * (3 * w * h) := by ring
  rw [capacity_eq_slots_div, hslots, Nat.mul_div_cancel_left _ (Nat.zero_lt_succ 7)]

/-- Settles O42: the zeros are an image without slots; the other laws say which numbers of bytes fit the slots. -/
theorem capacityLaws : Obligations.CapacityLaws := by
  unfold Obligations.CapacityLaws
  refine ⟨fun w h n => ⟨?noBits, ?noColumns, ?noRows⟩, fun _ _ _ _ _ _ => capacity_mono,
    fun w h n => ⟨le_capacity_iff.1 (Nat.le_refl _), slots_lt_capacity_succ w h n⟩, fun _ _ _ _ => le_capacity_iff,
    capacity_eight⟩
  case noBits => rw [capacity, Nat.mul_zero, Nat.zero_div]
  case noColumns => rw [capacity_eq_slots_div, Nat.mul_zero, Nat.zero_mul, Nat.zero_div]
  case noRows => rw [capacity_eq_slots_div, Nat.mul_zero, Nat.zero_div]

/-! ### CAP -/

/-- Settles O41: CAP's body loads CAPR with the formula of R170 and answers OK with it. -/
theorem capComputesTheCapacity : Obligations.CapComputesTheCapacity := by
  unfold Obligations.CapComputesTheCapacity
  exact fun s => ⟨decode_encode .cap, exec_of_okWith (i := .cap) nofun (t := { s with capr := imageCapacity s }) rfl⟩

end Sys2Proof.Machine

/-! SUPPORT. The answers of RETRIEVE (spec/46_orchestrators.md R195 to R197): OK when the bytes stored begin with a
frame, TRUNCATED_SECRET when they end before the deserializer is done. -/

namespace Sys2Proof.Machine

section
variable {s t u : State} {p : Phase} {a : Answer} {name size data bytes : List Byte} {v : Nat}

theorem statusWord_truncatedSecret : statusWord .truncatedSecret none false = 0x003#11 := by decide

/-- RETRIEVE answers as its body does, and writes neither the image nor the mask (10_state.md R41). -/
theorem exec_retrieve_of_done (h : retrieveStep s = .done a u) : exec .retrieve s = .next (u.respond a) ∧
    u.responses = s.responses ∧ u.image = s.image ∧ u.mask = s.mask ∧ u.hung = s.hung := by
  have hframe : SameBut .retrieve s u := retrieveStep_frame.of_done h
  exact ⟨exec_of_done (i := .retrieve) nofun h, hframe.keeps State.responses fun _ => rfl,
    hframe.keeps State.image fun _ => rfl, hframe.keeps State.mask fun _ => rfl, hframe.keeps State.hung fun _ => rfl⟩

/-- RETRIEVE delivers a frame whatever bytes follow it. -/
theorem retrieveStep_of_frame (hok : s.portsAnswerOk) (hname : 0x00#8 ∉ name) (hlo : 1 ≤ data.length)
    (hhi : data.length ≤ 2 ^ 32 - 1) (hbits : payloadBits (frame name data) <+: s.storedBits) :
    ∃ u, retrieveStep s = .done (okWith data.length) u ∧ u.InPhase s.traceReleased (.delivered name data) := by
  obtain ⟨behind, hbits⟩ := hbits
  obtain ⟨rest, left, rfl, hleft⟩ := exists_payloadBits behind
  rw [← List.append_assoc, ← payloadBits_append] at hbits
  obtain ⟨u, hstep, hu, _⟩ := retrieveStep_of_storedBits hok hbits.symm hleft
  have hphase : (frame name data ++ rest).foldl Phase.feed (.naming []) = .delivered name data := by
    rw [List.foldl_append, Phase.foldl_feed_frame hname hlo hhi, Phase.foldl_feed_of_answer rfl]
  rw [hphase] at hstep hu
  obtain ⟨_, _, _, _, hrcnt⟩ := hu.registers
  exact ⟨u, hstep.trans (by rw [← hrcnt]; rfl), hu⟩

/-- Releasing the sink writes no register but SINKOPEN. -/
theorem State.releaseSink_keeps {α : Type} (f : State → α)
    (hf : ∀ (u : State) (ports : List PortUse) (sinkopen : Bool),
      f { u with ports := ports, sinkopen := sinkopen } = f u)
    (u : State) : f u.releaseSink = f u := by
  rcases u.releaseSink_cases with ⟨_, h⟩ | ⟨_, h⟩ <;> rw [h]
  exact hf u _ false

/-- What RETRIEVE leaves where the deserializer had come to `u` when the image ended (R195 (e), R196): an open sink is
closed, and the answer tells the number of raw bytes written. -/
structure State.Truncates (s u t : State) : Prop where
  responses : t.responses = s.responses ++ [⟨.truncatedSecret, u.rcnt⟩]
  status : t.status = 0x003#11
  trace : t.trace = u.traceReleased
  image : t.image = s.image
  exh : t.exh = true
  framer : (t.comp, t.namebuf, t.sizebuf, t.sizev, t.rcnt) = (u.comp, u.namebuf, u.sizebuf, u.sizev, u.rcnt)
  sinkopen : t.sinkopen = false

/-- RETRIEVE of bytes that end at a phase short of the deserializer's end. -/
theorem retrieve_of_truncation (hok : s.portsAnswerOk) (hbits : payloadBits bytes <+: s.storedBits)
    (hshort : s.storedBits.length < 8 * bytes.length + 8) (hphase : bytes.foldl Phase.feed (.naming []) = p)
    (hgo : p.answer = none) :
    ∃ u t, exec .retrieve s = .next t ∧ u.InPhase s.traceReleased p ∧ s.Truncates u t := by
  obtain ⟨left, hleft⟩ := hbits
  have hlength := congrArg List.length hleft
  rw [List.length_append, payloadBits_length] at hlength
  obtain ⟨u, hstep, hu, hexh⟩ := retrieveStep_of_storedBits hok hleft.symm (by omega)
  rw [hphase] at hstep hu hexh
  rw [hgo] at hstep
  obtain ⟨hexec, hresponses, himage, _⟩ := exec_retrieve_of_done hstep
  refine ⟨u, _, hexec, hu, ?_⟩
  exact {
    responses := by rw [State.respond_responses, hresponses]
    status := statusWord_truncatedSecret
    trace := State.trace_releaseSink
    image := himage
    exh := (State.releaseSink_keeps State.exh (fun _ _ _ => rfl) u).trans (hexh hgo)
    framer := State.releaseSink_keeps (fun v => (v.comp, v.namebuf, v.sizebuf, v.sizev, v.rcnt)) (fun _ _ _ => rfl) u
    sinkopen := u.releaseSink_sinkopen }

/-- The trace where the deserializer had come to a phase with the sink open, or not. -/
theorem State.InPhase.traceReleased {τ : List Event} (h : u.InPhase τ p) :
    u.traceReleased = τ ++ p.events ++ if u.sinkopen then [.sinkClose] else [] := by
  rw [State.traceReleased, h.trace]

/-- A name, its NUL and a size string stand in the size string. -/
theorem Phase.foldl_feed_sizing (hname : 0x00#8 ∉ name) (hsize : 0x00#8 ∉ size) :
    (name ++ [0x00#8] ++ size).foldl Phase.feed (.naming []) = .sizing name size := by
  rw [List.foldl_append, Phase.foldl_feed_name hname,
    Phase.foldl_feed_of_chars (fun _ _ => Phase.feed_sizing_of_char) hsize, List.nil_append]

/-- Fewer raw bytes than the size leave the raw data to be gone on with. -/
theorem Phase.foldl_feed_writing_of_lt (hv : data.length + bytes.length < v) :
    bytes.foldl Phase.feed (.writing name v data) = .writing name v (data ++ bytes) := by
  induction bytes generalizing data with
  | nil => rw [List.foldl_nil, List.append_nil]
  | cons b bytes ih =>
    rw [List.length_cons] at hv
    have hleft : (data ++ [b]).length + bytes.length < v := by
      rw [List.length_append, List.length_singleton]
      omega
    rw [List.foldl_cons, Phase.feed_writing_of_more (by omega), ih hleft, List.append_assoc, List.singleton_append]

end

/-- Settles O48: a frame's bytes are delivered, whatever bytes follow. -/
theorem retrieveReadsTheFrame : Obligations.RetrieveReadsTheFrame := by
  unfold Obligations.RetrieveReadsTheFrame
  intro s name data hok hname hlo hhi hbits
  obtain ⟨u, hstep, hu⟩ := retrieveStep_of_frame hok hname hlo hhi hbits
  obtain ⟨hexec, hresponses, himage, hmask, hhung⟩ := exec_retrieve_of_done hstep
  rw [State.respond_okWith, hresponses] at hexec
  obtain ⟨hdone, hsink, hnamebuf, hsizev, hrcnt⟩ := hu.registers
  refine ⟨_, hexec, rfl, rfl, ?_, hnamebuf, hrcnt, hsizev, hdone, hsink, himage, hmask, hhung⟩
  exact hu.trace.trans (by simp only [Phase.events, List.append_assoc])

/-- Settles O49: the bytes stored come to a name, a size string or raw data not yet at its end, and only a sink that was
opened is closed. -/
theorem retrieveReportsTruncation : Obligations.RetrieveReportsTruncation := by
  unfold Obligations.RetrieveReportsTruncation
  intro s bytes hok hbits hshort
  refine ⟨fun hname => ?naming, fun name size hbytes hname hsize => ?sizing,
    fun name size data v hbytes hname hsize hparse hmore => ?writing⟩
  case naming =>
    have hphase := Phase.foldl_feed_of_chars (collecting := .naming) (fun _ _ => Phase.feed_naming_of_char) hname []
    obtain ⟨u, t, hexec, hu, ht⟩ := retrieve_of_truncation hok hbits hshort hphase rfl
    obtain ⟨⟨_, _, hcomp⟩, hsink, hnamebuf, _, _, hrcnt⟩ := hu.registers
    have hframer := ht.framer
    simp only [hcomp, hnamebuf, Prod.mk.injEq] at hframer
    obtain ⟨htcomp, htname, _⟩ := hframer
    refine ⟨t, hexec, hrcnt ▸ ht.responses, ht.status, ?_, ht.image, ht.exh, htcomp, htname, ht.sinkopen⟩
    simp [ht.trace, hu.traceReleased, hsink, Phase.events]
  case sizing =>
    have hphase : bytes.foldl Phase.feed (.naming []) = .sizing name size := by
      rw [hbytes, Phase.foldl_feed_sizing hname hsize]
    obtain ⟨u, t, hexec, hu, ht⟩ := retrieve_of_truncation hok hbits hshort hphase rfl
    obtain ⟨⟨_, _, hcomp⟩, hsink, hnamebuf, hsizebuf, hsizev, hrcnt⟩ := hu.registers
    have hframer := ht.framer
    simp only [hcomp, hnamebuf, hsizebuf, hsizev, Prod.mk.injEq] at hframer
    obtain ⟨htcomp, htname, htsize, htsizev, _⟩ := hframer
    refine ⟨t, hexec, hrcnt ▸ ht.responses, ht.status, ?_, ht.image, ht.exh, htcomp, htname, htsize, htsizev,
      ht.sinkopen⟩
    simp [ht.trace, hu.traceReleased, hsink, Phase.events]
  case writing =>
    have hphase : bytes.foldl Phase.feed (.naming []) = .writing name v data := by
      rw [hbytes, List.foldl_append, Phase.foldl_feed_name_size hname hsize, Phase.feed_sizing_nul_of_size hparse,
        Phase.foldl_feed_writing_of_lt (by simpa using hmore), List.nil_append]
    obtain ⟨u, t, hexec, hu, ht⟩ := retrieve_of_truncation hok hbits hshort hphase rfl
    obtain ⟨⟨_, _, hcomp⟩, hsink, hnamebuf, hsizev, hrcnt⟩ := hu.registers
    have hframer := ht.framer
    simp only [hcomp, hnamebuf, hsizev, hrcnt, Prod.mk.injEq] at hframer
    obtain ⟨htcomp, htname, _, htsizev, htrcnt⟩ := hframer
    refine ⟨t, hexec, hrcnt ▸ ht.responses, ht.status, ?_, ht.image, ht.exh, htcomp, htname, htsizev, htrcnt,
      ht.sinkopen⟩
    simp [ht.trace, hu.traceReleased, hsink, Phase.events]

end Sys2Proof.Machine

/-! SUPPORT. The start of EMBED (spec/46_orchestrators.md R189, R190): the state its loop begins in, and the pre-check
that ends it there. -/

namespace Sys2Proof.Machine

section
variable {s t u : State} {a : Answer}

/-- The state both operations begin in: fresh cursor, queues and framer (10_state.md R42), a sink left open closed. -/
def State.started (s : State) : State :=
  { s with
    curx := 0, cury := 0, issued := false, exh := false, brem := 0, cnt := 0, bq := [], aq := []
    comp := .fileName, idx := 0, rcnt := 0, sizev := 0
    sinkopen := false, done := false, failed := false, send := false, namebuf := [], sizebuf := []
    ports := s.ports ++ (if s.sinkopen then [.sinkClose] else []) }

theorem freshOperation_eq (s : State) : freshOperation s = .done (okWith 0) s.started :=
  finitStep_eq { s with
    curx := 0, cury := 0, issued := false, exh := false, brem := 0, cnt := 0, bq := [], aq := [] }

/-- The framed length counts the bytes of the frame (44_payload_framer.md R153, R154). -/
theorem frame_length (name data : List Byte) : (frame name data).length = framedLength name data := by
  simp only [frame, framedLength, List.length_append, List.length_singleton]

/-- What a loop of EMBED leads to: the flush, or the end after the step that failed. -/
def embedEnd (zcap : Bool) : Option Answer → State → Res Answer
  | none, s => embedFlush zcap s
  | some a, s => embedFailed zcap a s

/-- A frame above the capacity ends EMBED at its start (R189, R213, R219). -/
theorem embedStep_of_lt (h : imageCapacity s < framedLength s.srcName s.srcData) : embedStep s =
    .done { code := .capacityExceeded, value := imageCapacity s, zcap := decide (popcount s.mask = 0) }
      (loadEmbedSizes s.started).srcClose := by
  rw [embedStep, freshOperation_eq, Res.bind_done]
  exact if_pos h

/-- A frame that fits is served to the loop. -/
theorem embedStep_of_le (h : framedLength s.srcName s.srcData ≤ imageCapacity s) : embedStep s =
    (embedLoop (framedLength s.srcName s.srcData + 1) (loadEmbedSizes s.started)).bind
      (embedEnd (decide (popcount s.mask = 0))) := by
  rw [embedStep, freshOperation_eq, Res.bind_done]
  refine (if_neg (Nat.not_lt.2 h)).trans (congrArg (Res.bind _) ?_)
  funext e u
  cases e <;> rfl

end

/-- Settles O43: the pre-check's branch of the body, with the two values of ZCAP in STATUS. -/
theorem embedChecksTheCapacityFirst : Obligations.EmbedChecksTheCapacityFirst := by
  unfold Obligations.EmbedChecksTheCapacityFirst
  intro s h
  rw [frame_length] at h ⊢
  have hstatus : statusWord .capacityExceeded none (decide (popcount s.mask = 0)) =
      if popcount s.mask = 0 then 0x401#11 else 0x001#11 := by
    by_cases hmask : popcount s.mask = 0
    · rw [decide_eq_true hmask, if_pos hmask]
      decide
    · rw [decide_eq_false hmask, if_neg hmask]
      decide
  exact exec_of_answer (i := .embed) nofun (embedStep_of_lt h) hstatus

end Sys2Proof.Machine

/-! SUPPORT. EMBED and RETRIEVE beside a host that sends their steps as commands (spec/46_orchestrators.md R198): no
step reads STATUS, CAPR, FLEN or the responses, so it does from the host's state what it does inside the operation. -/

namespace Sys2Proof.Machine

/-- What EMBED and RETRIEVE keep otherwise than the host that sends their steps: STATUS, the sizes, the responses. -/
structure Bookkeeping where
  status : BitVec 11
  capr : Nat
  flen : Nat
  responses : List Response

/-- The state's own bookkeeping. -/
def State.books (s : State) : Bookkeeping := ⟨s.status, s.capr, s.flen, s.responses⟩

/-- The state under another bookkeeping. -/
def State.withBooks (b : Bookkeeping) (s : State) : State :=
  { s with status := b.status, capr := b.capr, flen := b.flen, responses := b.responses }

/-- The result with the state it leaves replaced. -/
def Res.mapState {α : Type} (f : State → State) : Res α → Res α
  | .done a s => .done a (f s)
  | .hang s => .hang (f s)
  | .fault e => .fault e

/-- The part of a command neither reads the bookkeeping nor writes it. -/
def BooksBlind {α : Type} (part : State → Res α) : Prop :=
  ∀ b s, part (State.withBooks b s) = (part s).mapState (State.withBooks b)

/-- The commands that EMBED and RETRIEVE are built from. -/
def operationSteps : List Instr := [.cinit, .finit, .fnext, .expb, .wadv, .pemb, .radv, .pext, .packb, .fput]

section
variable {α β : Type} {s t u v : State} {i : Instr} {a : Answer} {l steps : List Instr} {part part' : State → Res α}

/-! ### Steps that do not touch the bookkeeping -/

theorem BooksBlind.done {value : State → α} {next : State → State}
    (hvalue : ∀ b s, value (State.withBooks b s) = value s := by exact fun _ _ => rfl)
    (hnext : ∀ b s, next (State.withBooks b s) = State.withBooks b (next s) := by exact fun _ _ => rfl) :
    BooksBlind fun s => .done (value s) (next s) :=
  fun b s => congrArg₂ Res.done (hvalue b s) (hnext b s)

theorem BooksBlind.bind {next : α → State → Res β} (hpart : BooksBlind part) (hnext : ∀ a, BooksBlind (next a)) :
    BooksBlind fun s => (part s).bind next := by
  intro b s
  refine (congrArg (Res.bind · next) (hpart b s)).trans ?_
  dsimp only
  cases part s with
  | done a t => exact hnext a b t
  | hang t => rfl
  | fault f => rfl

theorem BooksBlind.ite {c : State → Prop} {dec : ∀ s, Decidable (c s)} (hpart : BooksBlind part)
    (hpart' : BooksBlind part') (hc : ∀ b s, c (State.withBooks b s) ↔ c s := by exact fun _ _ => Iff.rfl) :
    BooksBlind fun s => if c s then part s else part' s := by
  intro b s
  dsimp only
  by_cases h : c s
  · rw [if_pos h, if_pos ((hc b s).2 h), hpart]
  · rw [if_neg h, if_neg (mt (hc b s).1 h), hpart']

/-- A part that takes an operand takes it from what is no bookkeeping. -/
theorem BooksBlind.at {γ : Type} {part : γ → State → Res α} {arg : State → γ} (hpart : ∀ c, BooksBlind (part c))
    (harg : ∀ b s, arg (State.withBooks b s) = arg s := by exact fun _ _ => rfl) :
    BooksBlind fun s => part (arg s) s := by
  intro b s
  dsimp only
  rw [harg]
  exact hpart (arg s) b s

theorem request_booksBlind (use : PortAnswer → PortUse) : BooksBlind (request use) := by
  intro b s
  have hanswers : (State.withBooks b s).answers = s.answers := rfl
  unfold request
  rw [hanswers]
  split <;> rfl

theorem imgGet_booksBlind (x y : Nat) : BooksBlind (imgGet x y) :=
  .ite (.bind (request_booksBlind _) fun _ => .done) fun _ _ => rfl

theorem imgSet_booksBlind (x y : Nat) (p : Pixel) : BooksBlind (imgSet x y p) :=
  .ite (.bind (request_booksBlind _) fun ok => .done (hnext := fun _ _ => by cases ok <;> rfl)) fun _ _ => rfl

theorem firstAdvance_booksBlind (reload : Bool) : BooksBlind (firstAdvance reload) := by
  refine .ite (.done (hnext := fun _ _ => by cases reload <;> rfl)) (.bind (imgGet_booksBlind 0 0) fun r => ?_)
  cases r with
  | none => exact .done
  | some p => exact .done (hnext := fun _ _ => by cases reload <;> rfl)

theorem moveAndRead_booksBlind (reload : Bool) : BooksBlind (moveAndRead reload) := by
  intro b s
  have hnext : nextPosition (State.withBooks b s) = nextPosition s := rfl
  rcases hposition : nextPosition s with ⟨nx, ny⟩
  rw [hposition] at hnext
  simp only [moveAndRead, hnext, hposition]
  by_cases hend : s.imgh ≤ ny
  · rw [if_pos hend, if_pos (show (State.withBooks b s).imgh ≤ ny from hend)]
    cases reload <;> rfl
  · rw [if_neg hend, if_neg (show ¬(State.withBooks b s).imgh ≤ ny from hend)]
    refine BooksBlind.bind (imgGet_booksBlind nx ny) (fun r => ?_) b s
    cases r with
    | none => exact .done
    | some p => exact .done (hnext := fun _ _ => by cases reload <;> rfl)

theorem wadvStep_booksBlind : BooksBlind wadvStep :=
  .ite .done (.ite
    (.bind (.at (part := fun (c : Nat × Nat × Pixel) => imgSet c.1 c.2.1 c.2.2)
      (arg := fun s => (s.curx, s.cury, s.pxr)) fun _ => imgSet_booksBlind _ _ _) fun _ =>
        .ite (moveAndRead_booksBlind true) .done)
    (firstAdvance_booksBlind true))

theorem radvStep_booksBlind : BooksBlind radvStep :=
  .ite .done (.ite (moveAndRead_booksBlind false) (firstAdvance_booksBlind false))

theorem finitStep_booksBlind : BooksBlind finitStep := by
  intro b s
  rw [finitStep_eq, finitStep_eq]
  rfl

theorem pembStep_booksBlind : BooksBlind pembStep := .ite .done .done

theorem pextStep_booksBlind : BooksBlind pextStep := .ite .done .done

theorem packbStep_booksBlind : BooksBlind packbStep := .ite .done .done

theorem emitFrom_booksBlind (next : Component) (text : List Byte) : BooksBlind (emitFrom text next) := by
  intro b s
  have hchar : text[(State.withBooks b s).idx]? = text[s.idx]? := rfl
  unfold emitFrom
  rw [hchar]
  split <;> rfl

theorem srcRead_booksBlind (i : Nat) : BooksBlind (srcRead i) := by
  refine .bind (request_booksBlind _) fun ok => ?_
  cases ok <;> exact .done

theorem fnextStep_booksBlind : BooksBlind fnextStep := by
  refine .ite .done fun b s => ?_
  have hcomp : (State.withBooks b s).comp = s.comp := rfl
  rw [hcomp]
  cases s.comp with
  | fileName => exact BooksBlind.at (arg := State.srcName) (emitFrom_booksBlind .fileSize) (b := b) (s := s)
  | fileSize =>
    exact BooksBlind.at (arg := fun s => dec s.srcData.length) (emitFrom_booksBlind .rawData) (b := b) (s := s)
  | rawData =>
    refine BooksBlind.bind (.at (arg := State.rcnt) srcRead_booksBlind) (fun r => ?_) b s
    cases r <;> exact .done

theorem fputName_booksBlind : BooksBlind fputName := by
  refine .ite .done (.bind (.at (arg := State.namebuf) fun name => request_booksBlind (.sinkOpen name)) fun ok => ?_)
  cases ok <;> exact .done

theorem fputSize_booksBlind : BooksBlind fputSize := by
  refine .ite .done fun b s => ?_
  have hsize : (State.withBooks b s).sizebuf = s.sizebuf := rfl
  rw [hsize]
  cases parseSize s.sizebuf with
  | none =>
    have hopen : (State.withBooks b s).sinkopen = s.sinkopen := rfl
    dsimp only
    rw [hopen]
    split <;> rfl
  | some v => rfl

theorem fputRaw_booksBlind : BooksBlind fputRaw :=
  .bind (.at (arg := State.byter) fun byte => request_booksBlind (.sinkWrite byte)) fun _ =>
    .ite (.ite .done .done) .done

theorem fputStep_booksBlind : BooksBlind fputStep := by
  refine .ite .done (.ite .done fun b s => ?_)
  have hcomp : (State.withBooks b s).comp = s.comp := rfl
  rw [hcomp]
  cases s.comp with
  | fileName => exact fputName_booksBlind b s
  | fileSize => exact fputSize_booksBlind b s
  | rawData => exact fputRaw_booksBlind b s

/-- No step of EMBED or RETRIEVE touches the bookkeeping. -/
theorem bodyOf_booksBlind (hi : i ∈ operationSteps) : BooksBlind (bodyOf i) := by
  fin_cases hi
  · exact fun _ _ => rfl
  · exact finitStep_booksBlind
  · exact fnextStep_booksBlind
  · exact .done
  · exact wadvStep_booksBlind
  · exact pembStep_booksBlind
  · exact radvStep_booksBlind
  · exact pextStep_booksBlind
  · exact packbStep_booksBlind
  · exact fputStep_booksBlind

/-! ### The host beside the operation -/

/-- From `s` the host reaches by its commands the state `t`, but for the bookkeeping. -/
def State.HostReaches (s : State) (l : List Instr) (t : State) : Prop :=
  ∃ u, runCommands l s = .next u ∧ t = u.withBooks t.books

/-- A step of the operation is one more command of the host. -/
theorem State.HostReaches.step (h : s.HostReaches l t) (hi : i ∈ operationSteps) (hstep : bodyOf i t = .done a v) :
    s.HostReaches (l ++ [i]) v := by
  obtain ⟨u, hrun, ht⟩ := h
  rw [ht, bodyOf_booksBlind hi] at hstep
  have hread (imm8 : Byte) : i ≠ .rdreg imm8 := by rintro rfl; simp [operationSteps] at hi
  cases hbody : bodyOf i u with
  | done b w =>
    rw [hbody] at hstep
    obtain ⟨_, rfl⟩ := Res.done.inj hstep
    exact ⟨_, runCommands_concat hrun (exec_of_done hread hbody), rfl⟩
  | hang w => rw [hbody] at hstep; cases hstep
  | fault f => rw [hbody] at hstep; cases hstep

/-- After CINIT and FINIT the host reaches `t` by a sequence of the commands `steps`. -/
def State.HostFollows (s : State) (steps : List Instr) (t : State) : Prop :=
  ∃ sequence, (∀ i ∈ sequence, i ∈ steps) ∧ s.HostReaches (.cinit :: .finit :: sequence) t

/-- CINIT and FINIT are the start of both operations. -/
theorem hostFollows_started (s : State) (steps : List Instr) : s.HostFollows steps s.started := by
  have hs : s.HostReaches [] s := ⟨s, rfl, rfl⟩
  have hcinit := hs.step (i := .cinit) (List.mem_of_elem_eq_true rfl) rfl
  exact ⟨[], nofun, hcinit.step (i := .finit) (List.mem_of_elem_eq_true rfl) (finitStep_eq _)⟩

theorem hostFollows_keeps (hi : i ∈ steps) (hsteps : steps ⊆ operationSteps) :
    Keeps (s.HostFollows steps) (fun _ => True) (bodyOf i) := by
  refine keeps_iff.2 fun t ⟨sequence, hsequence, ht⟩ => ⟨fun a u hstep => ?_, fun _ _ => trivial⟩
  refine ⟨sequence ++ [i], fun j hj => ?_, ht.step (hsteps hi) hstep⟩
  rcases List.mem_append.1 hj with hold | hnew
  · exact hsequence j hold
  · rwa [List.mem_singleton.1 hnew]

/-- Whatever ends a loop of EMBED, the source is closed last (R190). -/
theorem embedEnd_closes {P H : State → Prop} (hwadv : Keeps P H wadvStep) {zcap : Bool} {e : Option Answer} (ht : P t)
    (h : embedEnd zcap e t = .done a u) : ∃ v, P v ∧ u = v.srcClose := by
  have hfailed {b : Answer} {v : State} (hv : P v) (h : embedFailed zcap b v = .done a u) : 
      ∃ v, P v ∧ u = v.srcClose := by
    unfold embedFailed at h
    split at h <;> obtain ⟨_, rfl⟩ := Res.done.inj h <;> exact ⟨v, hv, rfl⟩
  cases e with
  | some b => exact hfailed ht h
  | none =>
    obtain ⟨b, v, hflush, h⟩ := Res.bind_eq_done.1 h
    have hv : P v := (hwadv t ht).of_done hflush
    split at h
    · exact hfailed hv h
    · obtain ⟨_, rfl⟩ := Res.done.inj h
      exact ⟨v, hv, rfl⟩

/-- An answer of FPUT that ends a retrieval for good leaves no open sink (R160). -/
theorem fputStep_sinkopen (hs : s.framerFlagsApart) (h : fputStep s = .done a t)
    (ha : a.code = .done ∨ a.code = .noSecretFound) : t.sinkopen = false := by
  obtain ⟨_, hopen⟩ := hs
  rcases fputStep_cases h with ⟨hdone, _, rfl⟩ | ⟨_, hfailed, _, rfl⟩ | ⟨_, _, _, hname⟩ | ⟨_, _, _, hsize⟩ |
    ⟨_, _, _, hraw⟩
  · exact Bool.eq_false_iff.2 fun ho => nomatch hdone.symm.trans (hopen ho).1
  · exact Bool.eq_false_iff.2 fun ho => nomatch hfailed.symm.trans (hopen ho).2
  · rcases fputName_cases hname with ⟨_, rfl, _⟩ | ⟨_, _, rfl, _⟩ | ⟨_, _, rfl, _⟩ <;> exact absurd ha nofun
  · rcases fputSize_cases hsize with ⟨_, rfl, _⟩ | ⟨_, _, _, _, rfl⟩ | ⟨_, _, hclosed, _, rfl⟩ | ⟨_, _, _, rfl, _⟩
    · exact absurd ha nofun
    · rfl
    · exact hclosed
    · exact absurd ha nofun
  · rcases fputRaw_cases hraw with ⟨_, _, _, rfl⟩ | ⟨_, _, rfl, _⟩ | ⟨_, rfl, _⟩
    · rfl
    · exact absurd ha nofun
    · exact absurd ha nofun

/-- A round of bytes that ends the retrieval ends with the answer of a FPUT. -/
theorem feedBytes_ends {P H : State → Prop} {k : Nat} (hpackb : Keeps P H packbStep) (hfput : Keeps P H fputStep)
    (hs : P s) (h : feedBytes k s = .done (some a) t) : ∃ u, P u ∧ fputStep u = .done a t := by
  induction k generalizing s with
  | zero => cases h
  | succ k ih =>
    unfold feedBytes at h
    split at h
    · cases h
    · obtain ⟨_, u, hpack, h⟩ := Res.bind_eq_done.1 h
      obtain ⟨r, v, hput, h⟩ := Res.bind_eq_done.1 h
      have hu : P u := (hpackb s hs).of_done hpack
      split at h
      · exact ih ((hfput u hu).of_done hput) h
      · obtain ⟨hr, rfl⟩ := Res.done.inj h
        exact ⟨u, hu, Option.some.inj hr ▸ hput⟩

/-- A retrieval ends at a RADV that does not go on, or at the answer of a FPUT. -/
theorem retrieveLoop_ends {P H : State → Prop} {k : Nat} (hradv : Keeps P H radvStep) (hpext : Keeps P H pextStep)
    (hpackb : Keeps P H packbStep) (hfput : Keeps P H fputStep) (hs : P s) (h : retrieveLoop k s = .done a t) :
    a.stops = true ∨ ∃ u, P u ∧ fputStep u = .done a t := by
  induction k generalizing s with
  | zero => cases h
  | succ k ih =>
    unfold retrieveLoop at h
    obtain ⟨r, u, hadvance, h⟩ := Res.bind_eq_done.1 h
    have hu : P u := (hradv s hs).of_done hadvance
    split at h
    next hstops =>
      obtain ⟨rfl, rfl⟩ := Res.done.inj h
      exact .inl hstops
    next =>
      obtain ⟨_, v, hextract, h⟩ := Res.bind_eq_done.1 h
      obtain ⟨e, w, hfeed, h⟩ := Res.bind_eq_done.1 h
      have hv : P v := (hpext u hu).of_done hextract
      cases e with
      | some r =>
        obtain ⟨rfl, rfl⟩ := Res.done.inj h
        exact .inr (feedBytes_ends hpackb hfput hv hfeed)
      | none => exact ih ((feedBytes_keeps hpackb hfput _ v hv).of_done hfeed) h

/-- A retrieval that delivered or found no secret has ended its sink already (R195). -/
theorem retrieveLoop_sinkopen {k : Nat} (hs : s.framerFlagsApart) (h : retrieveLoop k s = .done a t)
    (ha : a.code = .done ∨ a.code = .noSecretFound) : t.sinkopen = false := by
  rcases retrieveLoop_ends (body_keeps_flags .radv) (body_keeps_flags .pext) (body_keeps_flags .packb)
    fputStep_keeps_flags hs h with hstops | ⟨u, hu, hput⟩
  · rcases ha with ha | ha <;> simp [Answer.stops, ha] at hstops
  · exact fputStep_sinkopen hu hput ha

/-- The end of RETRIEVE releases the sink where the loop left one open (R195, R196). -/
theorem retrieveEnd_releases (hclosed : a.code = .done ∨ a.code = .noSecretFound → s.sinkopen = false) {b : Answer}
    (h : retrieveEnd a s = .done b t) : t = s.releaseSink := by
  have hrelease (hended : a.code = .done ∨ a.code = .noSecretFound) : s.releaseSink = s :=
    if_neg (Bool.eq_false_iff.1 (hclosed hended))
  unfold retrieveEnd at h
  split at h
  next hcode => exact (Res.done.inj h).2 ▸ (hrelease (.inl hcode)).symm
  next hcode => exact (Res.done.inj h).2 ▸ (hrelease (.inr hcode)).symm
  all_goals exact (Res.done.inj h).2.symm

theorem State.releaseSink_withBooks (b : Bookkeeping) (u : State) :
    (u.withBooks b).releaseSink = u.releaseSink.withBooks b := by
  have hopen : (u.withBooks b).sinkopen = u.sinkopen := rfl
  unfold State.releaseSink
  rw [hopen]
  split <;> rfl

/-- Books that keep EMBED's sizes change nothing but STATUS and the responses. -/
theorem State.respond_withBooks {b : Bookkeeping} (hcapr : b.capr = u.capr) (hflen : b.flen = u.flen) :
    (u.withBooks b).respond a = { u with
      status := ((u.withBooks b).respond a).status, responses := ((u.withBooks b).respond a).responses } := by
  obtain ⟨_, _, _, _⟩ := b
  cases hcapr
  cases hflen
  rfl

/-- What every command of a sequence keeps the sequence keeps. -/
theorem runCommands_keeps {γ : Type} (f : State → γ)
    (hf : ∀ i ∈ l, ∀ u : State, f (u.forget i).forgetOutcome = f u) (hrun : runCommands l s = .next t) : f t = f s := by
  induction l generalizing s with
  | nil => cases hrun; rfl
  | cons i l ih =>
    unfold runCommands at hrun
    split at hrun
    next u hexec =>
      exact (ih (fun j hj => hf j (List.mem_cons_of_mem i hj)) hrun).trans
        (exec_keeps hexec f (hf i List.mem_cons_self))
    next => cases hrun
    next => cases hrun

/-- No step of the operations writes EMBED's sizes (10_state.md R41). -/
theorem operationSteps_keep_sizes (hi : i ∈ operationSteps) :
    ((u.forget i).forgetOutcome.capr, (u.forget i).forgetOutcome.flen) = (u.capr, u.flen) := by
  fin_cases hi <;> rfl

/-- The steps of an EMBED past its pre-check are commands of the host (R190). -/
theorem embedStep_hostFollows (hfits : framedLength s.srcName s.srcData ≤ imageCapacity s)
    (h : embedStep s = .done a t) :
    ∃ u, s.HostFollows [.fnext, .expb, .wadv, .pemb] u ∧ t = u.srcClose := by
  have hkeeps (i : Instr) (hi : i ∈ [Instr.fnext, .expb, .wadv, .pemb]) :
      Keeps (s.HostFollows [.fnext, .expb, .wadv, .pemb]) (fun _ => True) (bodyOf i) :=
    hostFollows_keeps hi (by decide)
  rw [embedStep_of_le hfits] at h
  obtain ⟨e, u, hloop, h⟩ := Res.bind_eq_done.1 h
  have hstart : s.HostFollows [.fnext, .expb, .wadv, .pemb] (loadEmbedSizes s.started) := by
    obtain ⟨sequence, hsequence, u, hrun, hu⟩ := hostFollows_started s [.fnext, .expb, .wadv, .pemb]
    refine ⟨sequence, hsequence, u, hrun, ?_⟩
    rw [hu]
    rfl
  have hu := (embedLoop_keeps (hkeeps .fnext (by decide)) (hkeeps .expb (by decide)) (hkeeps .wadv (by decide))
    (hkeeps .pemb (by decide)) _ _ hstart).of_done hloop
  exact embedEnd_closes (hkeeps .wadv (by decide)) hu h

/-- The steps of a RETRIEVE are commands of the host (R195). -/
theorem retrieveStep_hostFollows (h : retrieveStep s = .done a t) :
    ∃ u, s.HostFollows [.radv, .pext, .packb, .fput] u ∧ t = u.releaseSink := by
  have hkeeps (i : Instr) (hi : i ∈ [Instr.radv, .pext, .packb, .fput]) :
      Keeps (s.HostFollows [.radv, .pext, .packb, .fput]) (fun _ => True) (bodyOf i) :=
    hostFollows_keeps hi (by decide)
  rw [retrieveStep, freshOperation_eq, Res.bind_done] at h
  obtain ⟨b, u, hloop, h⟩ := Res.bind_eq_done.1 h
  have hu := (retrieveLoop_keeps (hkeeps .radv (by decide)) (hkeeps .pext (by decide)) (hkeeps .packb (by decide))
    (hkeeps .fput (by decide)) _ _ (hostFollows_started s _)).of_done hloop
  have hflags : s.started.framerFlagsApart := State.framerFlagsApart_of_clear rfl rfl
  exact ⟨u, hu, retrieveEnd_releases (retrieveLoop_sinkopen hflags hloop) h⟩

end

/-- Settles O52: each step of an operation is the host's command of that name, as no step reads what the host keeps
otherwise. -/
theorem operationsEqualHostSequences : Obligations.OperationsEqualHostSequences := by
  unfold Obligations.OperationsEqualHostSequences
  refine ⟨fun s t h hended hfits => ?embed, fun s t h hended => ?retrieve⟩
  case embed =>
    rw [frame_length] at hfits
    rcases finish_eq_next.1 h with ⟨a, v, hbody, rfl⟩ | ⟨v, _, rfl⟩
    · obtain ⟨w, ⟨sequence, hsequence, u, hrun, hw⟩, rfl⟩ := embedStep_hostFollows hfits hbody
      refine ⟨sequence, u, hsequence, hrun, ?_⟩
      rw [hw]
      rfl
    · cases hended
  case retrieve =>
    have hsizes : (t.capr, t.flen) = (s.capr, s.flen) := exec_keeps h (fun u => (u.capr, u.flen)) fun _ => rfl
    rcases finish_eq_next.1 h with ⟨a, v, hbody, rfl⟩ | ⟨v, _, rfl⟩
    · obtain ⟨w, ⟨sequence, hsequence, u, hrun, hw⟩, rfl⟩ := retrieveStep_hostFollows hbody
      have hsteps : .cinit :: .finit :: sequence ⊆ operationSteps := by
        refine List.cons_subset.2 ⟨by decide, List.cons_subset.2 ⟨by decide, fun i hi => ?_⟩⟩
        have hcommands : [Instr.radv, .pext, .packb, .fput] ⊆ operationSteps := by decide
        exact hcommands (hsequence i hi)
      have hhost : (u.capr, u.flen) = (s.capr, s.flen) :=
        runCommands_keeps (fun v => (v.capr, v.flen)) (fun i hi _ => operationSteps_keep_sizes (hsteps hi)) hrun
      have hrelease := State.releaseSink_keeps (fun v => (v.capr, v.flen)) (fun _ _ _ => rfl) u
      refine ⟨sequence, u, hsequence, hrun, ?_⟩
      generalize w.books = b at hw
      subst hw
      rw [State.releaseSink_withBooks] at hsizes ⊢
      obtain ⟨hcapr, hflen⟩ := Prod.mk.inj (hsizes.trans (hrelease.trans hhost).symm)
      exact State.respond_withBooks hcapr hflen
    · cases hended

end Sys2Proof.Machine

/-! SUPPORT. EMBED places the bits it has served so far, each in its slot, whatever the ports answer
(spec/46_orchestrators.md R190, R193; 20_memory.md R63): every pixel but the one in PXR stands in the image with its
bits, and the budget counts the slots PXR has left. -/

namespace Sys2Proof.Machine

/-! ### What is placed -/

/-- The pixel of row-major index `j` (20_memory.md R50). -/
def State.pixelOf (s : State) (j : Nat) : Pixel := s.pixelAt (j % s.imgw) (j / s.imgw)

/-- The pixel of index `j` with its share of the bits `q` in its slots (R63, 41_bit_embedder.md R106). -/
def State.embedded (s : State) (q : List Bool) (j : Nat) : Pixel :=
  (embedPx (s.pixelOf j) (q.drop (j * slotCount s.mask)) s.mask (slotCount s.mask)).pixel

/-- The image of `t` is that of `s` with the bits `q` in its slots. -/
def State.Shows (s : State) (q : List Bool) (t : State) : Prop :=
  ∀ j < s.imgw * s.imgh, t.pixelOf j = s.embedded q j

/-- The pixel of index `j`, which is in PXR when it is the last of the `y` pixels yielded. -/
def State.heldPixel (t : State) (y j : Nat) : Pixel := if y = j + 1 then t.pxr else t.pixelOf j

/-- The traversal of the image of `s` has yielded `y` pixels and goes on. -/
def State.Traverses (s : State) (y : Nat) (t : State) : Prop :=
  (t.mask = s.mask ∧ t.imgw = s.imgw ∧ t.imgh = s.imgh) ∧ t.exh = false ∧ t.CursorBefore s.imgw y ∧
    y ≤ s.imgw * s.imgh

/-- The bits `q` are placed, in the image and, for the last of the `y` pixels yielded, in PXR. -/
def State.Holds (s : State) (y : Nat) (q : List Bool) (t : State) : Prop :=
  s.image.wf = true → t.image.wf = true ∧ ∀ j < s.imgw * s.imgh, t.heldPixel y j = s.embedded q j

/-- EMBED has placed the bits `q` in the first `y` pixels. -/
def State.Placed (s : State) (y : Nat) (q : List Bool) (t : State) : Prop := s.Traverses y t ∧ s.Holds y q t

/-- The budget is the number of slots of the `y` pixels that the bits `q` have left (10_state.md R31). -/
def State.Budgeted (s : State) (y : Nat) (q : List Bool) (t : State) : Prop :=
  q.length + t.brem = y * slotCount s.mask ∧ t.brem ≤ slotCount s.mask

section
variable {s t u : State} {a : Answer} {p : Pixel} {mask : Byte} {q q₁ q₂ : List Bool}
  {j k r y : Nat}

/-! ### The bits of one pixel -/

/-- embed_px takes from the queue no more than the budget (R106). -/
theorem embedPx_take : (embedPx p (q.take (min q.length r)) mask r).pixel = (embedPx p q mask r).pixel := by
  have hlength : min (q.take (min q.length r)).length r = min q.length r := by rw [List.length_take]; omega
  simp only [embedPx, hlength, List.take_take, Nat.min_self]

/-- Bits behind a queue that fills the budget are not used. -/
theorem embedPx_append_of_full (h : r ≤ slotCount mask) (hfull : r ≤ q₁.length) :
    (embedPx p (q₁ ++ q₂) mask r).pixel = (embedPx p q₁ mask r).pixel := by
  have hslots : ((slots mask).drop (slotCount mask - r)).length ≤ q₁.length := by
    rw [List.length_drop, slots_length]
    omega
  rw [embedPx_pixel h, embedPx_pixel h, fillSlots_append, List.drop_of_length_le hslots, fillSlots_nil_left]

/-- Without a bit no pixel is changed. -/
theorem State.embedded_of_le (h : q.length ≤ j * slotCount s.mask) : s.embedded q j = s.pixelOf j := by
  rw [State.embedded, List.drop_of_length_le h, embedPx_pixel (Nat.le_refl _), fillSlots_nil_right,
    encodePixel_decodePixel]

/-- A pixel whose slots are all filled takes none of the bits behind. -/
theorem State.embedded_append_of_full (h : (j + 1) * slotCount s.mask ≤ q₁.length) :
    s.embedded (q₁ ++ q₂) j = s.embedded q₁ j := by
  rw [Nat.succ_mul] at h
  rw [State.embedded, List.drop_append_of_le_length (by omega),
    embedPx_append_of_full (Nat.le_refl _) (by rw [List.length_drop]; omega)]
  rfl

/-- A pixel with `r` slots left takes the next bits as PEMB embeds them. -/
theorem State.embedded_append (h : q₁.length + r = (j + 1) * slotCount s.mask) (hr : r ≤ slotCount s.mask) :
    s.embedded (q₁ ++ q₂) j = (embedPx (s.embedded q₁ j) q₂ s.mask r).pixel := by
  rw [Nat.succ_mul] at h
  have hleft : slotCount s.mask - (q₁.drop (j * slotCount s.mask)).length = r := by rw [List.length_drop]; omega
  have hstarted : (q₁.drop (j * slotCount s.mask)).length ≤ slotCount s.mask := by rw [List.length_drop]; omega
  rw [State.embedded, State.embedded, List.drop_append_of_le_length (by omega),
    ← embedPx_embedPx hstarted (Nat.le_refl _), hleft]

/-! ### An advance of the write cursor -/

/-- How an advance of EMBED ends: at a failed access, at the next pixel, or at the end of the image; in the last two
every pixel stands in the image. -/
inductive State.Advanced (s : State) (y : Nat) (q : List Bool) (t : State) (a : Answer) (u : State) : Prop
  | failed (hcode : a.code = .ioFailure) (hports : ¬t.portsAnswerOk)
  | yielded (hcode : a.code = .ok) (hplaced : s.Placed (y + 1) q u) (hbrem : u.brem = slotCount s.mask)
      (hshows : s.image.wf = true → s.Shows q u)
  | exhausted (hcode : a.code = .exhausted) (hend : y = s.imgw * s.imgh) (hshows : s.image.wf = true → s.Shows q u)

theorem not_portsAnswerOk_of_fail (hfail : s.answers.headD .ok = .fail) : ¬s.portsAnswerOk :=
  fun hok => nomatch hok.nextAccessOk.symm.trans hfail

/-- Past the first pixel the next position is that of the next index. -/
theorem State.CursorBefore.nextPosition (h : t.CursorBefore t.imgw (y + 1)) (hw : 0 < t.imgw) :
    nextPosition t = ((y + 1) % t.imgw, (y + 1) / t.imgw) := by
  obtain ⟨_, hx, hy⟩ := h
  rw [Machine.nextPosition, hx, hy, rowMajor_succ hw]

/-- A pixel read into PXR leaves the bits placed as they are. -/
theorem State.holds_of_shows (ht : s.image.wf = true → t.image.wf = true ∧ s.Shows q t) (hpxr : u.pxr = t.pixelOf y)
    (himage : u.image = t.image) (himgw : u.imgw = t.imgw) : s.Holds (y + 1) q u := by
  intro hwf
  obtain ⟨htwf, hshows⟩ := ht hwf
  refine ⟨himage ▸ htwf, fun j hj => ?_⟩
  rw [← hshows j hj]
  unfold State.heldPixel
  split
  next heq => rw [hpxr, Nat.succ.inj heq]
  next => rw [State.pixelOf, State.pixelAt, himage, himgw]; rfl

theorem firstAdvance_of_placed (ht : s.Placed 0 q t) (h : firstAdvance true t = .done a u) : s.Advanced 0 q t a u := by
  obtain ⟨⟨⟨hmask, himgw, himgh⟩, hexh, ⟨_, hx, hy⟩, _⟩, hholds⟩ := ht
  have hshows : s.image.wf = true → t.image.wf = true ∧ s.Shows q t := hholds
  rcases firstAdvance_cases h with ⟨hempty, rfl, rfl⟩ | ⟨hin, _, rfl, rfl⟩ | ⟨_, hfail, rfl, rfl⟩
  · rw [himgw, himgh] at hempty
    exact .exhausted rfl (Nat.mul_eq_zero.2 hempty).symm fun hwf => (hshows hwf).2
  · obtain ⟨hw, hh⟩ := State.inImage_iff.1 hin
    rw [himgw] at hw
    rw [himgh] at hh
    have horigin : t.pixelAt 0 0 = t.pixelOf 0 := by rw [State.pixelOf, Nat.zero_mod, Nat.zero_div]
    refine .yielded rfl ⟨⟨⟨hmask, himgw, himgh⟩, hexh, ⟨rfl, ?_, ?_⟩, Nat.mul_pos hw hh⟩, ?_⟩ ?_
      fun hwf => (hshows hwf).2
    · exact hx.trans (Nat.zero_mod _).symm
    · exact hy.trans (Nat.zero_div _).symm
    · exact State.holds_of_shows hshows horigin rfl rfl
    · exact congrArg slotCount hmask
  · exact .failed rfl (not_portsAnswerOk_of_fail hfail)

theorem moveAndRead_of_shows (ht : s.Traverses (y + 1) t)
    (hshows : s.image.wf = true → t.image.wf = true ∧ s.Shows q t) (h : moveAndRead true t = .done a u) :
    s.Advanced (y + 1) q t a u := by
  obtain ⟨⟨hmask, himgw, himgh⟩, hexh, hcursor, hbound⟩ := ht
  obtain ⟨hw, _, _⟩ := rowMajor_bounds hbound
  have hnext : nextPosition t = ((y + 1) % s.imgw, (y + 1) / s.imgw) := by
    rw [← himgw] at hcursor hw ⊢
    exact hcursor.nextPosition hw
  rcases moveAndRead_cases h with ⟨hend, rfl, rfl⟩ | ⟨hin, _, rfl, rfl⟩ | ⟨_, hfail, rfl, rfl⟩
  · rw [hnext, himgh] at hend
    have hlast : s.imgw * s.imgh ≤ y + 1 := by
      rw [Nat.mul_comm]
      exact (Nat.le_div_iff_mul_le hw).1 hend
    exact .exhausted rfl (Nat.le_antisymm hbound hlast) fun hwf => (hshows hwf).2
  · rw [hnext] at hin ⊢
    obtain ⟨_, hrow⟩ := State.inImage_iff.1 hin
    have hmore : y + 1 < s.imgw * s.imgh := by
      rw [himgh, Nat.div_lt_iff_lt_mul hw, Nat.mul_comm] at hrow
      exact hrow
    have hissued : t.issued = true := hcursor.1
    have hpixel : t.pixelAt ((y + 1) % s.imgw) ((y + 1) / s.imgw) = t.pixelOf (y + 1) := by
      rw [State.pixelOf, himgw]
    refine .yielded rfl ⟨⟨⟨hmask, himgw, himgh⟩, hexh, ⟨hissued, rfl, rfl⟩, hmore⟩, ?_⟩ ?_ fun hwf => (hshows hwf).2
    · exact State.holds_of_shows hshows hpixel rfl rfl
    · exact congrArg slotCount hmask
  · exact .failed rfl (not_portsAnswerOk_of_fail hfail)

/-- A commit puts the pixel in PXR in its place in the image. -/
theorem State.Placed.commit (ht : s.Placed (y + 1) q t) (hwf : s.image.wf = true) :
    (t.afterCommit t.curx t.cury t.pxr).image.wf = true ∧ s.Shows q (t.afterCommit t.curx t.cury t.pxr) := by
  obtain ⟨⟨⟨_, himgw, _⟩, _, ⟨_, hx, hy⟩, hbound⟩, hholds⟩ := ht
  obtain ⟨htwf, hpixels⟩ := hholds hwf
  obtain ⟨hread, _⟩ := pixelReadsAsLastWritten
  obtain ⟨hw, _, _⟩ := rowMajor_bounds hbound
  refine ⟨Memory.wf_writePixel htwf _ _, fun j hj => ?_⟩
  have hplace : (j % t.imgw = t.curx ∧ j / t.imgw = t.cury) ↔ y + 1 = j + 1 := by
    rw [himgw, hx, hy]
    refine ⟨fun ⟨hcolumn, hrow⟩ => ?_, fun heq => by rw [Nat.succ.inj heq]; exact ⟨rfl, rfl⟩⟩
    rw [← Nat.mod_add_div y s.imgw, ← Nat.mod_add_div j s.imgw, hcolumn, hrow]
  have hwritten := hread t t.curx t.cury (j % t.imgw) (j / t.imgw) t.pxr htwf (by rw [hx, himgw]; exact Nat.mod_lt _ hw)
    (by rw [himgw]; exact Nat.mod_lt _ hw)
  rw [← hpixels j hj]
  simp only [hplace] at hwritten
  exact hwritten

theorem wadvStep_of_placed (ht : s.Placed y q t) (h : wadvStep t = .done a u) : s.Advanced y q t a u := by
  have ⟨⟨hsame, hexh, hcursor, hbound⟩, _⟩ := ht
  rcases wadvStep_cases h with ⟨hended, _⟩ | ⟨_, hfresh, hfirst⟩ | ⟨_, hissued, _, _, hmove⟩ |
    ⟨_, _, _, hfail, rfl, rfl⟩
  · exact nomatch hexh.symm.trans hended
  · cases y with
    | zero => exact firstAdvance_of_placed ht hfirst
    | succ y => exact nomatch hfresh.symm.trans hcursor.1
  · cases y with
    | zero => exact nomatch hcursor.1.symm.trans hissued
    | succ y =>
      have hcommitted : s.Traverses (y + 1) (t.afterCommit t.curx t.cury t.pxr) := ⟨hsame, hexh, hcursor, hbound⟩
      cases moveAndRead_of_shows hcommitted (fun hwf => ht.commit hwf) hmove with
      | failed hcode hports =>
        exact .failed hcode fun hok => hports fun _ hanswer => hok _ (List.mem_of_mem_tail hanswer)
      | yielded hcode hplaced hbrem hshows => exact .yielded hcode hplaced hbrem hshows
      | exhausted hcode hend hshows => exact .exhausted hcode hend hshows
  · exact .failed rfl (not_portsAnswerOk_of_fail hfail)

end

end Sys2Proof.Machine

/-! SUPPORT. The steps of EMBED's loop (spec/46_orchestrators.md R190): they keep answers that are all ok, FNEXT serves
the bytes of the frame one by one, and PEMB places the bits waiting that there is a budget for. -/

namespace Sys2Proof.Machine

section
variable {s t u : State} {a : Answer} {e : Option Answer} {rest : List Byte} {q q₂ : List Bool} {j k r y : Nat}

/-! ### Answers to come that are all ok -/

theorem State.portsAnswerOk.of_tail (h : s.portsAnswerOk) (ht : t.answers = s.answers.tail) : t.portsAnswerOk :=
  fun _ hanswer => h _ (List.mem_of_mem_tail (ht ▸ hanswer))

theorem State.portsAnswerOk.not_never (h : s.portsAnswerOk) : s.answers.headD .ok ≠ .never :=
  fun hnever => nomatch h.nextAccessOk.symm.trans hnever

theorem firstAdvance_keeps_ports (reload : Bool) :
    Keeps State.portsAnswerOk (fun _ => False) (firstAdvance reload) := by
  refine keeps_iff.2 fun s hs => ⟨fun a t h => ?_, fun t h => hs.not_never (firstAdvance_hang h).2.1⟩
  rcases firstAdvance_cases h with ⟨_, _, rfl⟩ | ⟨_, _, _, rfl⟩ | ⟨_, _, _, rfl⟩
  · exact hs
  · exact hs.of_tail rfl
  · exact hs.of_tail rfl

theorem moveAndRead_keeps_ports (reload : Bool) :
    Keeps State.portsAnswerOk (fun _ => False) (moveAndRead reload) := by
  refine keeps_iff.2 fun s hs => ⟨fun a t h => ?_, fun t h => hs.not_never (moveAndRead_hang h).2.1⟩
  rcases moveAndRead_cases h with ⟨_, _, rfl⟩ | ⟨_, _, _, rfl⟩ | ⟨_, _, _, rfl⟩
  · exact hs
  · exact hs.of_tail rfl
  · exact hs.of_tail rfl

theorem wadvStep_keeps_ports : Keeps State.portsAnswerOk (fun _ => False) wadvStep := by
  refine keeps_iff.2 fun s hs => ?_
  have hcommitted : (s.afterCommit s.curx s.cury s.pxr).portsAnswerOk := hs.of_tail rfl
  refine ⟨fun a t h => ?_, fun t h => ?_⟩
  · rcases wadvStep_cases h with ⟨_, _, rfl⟩ | ⟨_, _, hfirst⟩ | ⟨_, _, _, _, hmove⟩ | ⟨_, _, _, _, _, rfl⟩
    · exact hs
    · exact (firstAdvance_keeps_ports true s hs).of_done hfirst
    · exact (moveAndRead_keeps_ports true _ hcommitted).of_done hmove
    · exact hs.of_tail rfl
  · obtain ⟨_, ⟨_, hfirst⟩ | ⟨_, _, hnever, _⟩ | ⟨_, _, _, hmove⟩⟩ := wadvStep_hang h
    · exact (firstAdvance_keeps_ports true s hs).of_hang hfirst
    · exact hs.not_never hnever
    · exact (moveAndRead_keeps_ports true _ hcommitted).of_hang hmove

theorem fnextStep_keeps_ports : Keeps State.portsAnswerOk (fun _ => False) fnextStep := by
  have hemit {s t : State} {a : Answer} {text : List Byte} {next : Component} (hs : s.portsAnswerOk)
      (h : emitFrom text next s = .done a t) : t.portsAnswerOk := by
    rcases emitFrom_cases h with ⟨_, _, _, rfl⟩ | ⟨_, _, rfl⟩ <;> exact hs
  refine keeps_iff.2 fun s hs => ⟨fun a t h => ?_, fun t h => hs.not_never (fnextStep_hang h).2.2.1⟩
  rcases fnextStep_cases h with ⟨_, _, rfl⟩ | ⟨_, _, htext⟩ | ⟨_, _, htext⟩ | ⟨_, _, _, _, rfl⟩ |
    ⟨_, _, _, _, _, rfl⟩ | ⟨_, _, _, _, _, _, rfl⟩
  · exact hs
  · exact hemit hs htext
  · exact hemit hs htext
  · exact hs.of_tail rfl
  · exact hs.of_tail rfl
  · exact hs.of_tail rfl

/-- A step that makes no access keeps the answers to come. -/
theorem keeps_ports_of_noAccess (i : Instr) (hframe : ∀ u : State, (u.forget i).answers = u.answers)
    (hbody : ∀ u v, bodyOf i u ≠ .hang v) : Keeps State.portsAnswerOk (fun _ => False) (bodyOf i) := by
  refine keeps_iff.2 fun u hu => ⟨fun a v h => ?_, fun v h => hbody u v h⟩
  have hanswers : v.answers = u.answers := ((body_frame i u).of_done h).keeps State.answers hframe
  exact fun answer hanswer => hu answer (hanswers ▸ hanswer)

theorem pembStep_keeps_ports : Keeps State.portsAnswerOk (fun _ => False) pembStep := by
  refine keeps_ports_of_noAccess .pemb (fun _ => rfl) fun u v h => ?_
  simp only [bodyOf, pembStep] at h
  split at h <;> cases h

/-- Where every access answers ok, EMBED leaves it so and does not wait for a port. -/
theorem embedStep_keeps_ports : Keeps State.portsAnswerOk (fun _ => False) embedStep :=
  embedStep_keeps (keeps_ports_of_noAccess .cinit (fun _ => rfl) fun _ _ h => nomatch h)
    (keeps_ports_of_noAccess .finit (fun _ => rfl) fun _ _ h => nomatch h) (fun _ hu => hu) fnextStep_keeps_ports
    (keeps_ports_of_noAccess .expb (fun _ => rfl) fun _ _ h => nomatch h) wadvStep_keeps_ports pembStep_keeps_ports
    fun _ hu => hu

/-! ### The bytes served -/

/-- The serializer goes on, with the bytes `rest` ahead (44_payload_framer.md R155). -/
def State.Serves (t : State) (rest : List Byte) : Prop :=
  t.send = false ∧ t.rcnt ≤ t.srcData.length ∧ t.bytesAhead = rest

/-- The serializer has served its last byte (44_payload_framer.md R156). -/
def State.Served (t : State) : Prop := t.send = true ∧ t.comp = .rawData ∧ t.rcnt = t.srcData.length

/-- How a FNEXT ends: at a failed access, with the next byte in BYTER, or at the end of the stream. -/
inductive State.Serving (t : State) (rest : List Byte) (a : Answer) (u : State) : Prop
  | failed (hcode : a.code = .ioFailure) (hports : ¬t.portsAnswerOk)
  | byte {rest' : List Byte} (hcode : a.code = .ok) (hrest : rest = u.byter :: rest') (hserves : u.Serves rest')
  | ended (hcode : a.code = .endOfStream) (hrest : rest = []) (hserved : u.Served)

theorem emitFrom_of_serves {text : List Byte} {next : Component} (ht : t.Serves rest) (hspells : t.Spells text next)
    (h : emitFrom text next t = .done a u) : t.Serving rest a u := by
  obtain ⟨hsend, hcount, rfl⟩ := ht
  rw [hspells.bytesAhead]
  rcases emitFrom_cases h with ⟨b, hb, rfl, rfl⟩ | ⟨hend, rfl, rfl⟩
  · obtain ⟨hmore, rfl⟩ := List.getElem?_eq_some_iff.1 hb
    rw [List.drop_eq_getElem_cons hmore]
    exact .byte rfl rfl ⟨hsend, hcount, State.Spells.bytesAhead hspells⟩
  · rw [List.drop_eq_nil_of_le hend]
    exact .byte rfl rfl ⟨hsend, hcount, rfl⟩

theorem fnextStep_of_serves (ht : t.Serves rest) (h : fnextStep t = .done a u) : t.Serving rest a u := by
  have ⟨hsend, hcount, hahead⟩ := ht
  rcases fnextStep_cases h with ⟨hended, _⟩ | ⟨_, hcomp, hemit⟩ | ⟨_, hcomp, hemit⟩ | ⟨_, _, hfail, rfl, _⟩ |
    ⟨_, hcomp, _, hend, rfl, rfl⟩ | ⟨b, _, hcomp, _, hb, rfl, rfl⟩
  · exact nomatch hsend.symm.trans hended
  · exact emitFrom_of_serves ht (.inl ⟨hcomp, rfl, rfl⟩) hemit
  · exact emitFrom_of_serves ht (.inr ⟨hcomp, rfl, rfl⟩) hemit
  · exact .failed rfl (not_portsAnswerOk_of_fail hfail)
  · rw [State.bytesAhead_of_rawData hcomp, List.drop_eq_nil_of_le hend] at hahead
    exact .ended rfl hahead.symm ⟨rfl, hcomp, Nat.le_antisymm hcount hend⟩
  · obtain ⟨hmore, rfl⟩ := List.getElem?_eq_some_iff.1 hb
    rw [State.bytesAhead_of_rawData hcomp, List.drop_eq_getElem_cons hmore] at hahead
    exact .byte rfl hahead.symm ⟨hsend, hmore, State.bytesAhead_of_rawData hcomp⟩

/-! ### The bits placed -/

/-- The bits a pixel has a budget for change no other pixel. -/
theorem State.embedded_append_of_other (h : q.length + r = (y + 1) * slotCount s.mask) (hr : r ≤ slotCount s.mask)
    (hq : q₂.length ≤ r) (hj : j ≠ y) : s.embedded (q ++ q₂) j = s.embedded q j := by
  have hstart : y * slotCount s.mask ≤ q.length := by rw [Nat.succ_mul] at h; omega
  rcases Nat.lt_or_gt_of_ne hj with hbefore | hafter
  · exact State.embedded_append_of_full ((Nat.mul_le_mul_right _ hbefore).trans hstart)
  · have hbehind : (y + 1) * slotCount s.mask ≤ j * slotCount s.mask := Nat.mul_le_mul_right _ hafter
    rw [State.embedded_of_le (by rw [List.length_append]; omega), State.embedded_of_le (by omega)]

/-- Before the first byte nothing is placed. -/
theorem placed_started (s : State) : s.Placed 0 [] (loadEmbedSizes s.started) ∧
    s.Budgeted 0 [] (loadEmbedSizes s.started) := by
  refine ⟨⟨⟨⟨rfl, rfl, rfl⟩, rfl, ⟨rfl, rfl, rfl⟩, Nat.zero_le _⟩, fun hwf => ⟨hwf, fun j _ => ?_⟩⟩,
    (Nat.zero_mul _).symm, Nat.zero_le _⟩
  rw [State.embedded_of_le (Nat.zero_le _)]
  rfl

/-- PEMB places the bits there is a budget for (41_bit_embedder.md R107). -/
theorem pembStep_of_placed (ht : s.Placed y q t) (hbudget : s.Budgeted y q t) (hleft : 0 < t.brem) :
    ∃ u, pembStep t = .done (okWith (min t.bq.length t.brem)) u ∧
      u.bq = t.bq.drop (min t.bq.length t.brem) ∧
      s.Placed y (q ++ t.bq.take (min t.bq.length t.brem)) u ∧
      s.Budgeted y (q ++ t.bq.take (min t.bq.length t.brem)) u := by
  obtain ⟨⟨⟨hmask, himgw, himgh⟩, hexh, hcursor, hbound⟩, hholds⟩ := ht
  obtain ⟨hslots, hbrem⟩ := hbudget
  obtain ⟨y, rfl⟩ : ∃ y', y = y' + 1 := by
    refine Nat.exists_eq_add_one_of_ne_zero ?_
    rintro rfl
    omega
  have htaken : (t.bq.take (min t.bq.length t.brem)).length = min t.bq.length t.brem := by
    rw [List.length_take]
    omega
  refine ⟨_, pembStep_of_le (hmask ▸ hbrem), rfl, ⟨⟨⟨hmask, himgw, himgh⟩, hexh, hcursor, hbound⟩, fun hwf => ?_⟩, ?_⟩
  · obtain ⟨htwf, hpixels⟩ := hholds hwf
    refine ⟨htwf, fun j hj => ?_⟩
    have hpixel := hpixels j hj
    unfold State.heldPixel at hpixel ⊢
    split
    next hlast =>
      obtain rfl := Nat.succ.inj hlast
      rw [if_pos rfl] at hpixel
      rw [State.embedded_append hslots hbrem, ← hpixel, embedPx_take, hmask]
    next hother =>
      rw [if_neg hother] at hpixel
      have hkept := State.embedded_append_of_other (s := s) hslots hbrem (htaken.trans_le (Nat.min_le_right ..))
        (Ne.symm fun heq => hother (congrArg (· + 1) heq))
      exact hpixel.trans hkept.symm
  · constructor
    · rw [List.length_append, htaken, Nat.add_assoc, ← hslots]
      show _ + (_ + (t.brem - min t.bq.length t.brem)) = _
      omega
    · exact (Nat.sub_le ..).trans hbrem

end

end Sys2Proof.Machine

/-! SUPPORT. EMBED past its pre-check (spec/46_orchestrators.md R190, R191): each byte served is placed bit by bit, and,
as the frame fits, only a failed access keeps the loop from its end. -/

namespace Sys2Proof.Machine

section
variable {s t u : State} {a : Answer} {e : Option Answer} {rest : List Byte} {q : List Bool} {k y : Nat}

/-! ### The loops of R190 -/

theorem Answer.stops_of_failed (h : a.code = .ioFailure) : a.stops = true := by simp [Answer.stops, h]

theorem Answer.not_stops_of_ok (h : a.code = .ok) : a.stops = false := by simp [Answer.stops, h]

/-- A pixel requested for waiting bits that fit the image is there, unless an access fails (R191, R193). -/
theorem requestPixel_of_placed (ht : s.Placed y q t) (hbudget : s.Budgeted y q t) (hbits : t.bq ≠ [])
    (hroom : (q ++ t.bq).length ≤ s.imgw * s.imgh * slotCount s.mask) (h : requestPixel t = .done a u) :
    (a.code = .ioFailure ∧ ¬t.portsAnswerOk) ∨
    (a.code = .ok ∧ u.bq = t.bq ∧ 0 < u.brem ∧ (t.portsAnswerOk → u.portsAnswerOk) ∧
      ∃ y', s.Placed y' q u ∧ s.Budgeted y' q u) := by
  have ⟨hslots, _⟩ := hbudget
  have hwaiting : 0 < t.bq.length := List.length_pos_iff.2 hbits
  rw [List.length_append] at hroom
  unfold requestPixel at h
  split at h
  next hempty =>
    have hqueue : u.bq = t.bq := (wadvStep_frame.of_done h).keeps State.bq fun _ => rfl
    have hports (hok : t.portsAnswerOk) : u.portsAnswerOk := (wadvStep_keeps_ports t hok).of_done h
    have hpositive : 0 < slotCount s.mask := 
      Nat.pos_of_mul_pos_left (show 0 < s.imgw * s.imgh * slotCount s.mask by omega)
    cases wadvStep_of_placed ht h with
    | failed hcode hfail => exact .inl ⟨hcode, hfail⟩
    | yielded hcode hplaced hbrem _ =>
      refine .inr ⟨hcode, hqueue, hbrem ▸ hpositive, hports, y + 1, hplaced, ?_, hbrem.le⟩
      rw [hbrem, Nat.succ_mul, ← hslots, hempty, Nat.add_zero]
    | exhausted _ hend _ =>
      rw [hend] at hslots
      omega
  next hleft =>
    obtain ⟨rfl, rfl⟩ := Res.done.inj h
    exact .inr ⟨rfl, rfl, Nat.pos_of_ne_zero hleft, id, y, ht, hbudget⟩

/-- The inner loop places the whole queue, unless an access fails. -/
theorem drainQueue_of_placed (ht : s.Placed y q t) (hbudget : s.Budgeted y q t)
    (hroom : (q ++ t.bq).length ≤ s.imgw * s.imgh * slotCount s.mask) (h : drainQueue k t = .done e u) :
    (∃ a, e = some a ∧ a.code = .ioFailure ∧ ¬t.portsAnswerOk) ∨
    (e = none ∧ u.bq = [] ∧ (t.portsAnswerOk → u.portsAnswerOk) ∧
      ∃ y', s.Placed y' (q ++ t.bq) u ∧ s.Budgeted y' (q ++ t.bq) u) := by
  induction k generalizing t q y with
  | zero => cases h
  | succ k ih =>
    unfold drainQueue at h
    split at h
    next hempty =>
      obtain ⟨rfl, rfl⟩ := Res.done.inj h
      rw [hempty, List.append_nil]
      exact .inr ⟨rfl, rfl, id, y, ht, hbudget⟩
    next hbits =>
      obtain ⟨a, v, hpixel, h⟩ := Res.bind_eq_done.1 h
      rcases requestPixel_of_placed ht hbudget hbits hroom hpixel with
        ⟨hcode, hfail⟩ | ⟨hcode, hqueue, hleft, hports, y', hv, hvbudget⟩
      · rw [if_pos (Answer.stops_of_failed hcode)] at h
        obtain ⟨rfl, rfl⟩ := Res.done.inj h
        exact .inl ⟨a, rfl, hcode, hfail⟩
      · obtain ⟨w, hpemb, hrest, hw, hwbudget⟩ := pembStep_of_placed hv hvbudget hleft
        have hwports (hok : t.portsAnswerOk) : w.portsAnswerOk :=
          (pembStep_keeps_ports v (hports hok)).of_done hpemb
        have hjoined : q ++ v.bq.take (min v.bq.length v.brem) ++ w.bq = q ++ t.bq := by
          rw [hrest, List.append_assoc, List.take_append_drop, hqueue]
        rw [if_neg (Bool.eq_false_iff.1 (Answer.not_stops_of_ok hcode)), hpemb, Res.bind_done] at h
        rw [← hjoined] at hroom ⊢
        rcases ih hw hwbudget hroom h with ⟨a, he, hfailed, hfail⟩ | ⟨he, hdrained, huports, hu⟩
        · exact .inl ⟨a, he, hfailed, fun hok => hfail (hwports hok)⟩
        · exact .inr ⟨he, hdrained, fun hok => huports (hwports hok), hu⟩

/-- The outer loop places the bits of every byte ahead, unless an access fails. -/
theorem embedLoop_of_placed (ht : s.Placed y q t) (hbudget : s.Budgeted y q t) (hserves : t.Serves rest)
    (hempty : t.bq = []) (hroom : (q ++ payloadBits rest).length ≤ s.imgw * s.imgh * slotCount s.mask)
    (h : embedLoop k t = .done e u) :
    (∃ a, e = some a ∧ a.code = .ioFailure ∧ ¬t.portsAnswerOk) ∨
    (e = none ∧ u.bq = [] ∧ u.Served ∧ (t.portsAnswerOk → u.portsAnswerOk) ∧
      ∃ y', s.Placed y' (q ++ payloadBits rest) u) := by
  induction k generalizing t q y rest with
  | zero => cases h
  | succ k ih =>
    unfold embedLoop at h
    obtain ⟨r, v, hfnext, h⟩ := Res.bind_eq_done.1 h
    have hports (hok : t.portsAnswerOk) : v.portsAnswerOk := (fnextStep_keeps_ports t hok).of_done hfnext
    have ⟨hv, hvbudget, hvempty⟩ := (body_keeps (P := fun w => s.Placed y q w ∧ s.Budgeted y q w ∧ w.bq = []) .fnext
      (fun _ => rfl) t ⟨ht, hbudget, hempty⟩).of_done hfnext
    cases fnextStep_of_serves hserves hfnext with
    | failed hcode hfail =>
      rw [hcode, if_neg (by decide), if_pos rfl] at h
      obtain ⟨rfl, rfl⟩ := Res.done.inj h
      exact .inl ⟨r, rfl, hcode, hfail⟩
    | ended hcode hrest hserved =>
      rw [if_pos hcode] at h
      obtain ⟨rfl, rfl⟩ := Res.done.inj h
      rw [hrest, payloadBits, List.flatMap_nil, List.append_nil]
      exact .inr ⟨rfl, hvempty, hserved, hports, y, hv⟩
    | @byte rest' hcode hrest hvserves =>
      rw [hcode, if_neg (by decide), if_neg (by decide)] at h
      rw [hrest, payloadBits_cons, ← List.append_assoc] at hroom ⊢
      have hexpb : expbStep v = .done (okWith v.byter.toNat) { v with bq := expand v.byter } := rfl
      rw [hexpb, Res.bind_done] at h
      obtain ⟨d, w, hdrain, h⟩ := Res.bind_eq_done.1 h
      have hbyte : (q ++ expand v.byter).length ≤ s.imgw * s.imgh * slotCount s.mask := by
        rw [List.length_append] at hroom
        omega
      have hwserves : w.Serves rest' :=
        (drainQueue_keeps (P := fun x => x.Serves rest') (body_keeps .wadv fun _ => rfl)
          (body_keeps .pemb fun _ => rfl) _ { v with bq := expand v.byter } hvserves).of_done hdrain
      rcases drainQueue_of_placed (t := { v with bq := expand v.byter }) hv hvbudget hbyte hdrain with
        ⟨a, rfl, hfailed, hfail⟩ | ⟨rfl, hwempty, hwports, y', hw, hwbudget⟩
      · obtain ⟨rfl, rfl⟩ := Res.done.inj h
        exact .inl ⟨a, rfl, hfailed, fun hok => hfail (hports hok)⟩
      · rcases ih hw hwbudget hwserves hwempty hroom h with
          ⟨a, he, hfailed, hfail⟩ | ⟨he, hdrained, hserved, huports, hu⟩
        · exact .inl ⟨a, he, hfailed, fun hok => hfail (hwports (hports hok))⟩
        · exact .inr ⟨he, hdrained, hserved, fun hok => huports (hwports (hports hok)), hu⟩

/-! ### The end of EMBED -/

/-- What EMBED leaves when it answers OK: the whole frame in the image, the source served and no sink open. -/
structure State.Embeds (s u : State) : Prop where
  shows : s.image.wf = true → s.Shows (payloadBits (frame s.srcName s.srcData)) u
  served : u.Served
  empty : u.bq = []
  sinkopen : u.sinkopen = false

/-- A frame that fits has a slot for each of its bits (45_capacity.md R173 (d)). -/
theorem payloadBits_frame_le (hfits : framedLength s.srcName s.srcData ≤ imageCapacity s) :
    (payloadBits (frame s.srcName s.srcData)).length ≤ s.imgw * s.imgh * slotCount s.mask := by
  have hslots : s.imgw * s.imgh * slotCount s.mask = 3 * popcount s.mask * s.imgw * s.imgh := by
    rw [slotCount]
    ring
  rw [payloadBits_length, frame_length, hslots]
  exact le_capacity_iff.1 hfits

/-- What EMBED's loop leaves for the flush: the source served, no bit waiting, no sink open, and FLEN loaded. -/
def State.ReadyToFlush (n : Nat) (t : State) : Prop := t.Served ∧ t.bq = [] ∧ t.sinkopen = false ∧ t.flen = n

/-- The flush puts the last pixel in the image, unless an access fails (R190, R192). -/
theorem embedFlush_of_placed {n : Nat} (ht : s.Placed y (payloadBits (frame s.srcName s.srcData)) t)
    (hready : t.ReadyToFlush n) (h : embedFlush false t = .done a u) :
    (a.code = .ioFailure ∧ ¬t.portsAnswerOk) ∨ (a = okWith n ∧ s.Embeds u) := by
  obtain ⟨b, v, hflush, h⟩ := Res.bind_eq_done.1 h
  obtain ⟨hserved, hempty, hsink, hflen⟩ :=
    (body_keeps (P := State.ReadyToFlush n) .wadv (fun _ => rfl) t hready).of_done hflush
  have hanswered (hcode : b.code ≠ .ioFailure)
      (hshows : s.image.wf = true → s.Shows (payloadBits (frame s.srcName s.srcData)) v) :
      a = okWith n ∧ s.Embeds u := by
    rw [if_neg hcode] at h
    obtain ⟨rfl, rfl⟩ := Res.done.inj h
    exact ⟨by rw [hflen]; rfl, ⟨hshows, hserved, hempty, hsink⟩⟩
  cases wadvStep_of_placed ht hflush with
  | failed hcode hfail =>
    rw [if_pos hcode, embedFailed, if_pos hcode] at h
    obtain ⟨rfl, rfl⟩ := Res.done.inj h
    exact .inl ⟨rfl, hfail⟩
  | yielded hcode _ _ hshows => exact .inr (hanswered (by rw [hcode]; decide) hshows)
  | exhausted hcode _ hshows => exact .inr (hanswered (by rw [hcode]; decide) hshows)

/-- Past the pre-check EMBED answers OK, or an access failed (R190, R191, R194). -/
theorem embedStep_of_fits (hfits : framedLength s.srcName s.srcData ≤ imageCapacity s)
    (h : embedStep s = .done a u) :
    (a.code = .ioFailure ∧ ¬s.portsAnswerOk) ∨
    (a = okWith (framedLength s.srcName s.srcData) ∧ s.Embeds u) := by
  have hmask : decide (popcount s.mask = 0) = false := by
    have hslots := slotCount_pos_of_capacity hfits
    unfold slotCount at hslots
    exact decide_eq_false (by omega)
  rw [embedStep_of_le hfits, hmask] at h
  obtain ⟨e, v, hloop, h⟩ := Res.bind_eq_done.1 h
  obtain ⟨hstart, hbudget⟩ := placed_started s
  have hserves : (loadEmbedSizes s.started).Serves (frame s.srcName s.srcData) := by
    refine ⟨rfl, Nat.zero_le _, ?_⟩
    simp only [State.bytesAhead, State.bytesFrom, frame, loadEmbedSizes, State.started, List.drop_zero,
      List.append_assoc, List.cons_append, List.nil_append]
  obtain ⟨hflen, hsink⟩ := (embedLoop_keeps
    (P := fun w => w.flen = framedLength s.srcName s.srcData ∧ w.sinkopen = false)
    (body_keeps .fnext fun _ => rfl) (body_keeps .expb fun _ => rfl) (body_keeps .wadv fun _ => rfl)
    (body_keeps .pemb fun _ => rfl) _ (loadEmbedSizes s.started) ⟨rfl, rfl⟩).of_done hloop
  rcases embedLoop_of_placed hstart hbudget hserves rfl (payloadBits_frame_le hfits) hloop with
    ⟨b, rfl, hcode, hfail⟩ | ⟨rfl, hempty, hserved, hports, y, hv⟩
  · rw [embedEnd, embedFailed, if_pos hcode] at h
    obtain ⟨rfl, rfl⟩ := Res.done.inj h
    exact .inl ⟨rfl, hfail⟩
  · rcases embedFlush_of_placed hv ⟨hserved, hempty, hsink, hflen⟩ h with ⟨hcode, hfail⟩ | hembeds
    · exact .inl ⟨hcode, fun hok => hfail (hports hok)⟩
    · exact .inr hembeds

/-- With ports that answer ok EMBED embeds a frame that fits, and the ports still answer ok. -/
theorem embedStep_of_ok (hok : s.portsAnswerOk) (hfits : framedLength s.srcName s.srcData ≤ imageCapacity s) :
    ∃ u, embedStep s = .done (okWith (framedLength s.srcName s.srcData)) u ∧ s.Embeds u ∧ u.portsAnswerOk := by
  have hports := embedStep_keeps_ports s hok
  cases hstep : embedStep s with
  | done a u =>
    rcases embedStep_of_fits hfits hstep with ⟨_, hfail⟩ | ⟨rfl, hembeds⟩
    · exact absurd hok hfail
    · exact ⟨u, rfl, hembeds, hports.of_done hstep⟩
  | hang u => exact (hports.of_hang hstep).elim
  | fault f => exact absurd hstep (embedStep_completes.ne_fault f)

end

end Sys2Proof.Machine

/-! SUPPORT. What the embedded image says (spec/46_orchestrators.md R190, R199): each slot its payload bit, in the order
in which RETRIEVE reads them. -/

namespace Sys2Proof.Machine

section
variable {s t u : State} {a : Answer} {q : List Bool} {j k : Nat}

/-! ### The bits in their slots -/

/-- A slot of an embedded pixel holds the NOT of its payload bit, or, behind the last bit, what it held. -/
theorem slotBit_embedded {sl : Slot} (hsl : (slots s.mask)[k]? = some sl) : slotBit (s.embedded q j) sl =
    match q[j * slotCount s.mask + k]? with
    | some b => !b
    | none => slotBit (s.pixelOf j) sl := by
  have hstart : slotCount s.mask - slotCount s.mask + k = k := by omega
  rw [← List.getElem?_drop]
  split
  next b hb => exact embedPx_slotBit_filled (Nat.le_refl _) (hstart.symm ▸ hsl) hb
  next hnone =>
    have hbehind := List.getElem?_eq_none_iff.1 hnone
    exact embedPx_slotBit_kept (Nat.le_refl _) hsl (.inr (by omega))

/-- A bit the mask does not enable is as before. -/
theorem slotBit_embedded_of_disabled {ch : Channel} {i : Nat} (hi : s.mask.getLsbD i = false) :
    slotBit (s.embedded q j) (ch, i) = slotBit (s.pixelOf j) (ch, i) :=
  embedPx_slotBit_disabled (Nat.le_refl _) fun hmem => absurd (mem_slots.1 hmem) (Bool.eq_false_iff.1 hi)

/-- Extraction reads back the bits embedded in a pixel (41_bit_embedder.md R108). -/
theorem take_prefix_extract_embedded :
    (q.drop (j * slotCount s.mask)).take (slotCount s.mask) <+: extract (s.embedded q j) s.mask := by
  refine List.prefix_iff_getElem?.2 fun i hi => ?_
  rw [List.length_take] at hi
  have hfilled := extract_embedPx_filled (p := s.pixelOf j) (q := q.drop (j * slotCount s.mask))
    (Nat.le_refl (slotCount s.mask)) (j := i) (by omega)
  rw [Nat.sub_self, Nat.zero_add] at hfilled
  rw [State.embedded, hfilled, List.getElem_take, List.getElem?_eq_getElem]

/-- The bits still to be read from an embedded image begin with those embedded from there on. -/
theorem drop_prefix_bitsFrom (hsame : t.mask = s.mask ∧ t.imgw = s.imgw ∧ t.imgh = s.imgh) (hshows : s.Shows q t)
    (hroom : q.length ≤ s.imgw * s.imgh * slotCount s.mask) {n : Nat} (hn : j + n = s.imgw * s.imgh) :
    q.drop (j * slotCount s.mask) <+: t.bitsFrom j := by
  have ⟨hmask, himgw, himgh⟩ := hsame
  induction n generalizing j with
  | zero =>
    rw [List.drop_of_length_le (by rwa [← hn] at hroom)]
    exact List.nil_prefix
  | succ n ih =>
    have hj : j < t.imgw * t.imgh := by rw [himgw, himgh]; omega
    have hpixel : t.pixelAt (j % t.imgw) (j / t.imgw) = s.embedded q j := hshows j (by omega)
    have hfirst := take_prefix_extract_embedded (s := s) (q := q) (j := j)
    rw [State.bitsFrom_succ hj, hpixel, hmask]
    rcases Nat.lt_or_ge (q.drop (j * slotCount s.mask)).length (slotCount s.mask) with hlast | hfull
    · rw [List.take_of_length_le hlast.le] at hfirst
      exact hfirst.trans (List.prefix_append ..)
    · have hpixelBits : (q.drop (j * slotCount s.mask)).take (slotCount s.mask) = extract (s.embedded q j) s.mask :=
        hfirst.eq_of_length (by rw [List.length_take_of_le hfull, extract_length])
      calc q.drop (j * slotCount s.mask)
          = (q.drop (j * slotCount s.mask)).take (slotCount s.mask) ++
              (q.drop (j * slotCount s.mask)).drop (slotCount s.mask) := (List.take_append_drop ..).symm
        _ = extract (s.embedded q j) s.mask ++ q.drop ((j + 1) * slotCount s.mask) := by
          rw [hpixelBits, List.drop_drop, Nat.succ_mul]
        _ <+: extract (s.embedded q j) s.mask ++ t.bitsFrom (j + 1) :=
          (List.prefix_append_right_inj _).2 (ih (by omega))

/-- What RETRIEVE reads from the image after EMBED begins with the frame's bits. -/
theorem State.Embeds.storedBits (h : s.Embeds u) (hsame : u.mask = s.mask ∧ u.imgw = s.imgw ∧ u.imgh = s.imgh)
    (hwf : s.image.wf = true) (hfits : framedLength s.srcName s.srcData ≤ imageCapacity s) :
    payloadBits (frame s.srcName s.srcData) <+: u.storedBits := by
  have hbits := drop_prefix_bitsFrom (j := 0) hsame (h.shows hwf) (payloadBits_frame_le hfits) (Nat.zero_add _)
  rwa [Nat.zero_mul, List.drop_zero, State.bitsFrom_zero] at hbits

/-- EMBED answers as its body does, and writes neither the mask, nor the source, nor the extent of the image
(10_state.md R41). -/
theorem exec_embed_of_done (h : embedStep s = .done a u) : exec .embed s = .next (u.respond a) ∧
    u.responses = s.responses ∧ u.hung = s.hung ∧ u.mask = s.mask ∧ u.imgw = s.imgw ∧ u.imgh = s.imgh ∧
      u.srcData = s.srcData := by
  have hframe : SameBut .embed s u := embedStep_frame.of_done h
  exact ⟨exec_of_done (i := .embed) nofun h, hframe.keeps State.responses fun _ => rfl,
    hframe.keeps State.hung fun _ => rfl, hframe.keeps State.mask fun _ => rfl, hframe.keeps State.imgw fun _ => rfl,
    hframe.keeps State.imgh fun _ => rfl, hframe.keeps State.srcData fun _ => rfl⟩

end

/-- Settles O46: an EMBED past its pre-check answers OK or reports a failed access; the pre-check itself is O43. -/
theorem capacityExceededLeavesTheImage : Obligations.CapacityExceededLeavesTheImage := by
  unfold Obligations.CapacityExceededLeavesTheImage
  intro s t v h hresponse
  rcases Nat.lt_or_ge (imageCapacity s) (framedLength s.srcName s.srcData) with hlong | hfits
  · rw [← frame_length] at hlong
    rw [embedChecksTheCapacityFirst s hlong, Host.Outcome.next.injEq] at h
    subst h
    exact ⟨rfl, rfl⟩
  · rcases finish_eq_next.1 h with ⟨a, u, hbody, rfl⟩ | ⟨u, hbody, rfl⟩
    · obtain ⟨hresponses, _⟩ := (body_keeps_outcome .embed s).of_done hbody
      rw [State.respond_responses, hresponses] at hresponse
      have hcode : a.code = .capacityExceeded :=
        congrArg Response.code (List.singleton_inj.1 (List.append_cancel_left hresponse))
      rcases embedStep_of_fits hfits hbody with ⟨hio, _⟩ | ⟨rfl, _⟩
      · exact nomatch hcode.symm.trans hio
      · exact nomatch hcode
    · obtain ⟨hresponses, _⟩ := (body_keeps_outcome .embed s).of_hang hbody
      have hnone : s.responses = s.responses ++ [⟨.capacityExceeded, v⟩] := hresponses.symm.trans hresponse
      exact absurd hnone (by simp)

/-- Settles O44: the image shows the frame's bits slot by slot, and the trace is that of every EMBED that ends. -/
theorem embedPlacesTheFrame : Obligations.EmbedPlacesTheFrame := by
  unfold Obligations.EmbedPlacesTheFrame
  intro s hok hwf hfits
  rw [frame_length] at hfits ⊢
  obtain ⟨u, hstep, hembeds, _⟩ := embedStep_of_ok hok hfits
  obtain ⟨hexec, hresponses, hhung, hmask, himgw, himgh, hdata⟩ := exec_embed_of_done hstep
  obtain ⟨hsend, hcomp, hrcnt⟩ := hembeds.served
  have htrace := embedStep_trace hstep
  rw [State.respond_okWith, hresponses] at hexec
  refine ⟨_, hexec, rfl, rfl, htrace, himgw, himgh, hmask, hhung, hrcnt.trans (congrArg List.length hdata), hcomp,
    hsend, hembeds.empty, fun j hj => ?_⟩
  have hpixel : u.pixelAt (j % s.imgw) (j / s.imgw) = s.embedded (payloadBits (frame s.srcName s.srcData)) j := by
    rw [← hembeds.shows hwf j hj, State.pixelOf, himgw]
  refine ⟨fun k sl hsl => ?_, fun ch i hi => ?_⟩
  · exact (congrArg (slotBit · sl) hpixel).trans (slotBit_embedded hsl)
  · exact (congrArg (slotBit · (ch, i)) hpixel).trans (slotBit_embedded_of_disabled hi)

/-- Settles O51: the image EMBED leaves stores the frame's bits in front, which RETRIEVE reads as the frame. -/
theorem roundTrip : Obligations.RoundTrip := by
  unfold Obligations.RoundTrip
  intro s hok hwf hname hlo hhi hfits
  rw [frame_length] at hfits ⊢
  obtain ⟨u, hstep, hembeds, huok⟩ := embedStep_of_ok hok hfits
  obtain ⟨hexec, hresponses, _, hmask, himgw, himgh, _⟩ := exec_embed_of_done hstep
  have hbits := hembeds.storedBits ⟨hmask, himgw, himgh⟩ hwf hfits
  have hreleased : (u.respond (okWith (framedLength s.srcName s.srcData))).traceReleased =
      s.traceReleased ++ [.srcClose] := by
    rw [State.traceReleased, State.trace_respond, State.respond_sinkopen, hembeds.sinkopen, embedStep_trace hstep]
    exact List.append_nil _
  obtain ⟨v, hretrieve, hresponse, _, htrace, _⟩ := retrieveReadsTheFrame
    (u.respond (okWith (framedLength s.srcName s.srcData))) s.srcName s.srcData huok hname hlo hhi hbits
  refine ⟨_, v, hexec, hretrieve, ?_, htrace.trans (by rw [hreleased])⟩
  rw [hresponse, State.respond_responses, hresponses, List.append_assoc]
  rfl

end Sys2Proof.Machine

/-! SUPPORT. The system commands (spec/47_system.md R201 to R203), the word that matches no row of the opcode table
(spec/60_exceptions.md R217), and the reset input (spec/70_reset_and_hazards.md R240, R241). -/

namespace Sys2Proof.Machine

section
variable {s t : State} {rest : List HostMove} {imm8 : Byte} {w : Word} {n v : Nat}

/-! ### SETMASK -/

/-- The enabled bits may be counted in either order of their indices. -/
theorem popcount_eq_length_filter (mask : Byte) :
    popcount mask = ((List.range 8).filter fun i => mask.getLsbD i).length := by
  have hdown : indicesDown = (List.range 8).reverse := by decide
  rw [popcount, hdown, List.countP_reverse, List.countP_eq_length_filter]

/-! ### RDREG -/

/-- The values of the 23 registers in the order of their numbers (10_state.md R41). -/
def State.registerValues (s : State) : List Nat :=
  [s.mask.toNat, s.imgw, s.imgh, s.curx, s.cury, curfValue s, s.pxr.toNat, s.chr.toNat, s.byter.toNat, bqValue s.bq,
    aqValue s.aq, s.brem, s.cnt, s.comp.number, s.idx, s.rcnt, s.sizev, fflagsValue s, s.namebuf.length,
    s.sizebuf.length, s.capr, s.flen, s.status.toNat]

theorem readRegister_of_gt (h : 22 < n) : readRegister s n = none := by
  obtain ⟨k, rfl⟩ := Nat.exists_eq_add_of_le' h
  rfl

theorem readRegister_eq_getElem? (s : State) (n : Nat) : readRegister s n = s.registerValues[n]? := by
  rcases Nat.lt_or_ge 22 n with hgt | hle
  · rw [readRegister_of_gt hgt]
    exact (List.getElem?_eq_none hgt).symm
  · interval_cases n <;> rfl

theorem exec_rdreg_of_gt (h : 22 < imm8.toNat) : exec (.rdreg imm8) s = .next
    { s with status := 0x021#11, responses := s.responses ++ [⟨.illegalOperand, imm8.toNat⟩] } := by
  rw [exec_rdreg_of_none (readRegister_of_gt h)]
  exact congrArg Host.Outcome.next (State.respond_illegalOperand imm8.toNat)

/-! ### SRST -/

/-- A sink left open is closed, and every register is at its reset value. -/
theorem srstStep_eq (s : State) : srstStep s = .done (okWith 0)
    { State.reset with
      imgw := s.imgw, imgh := s.imgh, image := s.image, srcName := s.srcName, srcData := s.srcData
      answers := s.answers, inbox := s.inbox, responses := s.responses, hung := s.hung
      ports := s.ports ++ (if s.sinkopen then [.sinkClose] else []) } := by
  unfold srstStep
  rcases s.releaseSink_cases with ⟨hopen, hrelease⟩ | ⟨hclosed, hrelease⟩
  · rw [hrelease, hopen]
    rfl
  · rw [hrelease, hclosed, if_neg Bool.false_ne_true, List.append_nil]
    rfl

/-! ### The illegal word and the reset input -/

theorem imm24Field_toNat (w : Word) : (imm24Field w).toNat = w.toNat % 2 ^ 24 := by
  rw [imm24Field, BitVec.extractLsb'_toNat, Nat.shiftRight_zero]

/-- A word that is rejected is answered, with the word taken out of the inbox (30_encoding.md R75). -/
theorem step_illegal {r : DecodeReject} (hin : s.inbox = .command w :: rest) (hfree : s.hung = false)
    (hdecode : decode w = .error r) : step s = .next (illegalCommand w { s with inbox := rest }) := by
  rw [step_eq_outcome, takeMove_cons hin fun hhung => absurd (hfree.symm.trans hhung) Bool.false_ne_true]
  exact hostMove_outcome_eq_next.2 (.illegal hdecode)

/-- The reset input is taken whether the block hangs or not (R255). -/
theorem step_resetInput (hin : s.inbox = .resetInput :: rest) :
    step s = .next { s with inbox := rest }.hardReset := by
  rw [step_eq_outcome, takeMove_cons hin fun _ => rfl]
  exact hostMove_outcome_eq_next.2 .resetInput

end

/-- Settles O9: the body loads the mask and answers with its popcount, which counts the enabled bits. -/
theorem setmaskLoadsTheMask : Obligations.SetmaskLoadsTheMask := by
  unfold Obligations.SetmaskLoadsTheMask
  intro imm8 s
  rw [← popcount_eq_length_filter]
  exact ⟨decode_encode (.setmask imm8), exec_of_okWith nofun (t := { s with mask := imm8 }) rfl⟩

/-- Settles O10: a register is read from the list of all, and a number beyond the list is refused. -/
theorem rdregReadsEveryRegister : Obligations.RdregReadsEveryRegister := by
  unfold Obligations.RdregReadsEveryRegister
  refine fun imm8 s => ⟨decode_encode (.rdreg imm8), fun v hv => ?_, exec_rdreg_of_gt⟩
  exact exec_rdreg_of_some ((readRegister_eq_getElem? s imm8.toNat).trans hv)

/-- Settles O11: SRST's body is the release of the sink and the reset of R240. -/
theorem srstRestoresEveryRegister : Obligations.SrstRestoresEveryRegister := by
  unfold Obligations.SrstRestoresEveryRegister
  exact fun s => ⟨decode_encode .srst, exec_of_okWith (i := .srst) nofun (srstStep_eq s)⟩

/-- Settles O5: a word that matches no row does not decode, and a rejected word is only answered. -/
theorem illegalWordOnlyAnswers : Obligations.IllegalWordOnlyAnswers := by
  unfold Obligations.IllegalWordOnlyAnswers
  intro s w rest hin hfree hrows
  have hstatus : statusWord .illegalCommand none false = 0x020#11 := by decide
  cases hdecode : decode w with
  | ok i =>
    obtain ⟨row, hrow, hmatch⟩ := exists_decode_iff.1 ⟨i, hdecode⟩
    exact nomatch (hrows row hrow).symm.trans hmatch
  | error r => rw [step_illegal hin hfree hdecode, illegalCommand_eq, imm24Field_toNat, hstatus]

/-- Settles O6: the reset input leads to `hardReset`, which keeps of the state what is outside the block. -/
theorem resetRestoresEveryRegister : Obligations.ResetRestoresEveryRegister := by
  unfold Obligations.ResetRestoresEveryRegister
  exact ⟨by decide, fun s rest hin => step_resetInput hin⟩

end Sys2Proof.Machine

/-! SUPPORT. Accesses that are never answered (spec/70_reset_and_hazards.md R255; log entry 8): a command whose accesses
are all answered ends, and one that makes another access waits there. An answer that never comes is one the ports had
scheduled when the command began. -/

namespace Sys2Proof.Machine

section
variable {s₀ s t : State} {a : Answer} {i : Instr} {x y nx ny : Nat}

/-! ### Each access, where it is never answered -/

theorem headD_of_answers {s : State} {answer : PortAnswer} {rest : List PortAnswer} (h : s.answers = answer :: rest) :
    s.answers.headD .ok = answer := by rw [h]; rfl

theorem firstAdvance_of_never {reload : Bool} (hin : s.inImage 0 0 = true) (hnever : s.answers.headD .ok = .never) :
    firstAdvance reload s = .hang (s.afterGet 0 0 .never) := by
  obtain ⟨hw, hh⟩ := State.inImage_iff.1 hin
  rw [firstAdvance, if_neg (by omega), imgGet_eq_hang.2 ⟨hin, hnever, rfl⟩]
  rfl

theorem moveAndRead_of_never {reload : Bool} (hnext : nextPosition s = (nx, ny)) (hin : s.inImage nx ny = true)
    (hnever : s.answers.headD .ok = .never) : moveAndRead reload s = .hang (s.afterGet nx ny .never) := by
  obtain ⟨_, hrow⟩ := State.inImage_iff.1 hin
  simp only [moveAndRead, hnext, if_neg (Nat.not_le.2 hrow), imgGet_eq_hang.2 ⟨hin, hnever, rfl⟩, Res.bind_hang]
  rfl

theorem wadvStep_of_unansweredCommit (hexh : s.exh = false) (hissued : s.issued = true)
    (hin : s.inImage s.curx s.cury = true) (hnever : s.answers.headD .ok = .never) :
    wadvStep s = .hang (s.afterRefusedSet s.curx s.cury s.pxr .never) := by
  simp only [wadvStep, hexh, hissued, Bool.false_eq_true, if_false, if_true, imgSet_eq_hang.2 ⟨hin, hnever, rfl⟩,
    Res.bind_hang]
  rfl

theorem fnextStep_of_unansweredRead (hsend : s.send = false) (hcomp : s.comp = .rawData)
    (hnever : s.answers.headD .ok = .never) : fnextStep s = .hang (s.afterRead .never) := by
  simp only [fnextStep, hsend, hcomp, Bool.false_eq_true, if_false, srcRead_eq_hang.2 ⟨hnever, rfl⟩, Res.bind_hang]
  rfl

theorem fputName_of_unansweredOpen (hb : s.byter = 0x00#8) (hnever : s.answers.headD .ok = .never) :
    fputName s = .hang (s.afterOpen .never) := by
  rw [fputName, if_neg (not_not_intro hb), sinkOpen, request_eq_hang.2 ⟨hnever, rfl⟩]
  rfl

theorem fputRaw_of_unansweredWrite (hnever : s.answers.headD .ok = .never) :
    fputRaw s = .hang (s.afterWrite .never) := by
  rw [fputRaw, sinkWrite, request_eq_hang.2 ⟨hnever, rfl⟩]
  rfl

/-- A command whose body waits for a port leaves the block hung, with the access recorded and no response. -/
theorem exec_of_unanswered {use : PortUse} {rest : List PortAnswer} (hread : ∀ imm8, i ≠ .rdreg imm8)
    (hanswers : t.answers = .never :: rest)
    (h : bodyOf i s = .hang { t.logUse use with answers := t.answers.tail }) :
    exec i s = .next { t with answers := rest, ports := t.ports ++ [use], hung := true } := by
  rw [exec_eq_finish hread, h, finish_hang, hanswers]
  rfl

/-! ### The idle and the hung block -/

/-- Without a move of the host the block keeps all state (60_exceptions.md R231). -/
theorem step_of_idle (hin : s.inbox = []) : step s = .next s := by
  simp only [step_eq_outcome, takeMove, hin, Taken.outcome]

/-- A hung block leaves every move but the reset input waiting. -/
theorem step_of_hung {m : HostMove} {rest : List HostMove} (hhung : s.hung = true) (hin : s.inbox = m :: rest)
    (hm : m ≠ .resetInput) : step s = .next s := by
  simp only [step_eq_outcome, takeMove, hin, if_pos (And.intro hhung hm), Taken.outcome]

/-! ### The record of the ports and the answers to come -/

/-- Every access of the record since `s₀` was answered, and no answer is to come that was not then. -/
def State.answeredSince (s₀ s : State) : Prop :=
  s.answers <:+ s₀.answers ∧ ∃ uses, s.ports = s₀.ports ++ uses ∧ ∀ u ∈ uses, u.unanswered = false

/-- An access of the record since `s₀` was not answered, as the ports had scheduled then. -/
def State.waitingSince (s₀ s : State) : Prop :=
  .never ∈ s₀.answers ∧ ∃ uses, s.ports = s₀.ports ++ uses ∧ ∃ u ∈ uses, u.unanswered = true

theorem State.answeredSince_refl (s : State) : s.answeredSince s :=
  ⟨List.suffix_rfl, [], (List.append_nil _).symm, nofun⟩

theorem State.answeredSince.use {use : PortUse} (h : s₀.answeredSince s) (hanswers : t.answers <:+ s.answers)
    (hports : t.ports = s.ports ++ [use]) (huse : use.unanswered = false) : s₀.answeredSince t := by
  obtain ⟨hscheduled, uses, hs, hanswered⟩ := h
  refine ⟨hanswers.trans hscheduled, uses ++ [use], by rw [hports, hs, List.append_assoc], fun u hu => ?_⟩
  rcases List.mem_append.1 hu with hold | hnew
  · exact hanswered u hold
  · rw [List.mem_singleton.1 hnew, huse]

/-- The access just made, which took the first of the answers to come. -/
theorem State.answeredSince.access {use : PortUse} (h : s₀.answeredSince s) (hanswers : t.answers = s.answers.tail)
    (hports : t.ports = s.ports ++ [use]) (huse : use.unanswered = false) : s₀.answeredSince t :=
  h.use (hanswers ▸ List.tail_suffix _) hports huse

theorem State.answeredSince.wait {use : PortUse} (h : s₀.answeredSince s) (hnever : s.answers.headD .ok = .never)
    (hports : t.ports = s.ports ++ [use]) (huse : use.unanswered = true) : s₀.waitingSince t := by
  obtain ⟨hscheduled, uses, hs, _⟩ := h
  have hmem : .never ∈ s.answers := by
    cases hanswers : s.answers with
    | nil => rw [hanswers] at hnever; cases hnever
    | cons answer rest =>
      rw [headD_of_answers hanswers] at hnever
      exact hnever ▸ List.mem_cons_self
  exact ⟨hscheduled.mem hmem, uses ++ [use], by rw [hports, hs, List.append_assoc], use,
    List.mem_append_right _ (List.mem_singleton.2 rfl), huse⟩

theorem State.answeredSince.releaseSink (h : s₀.answeredSince s) : s₀.answeredSince s.releaseSink := by
  rcases s.releaseSink_cases with ⟨_, hs⟩ | ⟨_, hs⟩ <;> rw [hs]
  · exact h.use (use := .sinkClose) List.suffix_rfl rfl rfl
  · exact h

/-- The part of a command ends with all its accesses answered, or waits for one that is not. -/
def EndsOrWaits (s₀ : State) (part : State → Res Answer) : Prop :=
  Keeps s₀.answeredSince s₀.waitingSince part

/-! ### The commands that access a port -/

theorem firstAdvance_endsOrWaits (reload : Bool) : EndsOrWaits s₀ (firstAdvance reload) := by
  refine keeps_iff.2 fun s hs => ⟨fun a t h => ?_, fun t h => ?_⟩
  · rcases firstAdvance_cases h with ⟨_, _, rfl⟩ | ⟨_, _, _, rfl⟩ | ⟨_, _, _, rfl⟩
    · exact hs
    · exact hs.access (use := .imgGet 0 0 .ok) rfl rfl rfl
    · exact hs.access (use := .imgGet 0 0 .fail) rfl rfl rfl
  · obtain ⟨_, hnever, rfl⟩ := firstAdvance_hang h
    exact hs.wait (use := .imgGet 0 0 .never) hnever rfl rfl

theorem moveAndRead_endsOrWaits (reload : Bool) : EndsOrWaits s₀ (moveAndRead reload) := by
  refine keeps_iff.2 fun s hs => ⟨fun a t h => ?_, fun t h => ?_⟩
  · rcases moveAndRead_cases h with ⟨_, _, rfl⟩ | ⟨_, _, _, rfl⟩ | ⟨_, _, _, rfl⟩
    · exact hs
    · exact hs.access (use := .imgGet _ _ .ok) rfl rfl rfl
    · exact hs.access (use := .imgGet _ _ .fail) rfl rfl rfl
  · obtain ⟨_, hnever, rfl⟩ := moveAndRead_hang h
    exact hs.wait (use := .imgGet _ _ .never) hnever rfl rfl

theorem wadvStep_endsOrWaits : EndsOrWaits s₀ wadvStep := by
  refine keeps_iff.2 fun s hs => ?_
  have hcommitted : s₀.answeredSince (s.afterCommit s.curx s.cury s.pxr) :=
    hs.access (use := .imgSet s.curx s.cury s.pxr .ok) rfl rfl rfl
  refine ⟨fun a t h => ?_, fun t h => ?_⟩
  · rcases wadvStep_cases h with ⟨_, _, rfl⟩ | ⟨_, _, hfirst⟩ | ⟨_, _, _, _, hmove⟩ | ⟨_, _, _, _, _, rfl⟩
    · exact hs
    · exact (firstAdvance_endsOrWaits true s hs).of_done hfirst
    · exact (moveAndRead_endsOrWaits true _ hcommitted).of_done hmove
    · exact hs.access (use := .imgSet s.curx s.cury s.pxr .fail) rfl rfl rfl
  · obtain ⟨_, ⟨_, hfirst⟩ | ⟨_, _, hnever, rfl⟩ | ⟨_, _, _, hmove⟩⟩ := wadvStep_hang h
    · exact (firstAdvance_endsOrWaits true s hs).of_hang hfirst
    · exact hs.wait (use := .imgSet s.curx s.cury s.pxr .never) hnever rfl rfl
    · exact (moveAndRead_endsOrWaits true _ hcommitted).of_hang hmove

theorem radvStep_endsOrWaits : EndsOrWaits s₀ radvStep := by
  refine keeps_iff.2 fun s hs => ⟨fun a t h => ?_, fun t h => ?_⟩
  · rcases radvStep_cases h with ⟨_, _, rfl⟩ | ⟨_, _, hfirst⟩ | ⟨_, _, hmove⟩
    · exact hs
    · exact (firstAdvance_endsOrWaits false s hs).of_done hfirst
    · exact (moveAndRead_endsOrWaits false s hs).of_done hmove
  · obtain ⟨_, ⟨_, hfirst⟩ | ⟨_, hmove⟩⟩ := radvStep_hang h
    · exact (firstAdvance_endsOrWaits false s hs).of_hang hfirst
    · exact (moveAndRead_endsOrWaits false s hs).of_hang hmove

theorem emitFrom_answeredSince {text : List Byte} {next : Component} (hs : s₀.answeredSince s)
    (h : emitFrom text next s = .done a t) : s₀.answeredSince t := by
  rcases emitFrom_cases h with ⟨_, _, _, rfl⟩ | ⟨_, _, rfl⟩ <;> exact hs

theorem fnextStep_endsOrWaits : EndsOrWaits s₀ fnextStep := by
  refine keeps_iff.2 fun s hs => ?_
  have hread : s₀.answeredSince (s.afterRead .ok) := hs.access (use := .srcRead s.rcnt .ok) rfl rfl rfl
  refine ⟨fun a t h => ?_, fun t h => ?_⟩
  · rcases fnextStep_cases h with ⟨_, _, rfl⟩ | ⟨_, _, hemit⟩ | ⟨_, _, hemit⟩ | ⟨_, _, _, _, rfl⟩ |
      ⟨_, _, _, _, _, rfl⟩ | ⟨_, _, _, _, _, _, rfl⟩
    · exact hs
    · exact emitFrom_answeredSince hs hemit
    · exact emitFrom_answeredSince hs hemit
    · exact hs.access (use := .srcRead s.rcnt .fail) rfl rfl rfl
    · exact hread
    · exact hread
  · obtain ⟨_, _, hnever, rfl⟩ := fnextStep_hang h
    exact hs.wait (use := .srcRead s.rcnt .never) hnever rfl rfl

theorem fputName_answeredSince (hs : s₀.answeredSince s) (h : fputName s = .done a t) : s₀.answeredSince t := by
  rcases fputName_cases h with ⟨_, _, rfl⟩ | ⟨_, _, _, rfl⟩ | ⟨_, _, _, rfl⟩
  · exact hs
  · exact hs.access (use := .sinkOpen s.namebuf .ok) rfl rfl rfl
  · exact hs.access (use := .sinkOpen s.namebuf .fail) rfl rfl rfl

theorem fputSize_answeredSince (hs : s₀.answeredSince s) (h : fputSize s = .done a t) : s₀.answeredSince t := by
  rcases fputSize_cases h with ⟨_, _, rfl⟩ | ⟨_, _, _, _, rfl⟩ | ⟨_, _, _, _, rfl⟩ | ⟨v, _, _, _, rfl⟩
  · exact hs
  · exact hs.use (use := .sinkDiscard) List.suffix_rfl rfl rfl
  · exact hs
  · exact hs

theorem fputRaw_answeredSince (hs : s₀.answeredSince s) (h : fputRaw s = .done a t) : s₀.answeredSince t := by
  have hwritten : s₀.answeredSince (s.afterWrite .ok) := hs.access (use := .sinkWrite s.byter .ok) rfl rfl rfl
  rcases fputRaw_cases h with ⟨_, _, _, rfl⟩ | ⟨_, _, _, rfl⟩ | ⟨_, _, rfl⟩
  · exact hwritten.use (use := .sinkClose) List.suffix_rfl rfl rfl
  · exact hwritten
  · exact hs.access (use := .sinkWrite s.byter .fail) rfl rfl rfl

theorem fputStep_endsOrWaits : EndsOrWaits s₀ fputStep := by
  refine keeps_iff.2 fun s hs => ⟨fun a t h => ?_, fun t h => ?_⟩
  · rcases fputStep_cases h with ⟨_, _, rfl⟩ | ⟨_, _, _, rfl⟩ | ⟨_, _, _, hname⟩ | ⟨_, _, _, hsize⟩ | ⟨_, _, _, hraw⟩
    · exact hs
    · exact hs
    · exact fputName_answeredSince hs hname
    · exact fputSize_answeredSince hs hsize
    · exact fputRaw_answeredSince hs hraw
  · obtain ⟨_, _, hnever, ⟨_, _, rfl⟩ | ⟨_, rfl⟩⟩ := fputStep_hang h
    · exact hs.wait (use := .sinkOpen s.namebuf .never) hnever rfl rfl
    · exact hs.wait (use := .sinkWrite s.byter .never) hnever rfl rfl

/-! ### Every command -/

/-- The commands that make fallible accesses (20_memory.md R59). -/
def accessingCommands : List Instr := [.wadv, .radv, .fnext, .fput, .embed, .retrieve]

theorem body_ne_hang (hi : i ∉ accessingCommands) : bodyOf i s ≠ .hang t := by
  intro h
  cases i with
  | wadv | radv | fnext | fput | embed | retrieve => exact hi (by decide)
  | ldrem imm8 => simp only [bodyOf, ldremStep] at h; split at h <;> cases h
  | pemb => simp only [bodyOf, pembStep] at h; split at h <;> cases h
  | pext => simp only [bodyOf, pextStep] at h; split at h <;> cases h
  | packb => simp only [bodyOf, packbStep] at h; split at h <;> cases h
  | _ => cases h

/-- FINIT and SRST may close a sink, which takes no answer; the other commands without an access use no port. -/
theorem body_endsOrWaits_of_noAccess (hi : i ∉ accessingCommands) : EndsOrWaits s₀ (bodyOf i) := by
  refine keeps_iff.2 fun s hs => ⟨fun a t h => ?_, fun t h => absurd h (body_ne_hang hi)⟩
  cases i with
  | wadv | radv | fnext | fput | embed | retrieve => exact absurd (by decide) hi
  | finit | srst =>
    obtain ⟨_, rfl⟩ := Res.done.inj h
    have hreleased := hs.releaseSink
    exact hreleased
  | _ => exact (body_keeps (P := s₀.answeredSince) _ (fun _ => rfl) s hs).of_done h

theorem body_endsOrWaits (i : Instr) : EndsOrWaits s₀ (bodyOf i) := by
  have hplain (j : Instr) (hj : j ∉ accessingCommands := by decide) : EndsOrWaits s₀ (bodyOf j) :=
    body_endsOrWaits_of_noAccess hj
  cases i with
  | wadv => exact wadvStep_endsOrWaits
  | radv => exact radvStep_endsOrWaits
  | fnext => exact fnextStep_endsOrWaits
  | fput => exact fputStep_endsOrWaits
  | embed =>
    exact embedStep_keeps (hplain .cinit) (hplain .finit) (fun _ hu => hu) fnextStep_endsOrWaits (hplain .expb)
      wadvStep_endsOrWaits (hplain .pemb) fun _ hu => hu.use (use := .srcClose) List.suffix_rfl rfl rfl
  | retrieve =>
    exact retrieveStep_keeps (hplain .cinit) (hplain .finit) radvStep_endsOrWaits (hplain .pext) (hplain .packb)
      fputStep_endsOrWaits fun _ hu => hu.releaseSink
  | _ => exact body_endsOrWaits_of_noAccess (by simp [accessingCommands])

/-- A body that waits has not written STATUS: SRST, the one body that writes it, makes no fallible access. -/
theorem body_keeps_status_of_hang (h : bodyOf i s = .hang t) : t.status = s.status := by
  cases i with
  | srst => cases h
  | _ => exact ((body_frame _ s).of_hang h).keeps State.status fun _ => rfl

/-- A command hangs exactly when an access is not answered, and then has written neither STATUS nor a response. -/
theorem exec_hung_iff (h : exec i s = .next t) (hfree : s.hung = false) :
    (t.hung = true ↔ ∃ u ∈ t.ports.drop s.ports.length, u.unanswered = true) ∧
      (t.hung = true → t.status = s.status ∧ t.responses = s.responses) := by
  have hbody := body_endsOrWaits i s s.answeredSince_refl
  rcases exec_cases h with ⟨imm8, v, rfl, _, rfl⟩ | ⟨a, u, hdone, rfl⟩ | ⟨u, hhang, rfl⟩
  · simp [hfree]
  · obtain ⟨_, hhung⟩ := (body_keeps_outcome i s).of_done hdone
    obtain ⟨_, uses, hports, hanswered⟩ := hbody.of_done hdone
    simp only [State.respond_hung, hhung, hfree, State.respond_ports, hports, List.drop_left]
    refine ⟨iff_of_false Bool.false_ne_true ?_, nofun⟩
    rintro ⟨use, huse, hunanswered⟩
    exact nomatch (hanswered use huse).symm.trans hunanswered
  · obtain ⟨hresponses, _⟩ := (body_keeps_outcome i s).of_hang hhang
    obtain ⟨_, uses, hports, hwaiting⟩ := hbody.of_hang hhang
    simp only [hports, List.drop_left]
    exact ⟨iff_of_true trivial hwaiting, fun _ => ⟨body_keeps_status_of_hang hhang, hresponses⟩⟩

end

/-- Settles O7: an idle or hung block by the taking of the next move, each access in turn as the one that is not
answered, and every command by what its body leaves. -/
theorem unansweredAccessHangs : Obligations.UnansweredAccessHangs := by
  unfold Obligations.UnansweredAccessHangs
  refine ⟨fun s => step_of_idle, fun s m rest => step_of_hung, fun s rest hanswers => ?access,
    fun s rest nx ny hanswers hexh hissued hx hy hnext hrow => ?afterCommit, fun i s t => exec_hung_iff⟩
  case access =>
    have hnever := headD_of_answers hanswers
    refine ⟨fun hsend hcomp => ?read, fun hdone hfailed hcomp hb => ?sinkOpen, fun hdone hfailed hcomp => ?sinkWrite,
      fun hexh hfresh hw hh i hi => ?first, fun hexh hissued hx hy => ?commit,
      fun nx ny hexh hissued hx hy hnext hrow => ?move⟩
    case read =>
      exact exec_of_unanswered (i := .fnext) nofun hanswers (fnextStep_of_unansweredRead hsend hcomp hnever)
    case sinkOpen =>
      exact exec_of_unanswered (i := .fput) nofun hanswers
        ((fputStep_of_fileName hdone hfailed hcomp).trans (fputName_of_unansweredOpen hb hnever))
    case sinkWrite =>
      exact exec_of_unanswered (i := .fput) nofun hanswers
        ((fputStep_of_rawData hdone hfailed hcomp).trans (fputRaw_of_unansweredWrite hnever))
    case first =>
      obtain ⟨hread, reload, hbody⟩ := bodyOf_of_fresh hi hexh hfresh
      exact exec_of_unanswered hread hanswers
        (hbody.trans (firstAdvance_of_never (State.inImage_iff.2 ⟨hw, hh⟩) hnever))
    case commit =>
      exact exec_of_unanswered (i := .wadv) nofun hanswers
        (wadvStep_of_unansweredCommit hexh hissued (State.inImage_iff.2 ⟨hx, hy⟩) hnever)
    case move =>
      have hin : s.inImage nx ny = true := nextPosition_inImage (State.inImage_iff.2 ⟨hx, hy⟩) hnext.symm hrow
      exact exec_of_unanswered (i := .radv) nofun hanswers
        ((radvStep_of_issued hexh hissued).trans (moveAndRead_of_never hnext.symm hin hnever))
  case afterCommit =>
    have hin : s.inImage s.curx s.cury = true := State.inImage_iff.2 ⟨hx, hy⟩
    have hleft : (s.afterCommit s.curx s.cury s.pxr).answers = .never :: rest := congrArg List.tail hanswers
    have hstep : wadvStep s = .hang ((s.afterCommit s.curx s.cury s.pxr).afterGet nx ny .never) :=
      (wadvStep_of_commit hexh hissued hin (headD_of_answers hanswers)).trans
        (moveAndRead_of_never hnext.symm (nextPosition_inImage hin hnext.symm hrow) (headD_of_answers hleft))
    rw [exec_of_unanswered (i := .wadv) nofun hleft hstep]
    simp [State.afterCommit, State.logUse, State.setPixel]

/-- Settles O45: neither operation faults from any state, and an operation that hangs was to wait for an answer that
never comes. -/
theorem operationsAlwaysEnd : Obligations.OperationsAlwaysEnd := by
  unfold Obligations.OperationsAlwaysEnd
  intro s i hi
  have hnext : ∃ t, exec i s = .next t := by
    simp only [List.mem_cons, List.not_mem_nil, or_false] at hi
    rcases hi with rfl | rfl
    · exact exec_next_of_ne_fault embedStep_completes.ne_fault
    · exact exec_next_of_ne_fault retrieveStep_completes.ne_fault
  obtain ⟨t, h⟩ := hnext
  refine ⟨t, h, fun hnever => ?_⟩
  rcases exec_cases h with ⟨imm8, v, rfl, _, _⟩ | ⟨a, u, hdone, rfl⟩ | ⟨u, hhang, _⟩
  · simp at hi
  · obtain ⟨hresponses, hhung⟩ := (body_keeps_outcome i s).of_done hdone
    exact ⟨hhung, by rw [State.respond_responses, hresponses, List.length_append, List.length_singleton]⟩
  · obtain ⟨hscheduled, _⟩ := (body_endsOrWaits i s s.answeredSince_refl).of_hang hhang
    exact absurd hscheduled hnever

end Sys2Proof.Machine
